-- ==== Sys2Proof/Word.lean ====
section
/-! DEFINITION. The value types of the core (00_scope R9, R11): unsigned words of fixed width. -/

namespace Sys2Proof

/-- 8 bits: a register, a command byte, a slot or node index (R9). -/
abbrev Byte := BitVec 8

/-- 16 bits: a buffer length (30_encoding R117) or a CRC16 (40_crc R143). -/
abbrev Half := BitVec 16

/-- 32 bits: a timestamp or a duration in microseconds (R9, R13). -/
abbrev Stamp := BitVec 32

/-- An identifier: 8 bytes, byte 0 the family code (20_memory R81). -/
abbrev Ident := Vector Byte 8

/-- A device handle: an opaque value compared only for equality (46_slot_table R280, D37).
`none` of `Option Handle` is the spec's NONE. -/
abbrev Handle := Nat

end Sys2Proof
end

