-- ==== Sys2Proof/Config.lean ====
section
/-! DEFINITION. The parameters of a core (00_scope R8) and the free values the spec leaves open. -/

namespace Sys2Proof

/-- ENTRY_LOW_POLICY (42_bus_handshake R188): what a low pulse of unknown start, shorter than
T_RESET_MIN, counts as. -/
inductive EntryLowPolicy where
  | acceptAsReset
  | noReset
  deriving DecidableEq, Repr

/-- The parameters of 00_scope R8, constants of one core fixed at construction (10_state R44).
Durations are 32-bit like the clock they are compared with (DEDUCED, log 3, unsafe). -/
structure Config where
  nMax : Nat
  tResetMin : Stamp
  tResetMax : Stamp
  tResetWait : Stamp
  tPresenceHighStd : Stamp
  tPresenceLowStd : Stamp
  tPresenceHighMax : Stamp
  tWriteZero : Stamp
  tReadSample : Stamp
  tSlotLowMax : Stamp
  tSlotHighMax : Stamp
  codedProtocolErrors : Bool
  entryLowPolicy : EntryLowPolicy
  deriving DecidableEq, Repr

/-- TREE_SIZE = 2·N_MAX − 1 (R8, 41_decision_tree R166). -/
def Config.treeSize (c : Config) : Nat := 2 * c.nMax - 1

/-- The constraints of R8 and 42_bus_handshake R193. -/
abbrev Config.Valid (c : Config) : Prop :=
  1 ≤ c.nMax ∧ c.nMax ≤ 127 ∧
  c.tResetMin < c.tResetMax ∧
  c.tPresenceLowStd < c.tPresenceHighMax ∧
  0 < c.tResetWait ∧ 0 < c.tSlotLowMax ∧ 0 < c.tSlotHighMax

/-- The parameters of the spec's test vectors (95_test_vectors 0.2). DESIGN CHOICE (log 2, unsafe): the
spec leaves every one of them OPEN except the two defaults of R8; no statement of the model may use
these values as the core's. -/
def Config.testValues : Config where
  nMax := 4
  tResetMin := 400
  tResetMax := 1000
  tResetWait := 10000
  tPresenceHighStd := 30
  tPresenceLowStd := 120
  tPresenceHighMax := 300
  tWriteZero := 30
  tReadSample := 30
  tSlotLowMax := 200
  tSlotHighMax := 1000
  codedProtocolErrors := true
  entryLowPolicy := .acceptAsReset

/-- The n-th free bit: the value of a failed RECV_BIT (43_transport R203) and the choice of a failed
RECV_BUF between writing and leaving its byte (R207). Nothing is known of it (log 11, safe). -/
opaque Config.freeBit : Nat → Bool

/-- The n-th free byte: the value of a failed RECV_BYTE (R205), the failing byte of RECV_BUF (R207), the
bytes of MADDR after a failed address byte (45_dispatcher R258). Nothing is known of it (log 11, safe). -/
opaque Config.freeByte : Nat → Byte

/-- Byte k of the identifier of a handle for which no device object is listed (log 4, safe), applied to
the handle and k; for an empty slot it is applied to `none`. Nothing is known of it. -/
opaque Config.freeIdByte : Option Handle → Nat → Byte

end Sys2Proof
end

