-- ==== Sys2Proof/Syntax.lean ====
section
/-! DEFINITION. The instructions: the ROM commands of the bus stream and the operations of the host stream
(00_scope R17, 30_encoding R114 and R118). -/

namespace Sys2Proof

/-- One constructor for each row of spec/opcode_table.json. -/
inductive Instr where
  /-- SEARCH_ROM 0xF0 (45_dispatcher R257). -/
  | searchRom
  /-- MATCH_ROM 0x55 (R258). -/
  | matchRom
  /-- SKIP_ROM 0xCC (R259). -/
  | skipRom
  /-- READ_ROM 0x33 (R260). -/
  | readRom
  /-- READ_ROM_LEGACY 0x0F (R261). -/
  | readRomLegacy
  /-- UNRECOGNIZED: any other command byte (R263). -/
  | unrecognized (cmd : Byte)
  /-- ATTACH h (46_slot_table R281). -/
  | attach (h : Handle)
  /-- DETACH_DEV h (R282). -/
  | detachDev (h : Handle)
  /-- DETACH_SLOT i (R283). -/
  | detachSlot (i : Byte)
  /-- POLL (45_dispatcher R251). -/
  | poll
  /-- RUN (R264). -/
  | run
  /-- GET_ERROR (46_slot_table R284). -/
  | getError
  /-- GET_SELECTED (R285). -/
  | getSelected
  /-- GET_COUNT (R286). -/
  | getCount
  /-- GET_SLOT i (R287). -/
  | getSlot (i : Byte)
  /-- SEND_BIT v (43_transport R202). -/
  | sendBit (v : Bool)
  /-- RECV_BIT (R203). -/
  | recvBit
  /-- SEND_BYTE b (R204). -/
  | sendByte (b : Byte)
  /-- RECV_BYTE (R205). -/
  | recvByte
  /-- SEND_BUF addr, len (R206). -/
  | sendBuf (addr : Nat) (len : Half)
  /-- RECV_BUF addr, len (R207). -/
  | recvBuf (addr : Nat) (len : Half)
  /-- CRC8 addr, len (40_crc R141). -/
  | crc8 (addr : Nat) (len : Half)
  /-- CRC16 addr, len (R143). -/
  | crc16 (addr : Nat) (len : Half)
  /-- MAKE_ID fam, ser (R145). -/
  | makeId (fam : Byte) (ser : Vector Byte 6)
  deriving DecidableEq, Repr

/-- The two streams the core decodes (30_encoding, opening; R17). -/
inductive Stream where
  /-- ROM command bytes received from the bus master. -/
  | bus
  /-- Requests of the host program, or of a device duty. -/
  | host
  deriving DecidableEq, Repr

/-- The stream an instruction belongs to: the column "format" of spec/opcode_table.json. -/
def Instr.stream : Instr → Stream
  | .searchRom | .matchRom | .skipRom | .readRom | .readRomLegacy | .unrecognized _ => .bus
  | .attach _ | .detachDev _ | .detachSlot _ | .poll | .run | .getError | .getSelected | .getCount
  | .getSlot _ | .sendBit _ | .recvBit | .sendByte _ | .recvByte | .sendBuf _ _ | .recvBuf _ _
  | .crc8 _ _ | .crc16 _ _ | .makeId _ _ => .host

end Sys2Proof
end

