-- ==== Sys2Proof/WellFormed.lean ====
section
/-! DEFINITION. Which instructions an encoding can spell. Operand widths (30_encoding R117) are in the types of
`Instr`, so the one check left is the command byte of UNRECOGNIZED. -/

namespace Sys2Proof

/-- The five command bytes with a row of their own in 30_encoding R114. -/
def namedCommands : List Byte := [0xF0, 0x55, 0xCC, 0x33, 0x0F]

/-- UNRECOGNIZED stands only for a command byte that no other row matches (R114, R263); every other
term is well formed. -/
def Instr.wellFormed : Instr → Bool
  | .unrecognized cmd => !namedCommands.contains cmd
  | .searchRom | .matchRom | .skipRom | .readRom | .readRomLegacy
  | .attach _ | .detachDev _ | .detachSlot _ | .poll | .run | .getError | .getSelected | .getCount
  | .getSlot _ | .sendBit _ | .recvBit | .sendByte _ | .recvByte | .sendBuf _ _ | .recvBuf _ _
  | .crc8 _ _ | .crc16 _ _ | .makeId _ _ => true

end Sys2Proof
end

