-- ==== Sys2Proof/Decode.lean ====
section
/-! DEFINITION. The decoders of the two streams and, after them, the encoder (30_encoding R110 to R119). A host
request is a list of fields, the op code first and then the operand fields its row lists (R117): the spec gives
handles and addresses no width in bytes (DESIGN CHOICE, log 13, unsafe). A ROM command is one byte. -/

namespace Sys2Proof

/-- Why a decoder rejects its input. -/
inductive DecodeError where
  /-- A host request without an op code. -/
  | emptyRequest
  /-- An op value that is not in the table of R118 (R119). -/
  | reservedOp (op : Nat)
  /-- The row of `op` lists another number of operand fields. -/
  | operandCount (op : Nat)
  /-- An operand field of `op` exceeds the width R117 gives its kind. -/
  | operandRange (op : Nat)
  /-- The input of the bus decoder is not one command byte. -/
  | notOneCommandByte
  deriving DecidableEq, Repr

/-- The op codes of R118. -/
def hostOps : List Nat :=
  [0x01, 0x02, 0x03, 0x04, 0x05, 0x06, 0x07, 0x08, 0x09] ++
  [0x10, 0x11, 0x12, 0x13, 0x14, 0x15] ++ [0x20, 0x21, 0x22]

/-- A field of at most `w` bits (R117: operands are zero-extended, so a larger value is no operand). -/
def field (w op n : Nat) : Except DecodeError (BitVec w) :=
  if n < 2 ^ w then .ok (BitVec.ofNat w n) else .error (.operandRange op)

/-- No operand field. -/
def fields0 (op : Nat) (i : Instr) : List Nat → Except DecodeError Instr
  | [] => .ok i
  | _ :: _ => .error (.operandCount op)

/-- One operand field of the unbounded kind (`h`). -/
def fieldsHandle (op : Nat) (mk : Handle → Instr) : List Nat → Except DecodeError Instr
  | [h] => .ok (mk h)
  | _ => .error (.operandCount op)

/-- One operand field of 8 bits (`i`, `b`). -/
def fieldsByte (op : Nat) (mk : Byte → Instr) : List Nat → Except DecodeError Instr
  | [n] => (field 8 op n).map mk
  | _ => .error (.operandCount op)

/-- One operand field of 1 bit (`v`). -/
def fieldsBit (op : Nat) (mk : Bool → Instr) : List Nat → Except DecodeError Instr
  | [n] => (field 1 op n).map fun v => mk (v == 1)
  | _ => .error (.operandCount op)

/-- The operand fields `addr`, unbounded, and `len`, 16 bits. -/
def fieldsBuffer (op : Nat) (mk : Nat → Half → Instr) : List Nat → Except DecodeError Instr
  | [addr, len] => (field 16 op len).map (mk addr)
  | _ => .error (.operandCount op)

/-- The operand fields `fam` and `ser[0]` to `ser[5]`, 8 bits each. -/
def fieldsIdent (op : Nat) (mk : Byte → Vector Byte 6 → Instr) : List Nat → Except DecodeError Instr
  | [fam, s0, s1, s2, s3, s4, s5] =>
    if fam < 256 ∧ s0 < 256 ∧ s1 < 256 ∧ s2 < 256 ∧ s3 < 256 ∧ s4 < 256 ∧ s5 < 256 then
      .ok (mk (BitVec.ofNat 8 fam) #v[BitVec.ofNat 8 s0, BitVec.ofNat 8 s1, BitVec.ofNat 8 s2,
        BitVec.ofNat 8 s3, BitVec.ofNat 8 s4, BitVec.ofNat 8 s5])
    else .error (.operandRange op)
  | _ => .error (.operandCount op)

/-- The op code table of R118; every other op value is reserved (R119). -/
def decodeOp (op : Nat) (args : List Nat) : Except DecodeError Instr :=
  match op with
  | 0x01 => fieldsHandle op .attach args
  | 0x02 => fieldsHandle op .detachDev args
  | 0x03 => fieldsByte op .detachSlot args
  | 0x04 => fields0 op .poll args
  | 0x05 => fields0 op .run args
  | 0x06 => fields0 op .getError args
  | 0x07 => fields0 op .getSelected args
  | 0x08 => fields0 op .getCount args
  | 0x09 => fieldsByte op .getSlot args
  | 0x10 => fieldsBit op .sendBit args
  | 0x11 => fields0 op .recvBit args
  | 0x12 => fieldsByte op .sendByte args
  | 0x13 => fields0 op .recvByte args
  | 0x14 => fieldsBuffer op .sendBuf args
  | 0x15 => fieldsBuffer op .recvBuf args
  | 0x20 => fieldsBuffer op .crc8 args
  | 0x21 => fieldsBuffer op .crc16 args
  | 0x22 => fieldsIdent op .makeId args
  | _ => .error (.reservedOp op)

/-- The host stream's decoder (R117 to R119). -/
def decodeHost : List Nat → Except DecodeError Instr
  | [] => .error .emptyRequest
  | op :: args => decodeOp op args

/-- The bus stream's decoder: exact on all 8 bits, total on the 256 command bytes (R114). -/
def decodeRom (cmd : Byte) : Instr :=
  if cmd = 0xF0 then .searchRom
  else if cmd = 0x55 then .matchRom
  else if cmd = 0xCC then .skipRom
  else if cmd = 0x33 then .readRom
  else if cmd = 0x0F then .readRomLegacy
  else .unrecognized cmd

/-- Decoding on either stream. -/
def decode : Stream → List Nat → Except DecodeError Instr
  | .host, fs => decodeHost fs
  | .bus, [cmd] => if cmd < 256 then .ok (decodeRom (BitVec.ofNat 8 cmd)) else .error .notOneCommandByte
  | .bus, _ => .error .notOneCommandByte

/-- The fields of an instruction, from the encodings of R114 and R118. -/
def encode : Instr → List Nat
  | .searchRom => [0xF0]
  | .matchRom => [0x55]
  | .skipRom => [0xCC]
  | .readRom => [0x33]
  | .readRomLegacy => [0x0F]
  | .unrecognized cmd => [cmd.toNat]
  | .attach h => [0x01, h]
  | .detachDev h => [0x02, h]
  | .detachSlot i => [0x03, i.toNat]
  | .poll => [0x04]
  | .run => [0x05]
  | .getError => [0x06]
  | .getSelected => [0x07]
  | .getCount => [0x08]
  | .getSlot i => [0x09, i.toNat]
  | .sendBit v => [0x10, v.toNat]
  | .recvBit => [0x11]
  | .sendByte b => [0x12, b.toNat]
  | .recvByte => [0x13]
  | .sendBuf addr len => [0x14, addr, len.toNat]
  | .recvBuf addr len => [0x15, addr, len.toNat]
  | .crc8 addr len => [0x20, addr, len.toNat]
  | .crc16 addr len => [0x21, addr, len.toNat]
  | .makeId fam ser => 0x22 :: fam.toNat :: ser.toList.map BitVec.toNat

/-- The operand fields of a host request laid out in the bits above its op byte (DESIGN CHOICE, log 14): a
fixed-width field at its width, `len` below `addr`, `ser[0]` lowest above `fam`. -/
def tableOperands (op rest : Nat) : List Nat :=
  match op with
  | 0x01 | 0x02 | 0x03 | 0x09 | 0x10 | 0x12 => [rest]
  | 0x14 | 0x15 | 0x20 | 0x21 => [rest / 2 ^ 16, rest % 2 ^ 16]
  | 0x22 => [rest % 256, rest / 2 ^ 8 % 256, rest / 2 ^ 16 % 256, rest / 2 ^ 24 % 256,
      rest / 2 ^ 32 % 256, rest / 2 ^ 40 % 256, rest / 2 ^ 48]
  | _ => if rest = 0 then [] else [rest]

/-- The stream and the fields an opcode-table word stands for: a host request where its first byte is an op code
of R118, else a command byte (the two maps of the table share no listed value; log 14). -/
def tableFields (nbits w : Nat) : Stream × List Nat :=
  let word := w % 2 ^ nbits
  if hostOps.contains (word % 256) then
    (.host, word % 256 :: tableOperands (word % 256) (word / 256))
  else (.bus, [word])

/-- The instruction the decoder reads from a word of the opcode table. -/
def decodeTableWord (nbits w : Nat) : Option Instr :=
  (decode (tableFields nbits w).1 (tableFields nbits w).2).toOption

end Sys2Proof
end

