-- ==== Sys2Proof/Machine/State.lean ====
section
/-! DEFINITION. The state of the core as plain data (10_state), the ways a step can stop, and the state after
construction (70_reset_and_hazards R330). -/

namespace Sys2Proof.Machine

/-- The error kinds ERR holds (60_exceptions R300); their codes are in Flags. -/
inductive ErrKind where
  | noError
  | veryLongReset
  | veryShortReset
  | readTimeslotTimeoutLow
  | readTimeslotTimeoutHigh
  | searchMismatch
  | noAddressMatch
  deriving DecidableEq, Repr

/-- The states FSM holds (10_state R33); their codes are in Flags. -/
inductive Fsm where
  | idle
  | resetWait
  | presence
  | commandReceive
  | search
  | matchRom
  | skipRom
  | readRom
  | unrecognized
  | duty
  deriving DecidableEq, Repr

/-- LINE (10_state R32, R42): DIR true = output, OUT the output level; bits 7:2 are hardwired to 0. -/
structure Line where
  dir : Bool
  out : Bool
  deriving DecidableEq, Repr

/-- One TREE entry (10_state R38); its 32-bit word is `Node.word` in Operands. -/
structure Node where
  pos : Byte
  rep : Byte
  zero : Byte
  one : Byte
  deriving DecidableEq, Repr

/-- An EMPTY entry, 0xFFFFFFFF (R38). -/
def Node.empty : Node := ⟨0xFF, 0xFF, 0xFF, 0xFF⟩

/-- One draw of the oracle (42_bus_handshake R181, 70_reset R345): `dt` µs pass, and the master and the
pull-up then give the line `level` (true = high). A call that takes no sample ignores the level. -/
structure Draw where
  dt : Nat
  level : Bool
  deriving DecidableEq, Repr

/-- One act of a device duty (45_dispatcher R262): a host call, or the duty's return. -/
inductive DutyAct where
  | call (request : List Nat)
  | ret
  deriving DecidableEq, Repr

/-- A line access of the core (42_bus_handshake R180). -/
inductive Access where
  /-- `ReadLine()`, with the level it returned. -/
  | sample (level : Bool)
  /-- `DriveLow()`. -/
  | driveLow
  /-- `SetDir(In)`. -/
  | release
  deriving DecidableEq, Repr

/-- What the model records of a run (log 10): line accesses with their time and the host interrupt mask then in
force, and the transitions of FSM. -/
inductive Event where
  | line (time : Nat) (masked : Bool) (a : Access)
  | goto (st : Fsm)
  deriving DecidableEq, Repr

/-- The result value of a host operation (10_state R46, 30_encoding R118). -/
inductive Result where
  /-- One byte: ATTACH, DETACH_*, POLL, GET_ERROR, GET_SELECTED, GET_COUNT, CRC8. -/
  | byte (b : Byte)
  /-- GET_SLOT: a handle, or `none` = NONE. -/
  | slot (h : Option Handle)
  /-- SEND_BIT and SEND_BYTE: the ok bit. -/
  | ok (ok : Bool)
  /-- RECV_BIT: the ok bit and the value bit. -/
  | okBit (ok value : Bool)
  /-- RECV_BYTE: the ok bit and the byte. -/
  | okByte (ok : Bool) (value : Byte)
  /-- SEND_BUF and RECV_BUF: the count of bytes transferred. -/
  | count (n : Half)
  /-- CRC16. -/
  | crc16 (w : Half)
  /-- MAKE_ID. -/
  | ident (id : Ident)
  deriving DecidableEq, Repr

/-- Buffer memory (20_memory R85): the bytes of the callers' buffers, addresses strictly rising. An address that is
not listed lies outside every buffer and has no value. -/
abbrev Memory := List Host.Cell

/-- The state. Registers first (R32), then what the core references (R45, R80), then the inputs of the other agents
(R16), the outputs (R46), and the model's own fields. -/
structure State where
  /-- The parameters of this core (10_state R44), written by no step. -/
  cfg : Config
  /-- ERR (R34). -/
  err : ErrKind
  /-- SEL (R35): a slot index, or 0xFF = none. -/
  sel : Byte
  /-- COUNT (R36). -/
  count : Byte
  /-- FSM (R33). -/
  fsm : Fsm
  /-- TREE_ROOT (R38). -/
  treeRoot : Byte
  /-- TREE_NEXT (R38). -/
  treeNext : Byte
  /-- WPOS (R39). -/
  wpos : Byte
  /-- WNODE (R39). -/
  wnode : Byte
  /-- WREP (R39). -/
  wrep : Byte
  /-- WTRIG (R39). -/
  wtrig : Byte
  /-- TSHIFT (R40). -/
  tshift : Byte
  /-- TBIT (R40). -/
  tbit : Byte
  /-- LINE (R42). -/
  line : Line
  /-- IMASK bit 0 (R43). -/
  imask : Bool
  /-- MADDR[0..7] (R41). -/
  maddr : Vector Byte 8
  /-- SLOT[0..N_MAX−1] (R37); `none` = NONE. -/
  slots : List (Option Handle)
  /-- TREE[0..TREE_SIZE−1] (R38). -/
  tree : List Node
  /-- Buffer memory (R85). -/
  mem : Memory
  /-- The identifiers of the device objects the host has created (R45, R81), by handle. -/
  devices : List (Handle × Ident)
  /-- The acts each device's duty has still to make (R262), by handle. -/
  duties : List (Handle × List DutyAct)
  /-- The requests the host program has still to make, each a list of fields (R117). -/
  host : List (List Nat)
  /-- The oracle's draws to come (R181). When none is left the master leaves the line released. -/
  bus : List Draw
  /-- The HAL clock in µs; `Now()` reads it modulo 2^32 (R13, R180). -/
  time : Nat
  /-- The result of the last completed host operation; `none` before the first (R46). -/
  result : Option Result
  /-- The host is inside RUN, which never returns (R264). -/
  running : Bool
  /-- What the model records, newest first (the model's own, log 10). -/
  trace : List Event
  /-- How many free values have been drawn (the model's own, log 11). -/
  draws : Nat
  deriving DecidableEq, Repr

/-- Why the machine stops with a fault. -/
inductive Fault where
  /-- Raised by `step` with FSM = Duty when the duty makes no further call and does not return: the core
  is stuck (70_reset R346, 93 row 20). Safe: the hardware stays in Duty too. -/
  | dutyNeverReturns
  /-- Raised by `step` in an FSM state the core holds only inside an operation (log 15). Safe: no run
  reaches it. -/
  | midOperation (st : Fsm)
  deriving DecidableEq, Repr

/-- Why the machine refuses a request (60_exceptions R313). A refusal changes no state. -/
inductive Refusal where
  /-- Raised by `exec` for an instruction the model gives no meaning. Safe. -/
  | notModelled (mnemonic : String)
  /-- Raised by `step` for a request that spells no operation (R119). Safe. -/
  | undecodable (e : DecodeError)
  /-- Raised by POLL, RUN, ATTACH, DETACH_DEV and DETACH_SLOT while FSM ≠ Idle (R288). Safe. -/
  | duringTransaction
  /-- Raised by GET_SLOT with i ≥ N_MAX (R287). Safe. -/
  | noSuchSlot (i : Byte)
  /-- Raised by SEND_BUF, RECV_BUF, CRC8 and CRC16 for a byte outside the caller's buffer (R85). Safe. -/
  | outsideBuffer (addr : Nat)
  /-- Raised by `construct` for parameters that break R8 or R193 (R330). Safe. -/
  | badParameters
  /-- Raised by the host-side device operations for a device that is attached (R335, R340). Safe. -/
  | deviceAttached (h : Handle)
  deriving DecidableEq, Repr

/-- The registers after construction (R330), for parameters `c`. The registers the spec gives no value hold 0
(DESIGN CHOICE, log 1, unsafe); nothing else is listed. -/
def State.init (c : Config) : State where
  cfg := c
  err := .noError
  sel := 0xFF
  count := 0
  fsm := .idle
  treeRoot := 0xFF
  treeNext := 0
  wpos := 0
  wnode := 0
  wrep := 0
  wtrig := 0
  tshift := 0
  tbit := 0
  line := ⟨false, false⟩
  imask := false
  maddr := #v[0, 0, 0, 0, 0, 0, 0, 0]
  slots := List.replicate c.nMax none
  tree := List.replicate c.treeSize Node.empty
  mem := []
  devices := []
  duties := []
  host := []
  bus := []
  time := 0
  result := none
  running := false
  trace := []
  draws := 0

/-- The machine right after construction with the spec's test parameters (R330; log 2). -/
def State.reset : State := State.init Config.testValues

end Sys2Proof.Machine
end

