-- ==== Sys2Proof/Machine/Flags.lean ====
section
/-! DEFINITION. The core has no flags (10_state R46). Its status outputs are ERR, the result bytes and SEL; this file
gives their codes, and the 8-bit views of FSM, LINE and IMASK. -/

namespace Sys2Proof.Machine

/-- The code ERR holds for each kind (60_exceptions R300). -/
def ErrKind.code : ErrKind → Byte
  | .noError => 0x00
  | .veryLongReset => 0x01
  | .veryShortReset => 0x02
  | .readTimeslotTimeoutLow => 0x03
  | .readTimeslotTimeoutHigh => 0x04
  | .searchMismatch => 0x05
  | .noAddressMatch => 0x06

/-- The code FSM holds for each state (10_state R33). -/
def Fsm.code : Fsm → Byte
  | .idle => 0x00
  | .resetWait => 0x01
  | .presence => 0x02
  | .commandReceive => 0x03
  | .search => 0x04
  | .matchRom => 0x05
  | .skipRom => 0x06
  | .readRom => 0x07
  | .unrecognized => 0x08
  | .duty => 0x09

/-- The 8-bit view of LINE: bit 0 DIR, bit 1 OUT, bits 7:2 read 0 (R32). -/
def Line.word (l : Line) : Byte := (if l.dir then 1 else 0) ||| (if l.out then 2 else 0)

/-- The 8-bit view of IMASK: bit 0, bits 7:1 read 0 (R32). -/
def imaskWord (masked : Bool) : Byte := if masked then 1 else 0

/-- The outcomes of POLL (45_dispatcher R254). -/
inductive PollOutcome where
  | noDevices
  | noReset
  | aborted
  | searchDone
  | matched
  | skipped
  | unrecognized
  deriving DecidableEq, Repr

/-- The outcome codes (R254). -/
def PollOutcome.code : PollOutcome → Byte
  | .noDevices => 0
  | .noReset => 1
  | .aborted => 2
  | .searchDone => 3
  | .matched => 4
  | .skipped => 5
  | .unrecognized => 6

/-- POLL's result byte, `outcome | (REINIT << 7)` (R254, R265). -/
def pollByte (oc : PollOutcome) (reinit : Bool) : Byte :=
  oc.code ||| (if reinit then 0x80 else 0)

/-- OK of a detach (46_slot_table R289). -/
def detachOk : Byte := 0x00

/-- NOT_FOUND of a detach (R289). -/
def detachNotFound : Byte := 0x01

/-- Whether an abort writes its code to ERR: always but for the two conditions the document leaves uncoded, with
CODED_PROTOCOL_ERRORS = false (60_exceptions R302, R305). -/
def writesErr (c : Config) (code : ErrKind) : Bool :=
  c.codedProtocolErrors || !(code == .searchMismatch || code == .noAddressMatch)

end Sys2Proof.Machine
end

