-- ==== Sys2Proof/Machine/Operands.lean ====
section
/-! DEFINITION. Bit fields and operand forms: identifier bytes and bits, tree words, the byte a receive assembles. -/

namespace Sys2Proof.Machine

/-- Byte k of an identifier, k = 0..7 (00_scope R12). -/
def identByte (id : Ident) (k : Nat) : Byte := (id[k]?).getD 0

/-- Bit p of eight bytes given by index: bit `p & 7` of byte `p >> 3` (00_scope R10, R12 `IdBit`). -/
def bitOf (byte : Nat → Byte) (p : Nat) : Bool := (byte (p / 8)).getLsbD (p % 8)

/-- An identifier as the little-endian 64-bit number ID64 (R10). -/
def ident64 (id : Ident) : BitVec 64 :=
  identByte id 7 ++ identByte id 6 ++ identByte id 5 ++ identByte id 4 ++
  identByte id 3 ++ identByte id 2 ++ identByte id 1 ++ identByte id 0

/-- The 32-bit word of a TREE entry: pos[7:0], rep[15:8], zero[23:16], one[31:24] (10_state R38). -/
def Node.word (n : Node) : BitVec 32 := n.one ++ n.zero ++ n.rep ++ n.pos

/-- LEAF, the "exhausted all 64 bits" sentinel (R38). -/
def leafPos : Byte := 0x80

/-- NO_CHILD (R38). -/
def noChild : Byte := 0xFF

/-- A leaf entry for the representative `rep` (41_decision_tree R163 step 4). -/
def Node.leaf (rep : Byte) : Node := ⟨leafPos, rep, noChild, noChild⟩

/-- SEL = none (R32), and the TABLE_FULL result of ATTACH (46_slot_table R289). -/
def noneByte : Byte := 0xFF

/-- One bit more of a byte received LSB first: `TSHIFT | (v << TBIT)` (43_transport R205). -/
def assembleBit (tshift tbit : Byte) (v : Bool) : Byte :=
  tshift ||| ((if v then 1 else 0 : Byte) <<< tbit.toNat)

/-- The eight bits of a byte in slot order, LSB first (20_memory R84, 30_encoding R111). -/
def byteBits (b : Byte) : List Bool := (List.range 8).map b.getLsbD

/-- `elapsed ≥ T` for a timestamp taken at `t0`: `(Now() − t0) mod 2^32` against a duration (00_scope R13). -/
def expired (now t0 budget : Stamp) : Bool := decide (budget ≤ now - t0)

end Sys2Proof.Machine
end

