-- ==== Sys2Proof/Machine/Ops.lean ====
section
/-! DEFINITION. The shared operations: the HAL primitives and the waits over them, slots, nodes and identifiers, buffer
memory, free values, results, FSM transitions, and the abort (60_exceptions R305) with POLL's return beside it. -/

namespace Sys2Proof.Machine

/-! ### Register updates by name -/

/-- x[ERR] <- e. -/
def State.setErr (s : State) (e : ErrKind) : State := { s with err := e }
/-- x[SEL] <- v. -/
def State.setSel (s : State) (v : Byte) : State := { s with sel := v }
/-- x[COUNT] <- v. -/
def State.setCount (s : State) (v : Byte) : State := { s with count := v }
/-- x[FSM] <- st. -/
def State.setFsm (s : State) (st : Fsm) : State := { s with fsm := st }
/-- x[TREE_ROOT], x[TREE] and x[TREE_NEXT]. -/
def State.setTree (s : State) (root : Byte) (nodes : List Node) (next : Byte) : State :=
  { s with treeRoot := root, tree := nodes, treeNext := next }
/-- x[WPOS], x[WNODE], x[WREP] and x[WTRIG]. -/
def State.setWalk (s : State) (pos node rep trig : Byte) : State :=
  { s with wpos := pos, wnode := node, wrep := rep, wtrig := trig }
/-- x[TSHIFT] and x[TBIT]. -/
def State.setByteRegs (s : State) (shift bit : Byte) : State := { s with tshift := shift, tbit := bit }
/-- x[LINE] <- l. -/
def State.setLine (s : State) (l : Line) : State := { s with line := l }
/-- x[IMASK] <- m. -/
def State.setMask (s : State) (m : Bool) : State := { s with imask := m }
/-- x[MADDR] <- a. -/
def State.setMaddr (s : State) (a : Vector Byte 8) : State := { s with maddr := a }
/-- x[SLOT][i] <- h. -/
def State.setSlot (s : State) (i : Nat) (h : Option Handle) : State := { s with slots := s.slots.set i h }
/-- Buffer memory is now m. -/
def State.setMem (s : State) (m : Memory) : State := { s with mem := m }
/-- The oracle's draws still to come, and the clock. -/
def State.setBus (s : State) (b : List Draw) (time : Nat) : State := { s with bus := b, time := time }
/-- The record is now tr (log 10). -/
def State.setTrace (s : State) (tr : List Event) : State := { s with trace := tr }
/-- The counter of free values is now n (log 11). -/
def State.setDraws (s : State) (n : Nat) : State := { s with draws := n }
/-- The host enters RUN (45_dispatcher R264). -/
def State.setRunning (s : State) (r : Bool) : State := { s with running := r }
/-- The host program's requests still to come. -/
def State.setHost (s : State) (h : List (List Nat)) : State := { s with host := h }
/-- The acts the devices' duties have still to make. -/
def State.setDuties (s : State) (d : List (Handle × List DutyAct)) : State := { s with duties := d }
/-- The operation returns `r`. -/
def State.ret (s : State) (r : Result) : State := { s with result := some r }

/-! ### The HAL (42_bus_handshake R180) -/

/-- The next draw of the oracle. After the last one the master leaves the line released and no time passes by itself
(DESIGN CHOICE, log 7). -/
def drawOf : List Draw → Draw
  | [] => ⟨0, true⟩
  | d :: _ => d

/-- Take one draw: its time passes. -/
def takeDraw (s : State) : Bool × State :=
  ((drawOf s.bus).level, s.setBus s.bus.tail (s.time + (drawOf s.bus).dt))

/-- The clock as the core reads it, 32 bits (R13). -/
def State.stamp (s : State) : Stamp := BitVec.ofNat 32 s.time

/-- `Now()`: some time passes, then the clock is read (R180, R345). -/
def now (s : State) : Stamp × State :=
  ((takeDraw s).2.stamp, (takeDraw s).2)

/-- `Delay(t)`: at least t µs pass; the draw gives the overshoot (R180, R181). -/
def delay (t : Stamp) (s : State) : State :=
  (takeDraw s).2.setBus (takeDraw s).2.bus ((takeDraw s).2.time + t.toNat)

/-- Record an event (log 10). -/
def record (e : Event) (s : State) : State := s.setTrace (e :: s.trace)

/-- `Critical { body }`: IMASK is 1 while the body runs and 0 after it (20_memory R93). -/
def critical {α : Type} (body : State → α × State) (s : State) : α × State :=
  ((body (s.setMask true)).1, (body (s.setMask true)).2.setMask false)

/-- `ReadLine()`: the line is low if the core or the master drives it low, else high (R181). -/
def readLine (s : State) : Bool × State :=
  let d := takeDraw s
  let level := !s.line.dir && d.1
  (level, record (.line d.2.time s.imask (.sample level)) d.2)

/-- `SetDir(In)`: some time passes, then DIR <- 0 (R180, R345). -/
def setDirIn (s : State) : State :=
  record (.line (takeDraw s).2.time s.imask .release) ((takeDraw s).2.setLine { s.line with dir := false })

/-- `DriveLow()`: some time passes, the core's latency of 43_transport R202, then DIR <- 1, OUT <- 0, in one access
(R180, R345; log 12). -/
def driveLow (s : State) : State :=
  record (.line (takeDraw s).2.time s.imask .driveLow) ((takeDraw s).2.setLine ⟨true, false⟩)

/-- `Critical { lvl <- ReadLine() }` (R183). -/
def sampleLine (s : State) : Bool × State := critical readLine s

/-- `Critical { SetDir(In) }` (R183). -/
def releaseLine (s : State) : State := (critical (fun t => ((), setDirIn t)) s).2

/-- `Critical { DriveLow() }` (R183). -/
def pullLine (s : State) : State := (critical (fun t => ((), driveLow t)) s).2

/-- The clock runs on to the deadline of a wait that began at `t0`: by fairness every bounded wait ends (R345, D8). -/
def runToDeadline (t0 budget : Stamp) (s : State) : State :=
  s.setBus s.bus (s.time + (budget - (s.stamp - t0)).toNat)

/-- The wait loop of the handshake and of the slot wait: sample the line until it has the level `want` (true), or until
a sample that has not is followed by `elapsed(t0) ≥ budget` (false) (R184, R190, 43_transport R200). `fuel` counts the
samples that can still use up draws; past them the line stays released for good and the deadline comes. -/
def waitLoop (want : Bool) (t0 budget : Stamp) : Nat → State → Bool × State
  | 0, s => (false, runToDeadline t0 budget s)
  | fuel + 1, s =>
    let r := sampleLine s
    if r.1 = want then (true, r.2)
    else
      let n := now r.2
      if expired n.1 t0 budget then (false, n.2) else waitLoop want t0 budget fuel n.2

/-- The wait loop with fuel for every draw there is. -/
def waitLine (want : Bool) (t0 budget : Stamp) (s : State) : Bool × State :=
  waitLoop want t0 budget (s.bus.length + 1) s

/-! ### Free values (log 11) -/

/-- Draw a free bit. -/
def drawBit (s : State) : Bool × State := (Config.freeBit s.draws, s.setDraws (s.draws + 1))

/-- Draw a free byte. -/
def drawByte (s : State) : Byte × State := (Config.freeByte s.draws, s.setDraws (s.draws + 1))

/-! ### Slots, identifiers and nodes (20_memory R80) -/

/-- SLOT[i]; NONE for an index that names no register. -/
def State.slotAt (s : State) (i : Nat) : Option Handle := (s.slots[i]?).join

/-- `{ s < N_MAX | x[SLOT][s] ≠ NONE }` in ascending order (00_scope R14). -/
def State.occupied (s : State) : List Nat :=
  (List.range s.cfg.nMax).filter fun i => (s.slotAt i).isSome

/-- The lowest slot that holds `h` (46_slot_table R281, R282; unique by 10_state R37 (a)). -/
def State.slotOf (s : State) (h : Handle) : Option Nat :=
  (List.range s.cfg.nMax).find? fun i => s.slotAt i == some h

/-- The lowest free slot (R281). -/
def State.freeSlot (s : State) : Option Nat :=
  (List.range s.cfg.nMax).find? fun i => (s.slotAt i).isNone

/-- `IdByte(d, k)` (00_scope R12): byte k of the identifier of the device object that handle `d` refers to. A handle
without a device object, and NONE, give a free byte (log 4). -/
def idByte (devices : List (Handle × Ident)) (d : Option Handle) (k : Nat) : Byte :=
  match d.bind fun h => devices.lookup h with
  | some id => identByte id k
  | none => Config.freeIdByte d k

/-- `IdBit(x[SLOT][i], p)` (R12). -/
def State.slotBit (s : State) (i p : Nat) : Bool := bitOf (idByte s.devices (s.slotAt i)) p

/-- TREE[n]; an index past the arena reads as EMPTY. -/
def State.nodeAt (s : State) (n : Byte) : Node := (s.tree[n.toNat]?).getD Node.empty

/-! ### Buffer memory (20_memory R85) -/

/-- The canonical form: addresses strictly rising. -/
abbrev Memory.wf (m : Memory) : Prop := m.Pairwise fun a b => a.1 < b.1

/-- `MemRead(a, 1)`; `none` outside every buffer. -/
def Memory.read (m : Memory) (a : Nat) : Option Byte := m.lookup a

/-- `MemRead(a + j, 1)` for j < n, or the first address outside every buffer. -/
def Memory.readRange (m : Memory) : Nat → Nat → Except Nat (List Byte)
  | _, 0 => .ok []
  | a, n + 1 =>
    match m.read a with
    | none => .error a
    | some b => (m.readRange (a + 1) n).map (b :: ·)

/-- `MemWrite(a, 1, v)` to a byte of a buffer; an address outside every buffer is left alone (the callers refuse it). -/
def Memory.write (m : Memory) (a : Nat) (v : Byte) : Memory :=
  m.map fun c => if c.1 = a then (a, v) else c

/-! ### Results, transitions, the abort -/

/-- `pc <- S` (00_scope R12). -/
def goto (st : Fsm) (s : State) : State := record (.goto st) (s.setFsm st)

/-- POLL's return (45_dispatcher R254). Inside RUN the result is discarded (R264). -/
def returnPoll (oc : PollOutcome) (reinit : Bool) (s : State) : State :=
  if s.running then s else s.ret (.byte (pollByte oc reinit))

/-- The end of a transaction: `pc <- Idle`, then POLL returns (R250, R309). -/
def finishPoll (oc : PollOutcome) (reinit : Bool) (s : State) : State :=
  returnPoll oc reinit (goto .idle s)

/-- `raise Abort(code)` (60_exceptions R305), the core's one exception: ERR takes the code, the line is released,
host interrupts are unmasked, FSM is Idle, POLL returns ABORTED. -/
def raiseAbort (code : ErrKind) (reinit : Bool) (s : State) : State :=
  let s1 := s.setErr (if writesErr s.cfg code then code else s.err)
  finishPoll .aborted reinit ((releaseLine s1).setMask false)

/-- The outcome of an internal procedure: it returns a value, or it raises an abort. -/
inductive Proc (α : Type) where
  | done (a : α) (s : State)
  | abort (code : ErrKind) (s : State)

/-- Go on with what a procedure returned; an abort passes through. -/
def Proc.andThen {α β : Type} (p : Proc α) (f : α → State → Proc β) : Proc β :=
  match p with
  | .done a s => f a s
  | .abort code s => .abort code s

end Sys2Proof.Machine
end

