-- ==== Sys2Proof/Machine/Crc.lean ====
section
/-! DEFINITION. The CRC engine and identifier construction (40_crc): pure functions of their operands and of buffer
memory (R140). -/

namespace Sys2Proof.Machine

/-- One bit of CRC8: mix, shift, XOR with 0x8C (R141). The pair is (crc, b). -/
def crc8Bit (c : Byte × Byte) : Byte × Byte :=
  let mix := (c.1 ^^^ c.2) &&& 0x01
  let crc := c.1 >>> 1
  (if mix = 1 then crc ^^^ 0x8C else crc, c.2 >>> 1)

/-- `n` bits of CRC8. -/
def crc8Bits : Nat → Byte × Byte → Byte × Byte
  | 0, c => c
  | n + 1, c => crc8Bits n (crc8Bit c)

/-- One byte of CRC8: eight bits, LSB first (R141). -/
def crc8Byte (crc b : Byte) : Byte := (crc8Bits 8 (crc, b)).1

/-- CRC8 over a byte sequence, seed 0 (R141). -/
def crc8 (bytes : List Byte) : Byte := bytes.foldl crc8Byte 0

/-- ODDPARITY, the 16-entry odd-parity table (R143; the table is the spec's from general knowledge, 93 G3). -/
def oddParity (n : BitVec 4) : Bool :=
  [false, true, true, false, true, false, false, true,
   true, false, false, true, false, true, true, false].getD n.toNat false

/-- One byte of CRC16: the parity step, then the two folds (R143). -/
def crc16Byte (crc : Half) (b : Byte) : Half :=
  let cdata : Half := (b ^^^ crc.extractLsb' 0 8).zeroExtend 16
  let shifted := crc >>> 8
  let odd := oddParity (cdata.extractLsb' 0 4) ^^ oddParity (cdata.extractLsb' 4 4)
  let mixed := if odd then shifted ^^^ 0xC001 else shifted
  let fold6 := cdata <<< 6
  mixed ^^^ fold6 ^^^ (fold6 <<< 1)

/-- CRC16 over a byte sequence, seed 0, uncomplemented (R143). -/
def crc16 (bytes : List Byte) : Half := bytes.foldl crc16Byte 0

/-- MAKE_ID: the family code, the six serial bytes in operand order, and their CRC8 (R145). -/
def makeIdent (fam : Byte) (ser : Vector Byte 6) : Ident :=
  #v[fam, ser[0], ser[1], ser[2], ser[3], ser[4], ser[5],
     crc8 [fam, ser[0], ser[1], ser[2], ser[3], ser[4], ser[5]]]

/-- An identifier is valid when its byte 7 is the CRC8 of bytes 0 to 6 (R146). The core never tests it. -/
def identValid (id : Ident) : Bool := crc8 (id.toList.take 7) == identByte id 7

/-- CRC8 (R141). A byte outside the caller's buffer is refused (20_memory R85). -/
def execCrc8 (addr : Nat) (len : Half) (s : State) : Host.Outcome State Fault Refusal :=
  match s.mem.readRange addr len.toNat with
  | .ok bytes => .next (s.ret (.byte (crc8 bytes)))
  | .error a => .refused (.outsideBuffer a)

/-- CRC16 (R143). -/
def execCrc16 (addr : Nat) (len : Half) (s : State) : Host.Outcome State Fault Refusal :=
  match s.mem.readRange addr len.toNat with
  | .ok bytes => .next (s.ret (.crc16 (crc16 bytes)))
  | .error a => .refused (.outsideBuffer a)

/-- MAKE_ID (R145). -/
def execMakeId (fam : Byte) (ser : Vector Byte 6) (s : State) : Host.Outcome State Fault Refusal :=
  .next (s.ret (.ident (makeIdent fam ser)))

end Sys2Proof.Machine
end

