-- ==== Sys2Proof/Machine/Handshake.lean ====
section
/-! DEFINITION. The bus handshake (42_bus_handshake): reset detection and the presence pulse, run by POLL. -/

namespace Sys2Proof.Machine

/-- What ResetDetect returns (R184). -/
inductive ResetVerdict where
  | noReset
  | resetOk
  deriving DecidableEq, Repr

/-- The acceptance of a bus reset: SEL <- none and nothing else (R189). -/
def acceptReset (s : State) : Proc ResetVerdict := .done .resetOk (s.setSel noneByte)

/-- The second half of ResetDetect, from the first low sample: wait for the rising edge and classify the pulse
(R184, R186, R187, R188). -/
def measureLow (enteredHigh : Bool) (s : State) : Proc ResetVerdict :=
  let low := now s
  let rise := waitLine true low.1 s.cfg.tResetMax low.2
  if rise.1 then
    let t := now rise.2
    if t.1 - low.1 < s.cfg.tResetMin then
      if enteredHigh then .abort .veryShortReset t.2
      else if s.cfg.entryLowPolicy = .noReset then .done .noReset t.2
      else acceptReset t.2
    else acceptReset t.2
  else .abort .veryLongReset rise.2

/-- ResetDetect (R184). -/
def resetDetect (s : State) : Proc ResetVerdict :=
  let entry := sampleLine (releaseLine s)
  if entry.1 then
    let t0 := now entry.2
    let fall := waitLine false t0.1 s.cfg.tResetWait t0.2
    if fall.1 then measureLow true fall.2 else .done .noReset fall.2
  else measureLow false entry.2

/-- Presence (R190): one low pulse for all devices, then the line must return high (R191). -/
def presence (s : State) : Proc Unit :=
  let pulse := releaseLine (delay s.cfg.tPresenceLowStd (pullLine (delay s.cfg.tPresenceHighStd s)))
  let t0 := now pulse
  let rise := waitLine true t0.1 s.cfg.tPresenceHighMax t0.2
  if rise.1 then .done () rise.2 else .abort .veryLongReset rise.2

end Sys2Proof.Machine
end

