-- ==== Sys2Proof/Machine/Transport.lean ====
section
/-! DEFINITION. Bit, byte and buffer transport (43_transport): the slot wait and the six transport operations, the
same for the host, for a duty and for the core's own handlers (R211). -/

namespace Sys2Proof.Machine

/-- What WaitTimeSlot returns (R200). -/
inductive SlotWait where
  | ok
  | timeoutLow
  | timeoutHigh
  deriving DecidableEq, Repr

/-- WaitTimeSlot: wait for the line to be high, then for the falling edge that starts the slot (R200). -/
def waitTimeSlot (s : State) : SlotWait × State :=
  let t0 := now s
  let rise := waitLine true t0.1 s.cfg.tSlotLowMax t0.2
  if rise.1 then
    let t1 := now rise.2
    let fall := waitLine false t1.1 s.cfg.tSlotHighMax t1.2
    (if fall.1 then .ok else .timeoutHigh, fall.2)
  else (.timeoutLow, rise.2)

/-- ERR for a slot wait that failed (R201, R208); a successful wait writes no ERR. -/
def latchSlotError (w : SlotWait) (s : State) : State :=
  match w with
  | .ok => s
  | .timeoutLow => s.setErr .readTimeslotTimeoutLow
  | .timeoutHigh => s.setErr .readTimeslotTimeoutHigh

/-- The drive of a 0: some latency after the sample that saw the falling edge, low for T_WRITE_ZERO, then released
(R202). -/
def driveZero (s : State) : State := releaseLine (delay s.cfg.tWriteZero (pullLine s))

/-- SEND_BIT(v) as a procedure: the ok bit (R202). A 1 leaves the line floating. -/
def sendBit (v : Bool) (s : State) : Bool × State :=
  let w := waitTimeSlot s
  match w.1 with
  | .ok => (true, if v then w.2 else driveZero w.2)
  | .timeoutLow | .timeoutHigh => (false, latchSlotError w.1 w.2)

/-- RECV_BIT() as a procedure: the ok bit and the value bit, which is free after a failure (R203). -/
def recvBit (s : State) : (Bool × Bool) × State :=
  let w := waitTimeSlot s
  match w.1 with
  | .ok =>
    let r := sampleLine (delay s.cfg.tReadSample w.2)
    ((true, r.1), r.2)
  | .timeoutLow | .timeoutHigh =>
    let r := drawBit (latchSlotError w.1 w.2)
    ((false, r.1), r.2)

/-- The loop of SEND_BYTE with `n` bits to go (R204). -/
def sendBits : Nat → State → Bool × State
  | 0, s => (true, s)
  | n + 1, s =>
    let r := sendBit (s.tshift.getLsbD 0) s
    if r.1 then sendBits n (r.2.setByteRegs (r.2.tshift >>> 1) (r.2.tbit + 1))
    else (false, r.2)

/-- SEND_BYTE(b) as a procedure: the ok bit (R204). -/
def sendByte (b : Byte) (s : State) : Bool × State :=
  sendBits 8 (s.setByteRegs b 0)

/-- The loop of RECV_BYTE with `n` bits to go (R205). -/
def recvBits : Nat → State → Bool × State
  | 0, s => (true, s)
  | n + 1, s =>
    let r := recvBit s
    if r.1.1 then
      recvBits n (r.2.setByteRegs (assembleBit r.2.tshift r.2.tbit r.1.2) (r.2.tbit + 1))
    else (false, r.2)

/-- RECV_BYTE() as a procedure: the ok bit and the byte, which is free after a failure (R205). -/
def recvByte (s : State) : (Bool × Byte) × State :=
  let r := recvBits 8 (s.setByteRegs 0 0)
  if r.1 then ((true, r.2.tshift), r.2)
  else
    let d := drawByte r.2
    ((false, d.1), d.2)

/-- The loop of SEND_BUF with `n` bytes to go after `j` (R206): the count of bytes sent, or the address that lies
outside the caller's buffer. -/
def sendBytes (addr : Nat) : Nat → Nat → State → Except Nat (Nat × State)
  | 0, j, s => .ok (j, s)
  | n + 1, j, s =>
    match s.mem.read (addr + j) with
    | none => .error (addr + j)
    | some b =>
      let r := sendByte b s
      if r.1 then sendBytes addr n (j + 1) r.2 else .ok (j, r.2)

/-- The byte of RECV_BUF whose reception failed: written with a free byte or left unchanged, by a free choice (R207).
An address outside the buffer is left unchanged. -/
def smearByte (a : Nat) (s : State) : State :=
  let write := drawBit s
  let value := drawByte write.2
  if write.1 then value.2.setMem (value.2.mem.write a value.1) else value.2

/-- The loop of RECV_BUF with `n` bytes to go after `j` (R207). -/
def recvBytes (addr : Nat) : Nat → Nat → State → Except Nat (Nat × State)
  | 0, j, s => .ok (j, s)
  | n + 1, j, s =>
    let r := recvByte s
    if r.1.1 then
      match r.2.mem.read (addr + j) with
      | none => .error (addr + j)
      | some _ => recvBytes addr n (j + 1) (r.2.setMem (r.2.mem.write (addr + j) r.1.2))
    else .ok (j, smearByte (addr + j) r.2)

/-- SEND_BIT (R202). -/
def execSendBit (v : Bool) (s : State) : Host.Outcome State Fault Refusal :=
  .next ((sendBit v s).2.ret (.ok (sendBit v s).1))

/-- RECV_BIT (R203). -/
def execRecvBit (s : State) : Host.Outcome State Fault Refusal :=
  .next ((recvBit s).2.ret (.okBit (recvBit s).1.1 (recvBit s).1.2))

/-- SEND_BYTE (R204). -/
def execSendByte (b : Byte) (s : State) : Host.Outcome State Fault Refusal :=
  .next ((sendByte b s).2.ret (.ok (sendByte b s).1))

/-- RECV_BYTE (R205). -/
def execRecvByte (s : State) : Host.Outcome State Fault Refusal :=
  .next ((recvByte s).2.ret (.okByte (recvByte s).1.1 (recvByte s).1.2))

/-- SEND_BUF (R206). -/
def execSendBuf (addr : Nat) (len : Half) (s : State) : Host.Outcome State Fault Refusal :=
  match sendBytes addr len.toNat 0 s with
  | .ok r => .next (r.2.ret (.count (BitVec.ofNat 16 r.1)))
  | .error a => .refused (.outsideBuffer a)

/-- RECV_BUF (R207). -/
def execRecvBuf (addr : Nat) (len : Half) (s : State) : Host.Outcome State Fault Refusal :=
  match recvBytes addr len.toNat 0 s with
  | .ok r => .next (r.2.ret (.count (BitVec.ofNat 16 r.1)))
  | .error a => .refused (.outsideBuffer a)

end Sys2Proof.Machine
end

