-- ==== Sys2Proof/Machine/Search.lean ====
section
/-! DEFINITION. The search engine (44_search): the walk down the decision tree behind SEARCH_ROM. -/

namespace Sys2Proof.Machine

/-- The walk's registers at the root (R231). -/
def walkStart (s : State) : State :=
  s.setWalk 0 0 (s.nodeAt 0).rep (s.nodeAt 0).pos

/-- The representative's identifier bit at the current position (R233). -/
def walkBit (s : State) : Bool := s.slotBit s.wrep.toNat s.wpos.toNat

/-- The two bits the walk sends at the current position: (0, 0) at a divergence point (R232), (v, ¬v) where the active
devices agree on v (R233). -/
def walkPair (s : State) : Bool × Bool :=
  if s.wpos = s.wtrig then (false, false) else (walkBit s, !walkBit s)

/-- The step from a divergence node to its child `c`, and on to the next position; NO_CHILD, which cannot occur, fixes
the representative (R231, R237). -/
def walkDescend (c : Byte) (s : State) : State :=
  if c = noChild then s.setWalk (s.wpos + 1) s.wnode s.wrep 0xFF
  else s.setWalk (s.wpos + 1) c (s.nodeAt c).rep (s.nodeAt c).pos

/-- The walk's registers after the master's direction bit d; `none` is a mismatch (R231 to R234). -/
def walkTake (d : Bool) (s : State) : Option State :=
  if s.wpos = s.wtrig then
    some (walkDescend (if d then (s.nodeAt s.wnode).one else (s.nodeAt s.wnode).zero) s)
  else if d = walkBit s then some (s.setWalk (s.wpos + 1) s.wnode s.wrep s.wtrig)
  else none

/-- One step of the walk: send the pair, receive the direction bit, move (R231). A transport failure at any of the three
slots aborts at once with the code in ERR (R235), a mismatch with SearchMismatch (R234). -/
def walkStep (s : State) : Proc Unit :=
  let a := sendBit (walkPair s).1 s
  if a.1 then
    let c := sendBit (walkPair s).2 a.2
    if c.1 then
      let d := recvBit c.2
      if d.1.1 then
        match walkTake d.1.2 d.2 with
        | some t => .done () t
        | none => .abort .searchMismatch d.2
      else .abort d.2.err d.2
    else .abort c.2.err c.2
  else .abort a.2.err a.2

/-- `n` steps of the walk. -/
def walkSteps : Nat → State → Proc Unit
  | 0, s => .done () s
  | n + 1, s => (walkStep s).andThen fun _ t => walkSteps n t

/-- SearchWalk: 64 steps from the root, then SEL <- WREP (R231, R236). -/
def searchWalk (s : State) : Proc Unit :=
  (walkSteps 64 (walkStart s)).andThen fun _ t => .done () (t.setSel t.wrep)

end Sys2Proof.Machine
end

