-- ==== Sys2Proof/Machine/Tree.lean ====
section
/-! DEFINITION. The decision tree builder (41_decision_tree): an internal procedure that ATTACH and DETACH_* run. -/

namespace Sys2Proof.Machine

/-- The node arena with its bump index: TREE and TREE_NEXT while a build runs (R163). -/
structure Arena where
  nodes : List Node
  next : Byte
  deriving DecidableEq, Repr

/-- `x[TREE][n] <- node`. -/
def Arena.put (a : Arena) (n : Byte) (node : Node) : Arena := { a with nodes := a.nodes.set n.toNat node }

/-- `min(S)` of a non-empty ascending set of slot indices (00_scope R11, R14). -/
def minSlot (slots : List Nat) : Byte := BitVec.ofNat 8 (slots.headD 0)

/-- The slots of `slots` whose identifier has bit p equal to v: zero_group and one_group (R163). -/
def group (bit : Nat → Nat → Bool) (p : Nat) (v : Bool) (slots : List Nat) : List Nat :=
  slots.filter fun i => bit i p == v

/-- BuildSub(p, S) with `left` = 64 − p positions to go (R163). `bit i p` is bit p of the identifier in slot i.
It returns the index of the subtree's node and the arena. -/
def buildSub (bit : Nat → Nat → Bool) : Nat → List Nat → Arena → Byte × Arena
  | 0, slots, a => (a.next, { a.put a.next (Node.leaf (minSlot slots)) with next := a.next + 1 })
  | left + 1, slots, a =>
    let p := 63 - left
    let zeros := group bit p false slots
    let ones := group bit p true slots
    if zeros ≠ [] ∧ ones ≠ [] then
      let n := a.next
      let one := buildSub bit left ones { a with next := n + 1 }
      let zero := buildSub bit left zeros one.2
      (n, zero.2.put n ⟨BitVec.ofNat 8 p, minSlot slots, zero.1, one.1⟩)
    else buildSub bit left slots a

/-- The cleared arena of `size` entries (R162). -/
def Arena.clear (size : Nat) : Arena := ⟨List.replicate size Node.empty, 0⟩

/-- The whole build as a function of the occupied slots and their identifier bits: TREE_ROOT and the arena
(R162, R169). -/
def buildTree (size : Nat) (slots : List Nat) (bit : Nat → Nat → Bool) : Byte × Arena :=
  match slots with
  | [] => (noChild, Arena.clear size)
  | _ :: _ => buildSub bit 64 slots (Arena.clear size)

/-- Build() (R162). It writes TREE, TREE_ROOT and TREE_NEXT (R160). -/
def build (s : State) : State :=
  let t := buildTree s.cfg.treeSize s.occupied s.slotBit
  s.setTree t.1 t.2.nodes t.2.next

end Sys2Proof.Machine
end

