-- ==== Sys2Proof/Machine/SlotTable.lean ====
section
/-! DEFINITION. The device slot table and host inspection (46_slot_table): ATTACH, DETACH_DEV, DETACH_SLOT and the
GET operations. -/

namespace Sys2Proof.Machine

/-- An operation that is refused while a transaction is in progress (R288, 60_exceptions R313). -/
def whenIdle (s : State) (next : State) : Host.Outcome State Fault Refusal :=
  if s.fsm = .idle then .next next else .refused .duringTransaction

/-- The effect of ATTACH (R281). -/
def attachBody (h : Handle) (s : State) : State :=
  match s.slotOf h with
  | some i => s.ret (.byte (BitVec.ofNat 8 i))
  | none =>
    match s.freeSlot with
    | none => s.ret (.byte noneByte)
    | some i =>
      (build ((s.setSlot i (some h)).setCount (s.count + 1))).ret (.byte (BitVec.ofNat 8 i))

/-- Emptying slot i, which holds a device: the steps DETACH_DEV and DETACH_SLOT share (R282, R283). -/
def emptySlot (i : Nat) (s : State) : State :=
  build (((s.setSlot i none).setCount (s.count - 1)).setSel
    (if s.sel = BitVec.ofNat 8 i then noneByte else s.sel))

/-- The effect of DETACH_DEV (R282). -/
def detachDevBody (h : Handle) (s : State) : State :=
  match s.slotOf h with
  | none => s.ret (.byte detachNotFound)
  | some i => (emptySlot i s).ret (.byte detachOk)

/-- The effect of DETACH_SLOT (R283). -/
def detachSlotBody (i : Byte) (s : State) : State :=
  if s.cfg.nMax ≤ i.toNat ∨ s.slotAt i.toNat = none then s.ret (.byte detachNotFound)
  else (emptySlot i.toNat s).ret (.byte detachOk)

/-- ATTACH (R281). -/
def execAttach (h : Handle) (s : State) : Host.Outcome State Fault Refusal := whenIdle s (attachBody h s)

/-- DETACH_DEV (R282). -/
def execDetachDev (h : Handle) (s : State) : Host.Outcome State Fault Refusal := whenIdle s (detachDevBody h s)

/-- DETACH_SLOT (R283). -/
def execDetachSlot (i : Byte) (s : State) : Host.Outcome State Fault Refusal :=
  whenIdle s (detachSlotBody i s)

/-- GET_ERROR (R284). -/
def execGetError (s : State) : Host.Outcome State Fault Refusal := .next (s.ret (.byte s.err.code))

/-- GET_SELECTED (R285). -/
def execGetSelected (s : State) : Host.Outcome State Fault Refusal := .next (s.ret (.byte s.sel))

/-- GET_COUNT (R286). -/
def execGetCount (s : State) : Host.Outcome State Fault Refusal := .next (s.ret (.byte s.count))

/-- GET_SLOT (R287). An index past the table names no register and is refused. -/
def execGetSlot (i : Byte) (s : State) : Host.Outcome State Fault Refusal :=
  if i.toNat < s.cfg.nMax then .next (s.ret (.slot (s.slotAt i.toNat))) else .refused (.noSuchSlot i)

end Sys2Proof.Machine
end

