-- ==== Sys2Proof/Machine/Hub.lean ====
section
/-! DEFINITION. The command dispatcher (45_dispatcher): POLL, RUN, the ROM command handlers and the duty's return.
POLL runs R251 up to its `case cmd of`: it leaves FSM = CommandReceive with the command byte in TSHIFT, and the ROM
command is the next instruction, which delivers POLL's result (DEDUCED, log 16). -/

namespace Sys2Proof.Machine

/-- The command byte of CommandReceive; a failed reception aborts with the transport's code (R255, R256). -/
def receiveCommand (s : State) : Proc Unit :=
  let r := recvByte (goto .commandReceive s)
  if r.1.1 then .done () r.2 else .abort r.2.err r.2

/-- Reset detection, and after an accepted reset the presence pulse and the command byte (R251). -/
def openTransaction (s : State) : Proc ResetVerdict :=
  (resetDetect (goto .resetWait s)).andThen fun v t =>
    match v with
    | .noReset => .done .noReset t
    | .resetOk =>
      (presence (goto .presence t)).andThen fun _ t1 =>
        (receiveCommand t1).andThen fun _ t2 => .done .resetOk t2

/-- The effect of POLL (R251): clear ERR; with no devices return NO_DEVICES (R252); with no reset return NO_RESET
(R253); with a command byte stay in CommandReceive for its handler. -/
def pollBody (s : State) : State :=
  let s0 := s.setErr .noError
  if s.count = 0 then returnPoll .noDevices false s0
  else
    match openTransaction s0 with
    | .done .noReset t => finishPoll .noReset false t
    | .done .resetOk t => t
    | .abort code t => raiseAbort code false t

/-- POLL (R251), refused unless FSM = Idle (46_slot_table R288). -/
def execPoll (s : State) : Host.Outcome State Fault Refusal := whenIdle s (pollBody s)

/-- RUN (R264): from now on the host is inside RUN, and every poll of its loop is one step. -/
def execRun (s : State) : Host.Outcome State Fault Refusal := whenIdle s (pollBody (s.setRunning true))

/-- SEARCH_ROM (R257). REINIT is reported whether the walk completes or aborts (R265). -/
def execSearchRom (s : State) : Host.Outcome State Fault Refusal :=
  match searchWalk (goto .search s) with
  | .done _ t => .next (finishPoll .searchDone true t)
  | .abort code t => .next (raiseAbort code true t)

/-- MADDR after a failure in address byte k: bytes k to 7 are free (R258, 93 row 13). -/
def smearMaddr (k : Nat) (s : State) : State :=
  (s.setMaddr (Vector.ofFn fun j => if j.val < k then s.maddr[j] else Config.freeByte (s.draws + j.val))).setDraws
    (s.draws + 8)

/-- Receive the Match ROM address from byte k on, with `n` bytes to go (R258). -/
def receiveAddress : Nat → Nat → State → Proc Unit
  | 0, _, s => .done () s
  | n + 1, k, s =>
    let r := recvByte s
    if r.1.1 then receiveAddress n (k + 1) (r.2.setMaddr (r.2.maddr.setIfInBounds k r.1.2))
    else .abort r.2.err (smearMaddr k r.2)

/-- Whether slot i holds a device whose eight identifier bytes equal MADDR (R258). -/
def State.matchesAddress (s : State) (i : Nat) : Bool :=
  (s.slotAt i).isSome &&
    (List.range 8).all fun k => idByte s.devices (s.slotAt i) k == (s.maddr[k]?).getD 0

/-- The lowest slot that matches the received address (R258, D14). -/
def State.matchedSlot (s : State) : Option Nat := (List.range s.cfg.nMax).find? s.matchesAddress

/-- MATCH_ROM up to the duty (R258): a match selects the slot and gives control to its device's duty. -/
def execMatchRom (s : State) : Host.Outcome State Fault Refusal :=
  match receiveAddress 8 0 (goto .matchRom s) with
  | .abort code t => .next (raiseAbort code false t)
  | .done _ t =>
    match t.matchedSlot with
    | none => .next (raiseAbort .noAddressMatch false t)
    | some i => .next (goto .duty (t.setSel (BitVec.ofNat 8 i)))

/-- SKIP_ROM (R259). -/
def execSkipRom (s : State) : Host.Outcome State Fault Refusal :=
  .next (finishPoll .skipped false ((goto .skipRom s).setSel noneByte))

/-- READ_ROM (R260): no response. -/
def execReadRom (s : State) : Host.Outcome State Fault Refusal :=
  .next (finishPoll .unrecognized false (goto .readRom s))

/-- READ_ROM_LEGACY (R261): as READ_ROM. -/
def execReadRomLegacy (s : State) : Host.Outcome State Fault Refusal :=
  .next (finishPoll .unrecognized false (goto .readRom s))

/-- UNRECOGNIZED (R263): no response, and no error, whatever the command byte. -/
def execUnrecognized (_cmd : Byte) (s : State) : Host.Outcome State Fault Refusal :=
  .next (finishPoll .unrecognized false (goto .unrecognized s))

/-- The return of a duty ends the transaction: MATCHED if ERR = 0, ABORTED if the duty left ERR ≠ 0 (R262 (d)). -/
def dutyReturn (s : State) : State :=
  finishPoll (if s.err = .noError then .matched else .aborted) false s

end Sys2Proof.Machine
end

