-- ==== Sys2Proof/Machine/Dispatch.lean ====
section
/-! DEFINITION. One arm for each instruction (spec/opcode_table.json), each a call of its meaning. -/

namespace Sys2Proof.Machine

def exec (i : Instr) (s : State) : Host.Outcome State Fault Refusal :=
  match i with
  | .searchRom => Sys2Proof.Machine.execSearchRom s
  | .matchRom => Sys2Proof.Machine.execMatchRom s
  | .skipRom => Sys2Proof.Machine.execSkipRom s
  | .readRom => Sys2Proof.Machine.execReadRom s
  | .readRomLegacy => Sys2Proof.Machine.execReadRomLegacy s
  | .unrecognized cmd => Sys2Proof.Machine.execUnrecognized cmd s
  | .attach h => Sys2Proof.Machine.execAttach h s
  | .detachDev h => Sys2Proof.Machine.execDetachDev h s
  | .detachSlot j => Sys2Proof.Machine.execDetachSlot j s
  | .poll => Sys2Proof.Machine.execPoll s
  | .run => Sys2Proof.Machine.execRun s
  | .getError => Sys2Proof.Machine.execGetError s
  | .getSelected => Sys2Proof.Machine.execGetSelected s
  | .getCount => Sys2Proof.Machine.execGetCount s
  | .getSlot j => Sys2Proof.Machine.execGetSlot j s
  | .sendBit v => Sys2Proof.Machine.execSendBit v s
  | .recvBit => Sys2Proof.Machine.execRecvBit s
  | .sendByte b => Sys2Proof.Machine.execSendByte b s
  | .recvByte => Sys2Proof.Machine.execRecvByte s
  | .sendBuf addr len => Sys2Proof.Machine.execSendBuf addr len s
  | .recvBuf addr len => Sys2Proof.Machine.execRecvBuf addr len s
  | .crc8 addr len => Sys2Proof.Machine.execCrc8 addr len s
  | .crc16 addr len => Sys2Proof.Machine.execCrc16 addr len s
  | .makeId fam ser => Sys2Proof.Machine.execMakeId fam ser s

end Sys2Proof.Machine
end

