-- ==== Sys2Proof/Machine/Fetch.lean ====
section
/-! DEFINITION. Which instruction the core runs next. FSM stands in for a program counter (10_state R33): in Idle
the next request comes from the host program, in CommandReceive the received command byte is the next instruction, in
Duty the next call comes from the matched device's duty (00_scope R16, R17). -/

namespace Sys2Proof.Machine

/-- What a fetch finds. -/
inductive Fetched where
  /-- Idle, and the host has no request: the core does nothing (60_exceptions R319, 70_reset R331). -/
  | waiting
  /-- An instruction, and the state once it is taken from its stream. -/
  | instr (i : Instr) (s : State)
  /-- The duty returns (45_dispatcher R262 (d)). -/
  | dutyReturns (s : State)
  /-- A request that spells no operation (30_encoding R119). -/
  | undecodable (e : DecodeError)
  /-- The duty makes no further call and does not return (70_reset R346). -/
  | dutyStuck
  /-- FSM is in a state the core holds only inside an operation. -/
  | midOperation (st : Fsm)

/-- A request taken from the host or from a duty. -/
def fetchRequest (request : List Nat) (s : State) : Fetched :=
  match decode .host request with
  | .ok i => .instr i s
  | .error e => .undecodable e

/-- The acts the running duty has still to make: those of the device in the selected slot (R258, R262). -/
def State.dutyActs (s : State) : List DutyAct :=
  ((s.slotAt s.sel.toNat).bind fun h => s.duties.lookup h).getD []

/-- The running duty has made its next act. -/
def popDuty (s : State) : State :=
  s.setDuties (s.duties.map fun d => if s.slotAt s.sel.toNat = some d.1 then (d.1, d.2.tail) else d)

/-- The fetch. Inside RUN the next operation is always RUN's own next poll (R264). -/
def fetch (s : State) : Fetched :=
  match s.fsm with
  | .idle =>
    if s.running then .instr .run s
    else
      match s.host with
      | [] => .waiting
      | request :: rest => fetchRequest request (s.setHost rest)
  | .commandReceive => .instr (decodeRom s.tshift) s
  | .duty =>
    match s.dutyActs with
    | [] => .dutyStuck
    | .ret :: _ => .dutyReturns (popDuty s)
    | .call request :: _ => fetchRequest request (popDuty s)
  | .resetWait => .midOperation .resetWait
  | .presence => .midOperation .presence
  | .search => .midOperation .search
  | .matchRom => .midOperation .matchRom
  | .skipRom => .midOperation .skipRom
  | .readRom => .midOperation .readRom
  | .unrecognized => .midOperation .unrecognized

/-- Place the fields of an instruction where the next step fetches them. -/
def placeFields (fields : Stream × List Nat) (s : State) : State :=
  match fields with
  | (.host, request) => ((s.setFsm .idle).setRunning false).setHost (request :: s.host)
  | (.bus, bytes) => (s.setFsm .commandReceive).setByteRegs (BitVec.ofNat 8 (bytes.headD 0)) 8

end Sys2Proof.Machine
end

