-- ==== Sys2Proof/Machine/Step.lean ====
section
/-! DEFINITION. One step of the machine: fetch, then run (00_scope R16). -/

namespace Sys2Proof.Machine

/-- One step. -/
def step (s : State) : Host.Outcome State Fault Refusal :=
  match fetch s with
  | .waiting => .next s
  | .instr i t => exec i t
  | .dutyReturns t => .next (dutyReturn t)
  | .undecodable e => .refused (.undecodable e)
  | .dutyStuck => .fault .dutyNeverReturns
  | .midOperation st => .fault (.midOperation st)

/-- `s` with a word of the opcode table placed where the next step fetches its instruction (log 14, log 17). -/
def State.withFetchWord (s : State) (nbits w : Nat) : State := placeFields (tableFields nbits w) s

end Sys2Proof.Machine
end

