-- ==== Sys2Proof/Machine/Environment.lean ====
section
/-! DEFINITION. What the outside world does to a core apart from issuing operations: construction and the power cycle
(70_reset R330, R333), device objects (R335, R340) and buffers (20_memory R85). None of these is an instruction. -/

namespace Sys2Proof.Machine

/-- Construct(hal, params): refused for parameters that break 00_scope R8 or 42_bus_handshake R193 (R330). -/
def construct (c : Config) : Host.Outcome State Fault Refusal :=
  if c.Valid then .next (State.init c) else .refused .badParameters

/-- After power is restored the core is constructed anew with an empty table (R333). The host's objects, its buffers,
the clock and the other agents' inputs are outside the core and stay. -/
def powerCycle (s : State) : State :=
  { State.init s.cfg with
    mem := s.mem, devices := s.devices, duties := s.duties, host := s.host, bus := s.bus, time := s.time
    trace := s.trace, draws := s.draws }

/-- The host creates the device object `h` with an identifier, or would change it: refused while `h` is attached
(R334 step 3, R340). -/
def putDevice (h : Handle) (id : Ident) (s : State) : Host.Outcome State Fault Refusal :=
  if (s.slotOf h).isSome then .refused (.deviceAttached h)
  else .next { s with devices := (h, id) :: s.devices.filter fun d => d.1 != h }

/-- The host destroys the device object `h`: refused while `h` is attached (R335). -/
def destroyDevice (h : Handle) (s : State) : Host.Outcome State Fault Refusal :=
  if (s.slotOf h).isSome then .refused (.deviceAttached h)
  else .next { s with
    devices := s.devices.filter fun d => d.1 != h
    duties := s.duties.filter fun d => d.1 != h }

/-- A buffer byte provided by the host: the list stays strictly rising (R85). -/
def Memory.provide (a : Nat) (v : Byte) : Memory → Memory
  | [] => [(a, v)]
  | c :: m => if a < c.1 then (a, v) :: c :: m else if a = c.1 then (a, v) :: m else c :: provide a v m

end Sys2Proof.Machine
end

