-- ==== Sys2Proof/Safety.lean ====
section
/-! DEFINITION. What holds of the core between two operations, in the terms claims use: the invariants the spec states,
and which bus scripts serve the core's time slots and pulses. -/

namespace Sys2Proof.Machine

/-- No handle is in two slots (10_state R37 (a)). -/
def State.SlotsDistinct (s : State) : Prop :=
  ∀ i j h, s.slotAt i = some h → s.slotAt j = some h → i = j

/-- The tree is exactly the build of the current slot table (20_memory R96). -/
def State.TreeCurrent (s : State) : Prop :=
  (s.treeRoot, Arena.mk s.tree s.treeNext) = buildTree s.cfg.treeSize s.occupied s.slotBit

/-- Every recorded line access was made with host interrupts masked (42_bus_handshake R183). -/
def State.AccessesMasked (s : State) : Prop :=
  ∀ t m a, Event.line t m a ∈ s.trace → m = true

/-- Slot `i` names an attached device. -/
def State.Occupied (s : State) (i : Nat) : Prop := (s.slotAt i).isSome = true

/-- What holds between two operations, at every instruction boundary. -/
structure State.Inv (s : State) : Prop where
  /-- The parameters are those of a core that construction accepts (R330). -/
  cfgValid : s.cfg.Valid
  /-- SLOT has N_MAX entries (R37). -/
  slotsLength : s.slots.length = s.cfg.nMax
  /-- R37 (a). -/
  slotsDistinct : s.SlotsDistinct
  /-- COUNT is the number of occupied slots (R36). -/
  countOccupied : s.count.toNat = s.occupied.length
  /-- R96. -/
  treeCurrent : s.TreeCurrent
  /-- SEL never names an empty slot (R35, D19). -/
  selOccupied : s.sel = noneByte ∨ s.Occupied s.sel.toNat
  /-- The line is released, and OUT is never 1 (R42, 42_bus_handshake R182). -/
  released : s.line = ⟨false, false⟩
  /-- IMASK is 0 at the end of every operation (R43). -/
  unmasked : s.imask = false
  /-- Between operations FSM is Idle, CommandReceive with a whole command byte received, or Duty (R250). -/
  boundary : s.fsm = .idle ∨ (s.fsm = .commandReceive ∧ s.tbit = 8) ∨ s.fsm = .duty
  /-- A transaction runs only with a device attached (45_dispatcher R252, 44_search R230). -/
  busyHasDevice : s.fsm ≠ .idle → s.count ≠ 0
  /-- A command arrives with no selection (R189, R230). -/
  commandUnselected : s.fsm = .commandReceive → s.sel = noneByte
  /-- A running duty is that of the selected device (R258). -/
  dutySelected : s.fsm = .duty → s.Occupied s.sel.toNat
  /-- Buffer memory is canonical. -/
  memWf : s.mem.wf
  /-- R183. -/
  accessesMasked : s.AccessesMasked

/-! ### What the core does on the line -/

/-- The line access an event records, if it records one. -/
def Event.access? : Event → Option Access
  | .line _ _ a => some a
  | .goto _ => none

/-- The line accesses recorded so far, oldest first. -/
def State.accesses (s : State) : List Access := s.trace.reverse.filterMap Event.access?

/-! ### FSM (45_dispatcher R250) -/

/-- The transition an event records, if it records one. -/
def Event.goto? : Event → Option Fsm
  | .line _ _ _ => none
  | .goto st => some st

/-- The transitions recorded so far, oldest first. -/
def State.gotos (s : State) : List Fsm := s.trace.reverse.filterMap Event.goto?

/-- The pairs of states in R250's table. The loop at Duty is no transition. -/
def Fsm.mayGoTo : Fsm → Fsm → Bool
  | .idle, .resetWait => true
  | .resetWait, .idle | .resetWait, .presence => true
  | .presence, .idle | .presence, .commandReceive => true
  | .commandReceive, .search | .commandReceive, .matchRom | .commandReceive, .skipRom
  | .commandReceive, .readRom | .commandReceive, .unrecognized | .commandReceive, .idle => true
  | .search, .idle | .skipRom, .idle | .readRom, .idle | .unrecognized, .idle => true
  | .matchRom, .duty | .matchRom, .idle => true
  | .duty, .idle => true
  | _, _ => false

/-- `sts` are transitions of R250's table, one after the other, that lead from `a` to `b`. -/
def Fsm.Path (a : Fsm) (sts : List Fsm) (b : Fsm) : Prop :=
  List.IsChain (fun x y => x.mayGoTo y = true) (a :: sts) ∧ (a :: sts).getLast? = some b

/-- What the result register holds once POLL has returned `b`: inside RUN the result is discarded (R254, R264). -/
def State.pollResult (s : State) (b : Byte) : Option Result := if s.running then s.result else some (.byte b)

/-! ### The decision tree -/

/-- The representative of the leaf to which the bits `bits` lead from node n, in at most `fuel` nodes: at a divergence
node `one` is followed for a 1 and `zero` for a 0 (41_decision_tree R171). -/
def leadsTo (nodes : List Node) (bits : Nat → Bool) : Nat → Byte → Option Byte
  | 0, _ => none
  | fuel + 1, n =>
    match nodes[n.toNat]? with
    | none => none
    | some node =>
      if node.pos = leafPos then some node.rep
      else leadsTo nodes bits fuel (if bits node.pos.toNat then node.one else node.zero)

/-- The identifiers of the attached devices, as bit strings, each once: their number is K' of R165. -/
def State.distinctIdents (s : State) : List (List Bool) :=
  (s.occupied.map fun i => (List.range 64).map (s.slotBit i)).dedup

/-- `j` is the lowest of the slots in `slots`. -/
def LowestOf (slots : List Nat) (j : Nat) : Prop := j ∈ slots ∧ ∀ i ∈ slots, j ≤ i

/-! ### Bus scripts

Every call of the core that lets time pass takes one draw (42_bus_handshake R181), so what the line does is a list of
draws. The predicates below say which lists are served time slots, reset pulses and presence pulses, and which accesses
the core makes in them. Times, and levels that no sample reads, are arbitrary; a wait may take any number of samples. -/

/-- A line that stays at level `v`: one sample and one clock read after another, as a wait takes them. -/
def held (v : Bool) (ps : List (Nat × Draw)) : List Draw := ps.flatMap fun p => [⟨p.1, v⟩, p.2]

/-- The accesses of those samples. -/
def samples (v : Bool) (ps : List (Nat × Draw)) : List Access := ps.map fun _ => .sample v

/-- How long those samples and clock reads take. -/
def heldTime (ps : List (Nat × Draw)) : Nat := (ps.map fun p => p.1 + p.2.dt).sum

/-- None of those clock reads, made `t` and more after the wait began, finds the budget elapsed (00_scope R13). -/
def Within (budget : Stamp) : Nat → List (Nat × Draw) → Prop
  | _, [] => True
  | t, p :: ps => BitVec.ofNat 32 (t + p.1 + p.2.dt) < budget ∧ Within budget (t + p.1 + p.2.dt) ps

/-- A slot wait that ends with a slot: the line is high, at once or after low samples, and then falls, both within their
budgets (43_transport R200). -/
def SlotStart (c : Config) (script : List Draw) (as : List Access) : Prop :=
  ∃ n lows high m highs fall,
    script = n :: (held false lows ++ ⟨high, true⟩ :: m :: (held true highs ++ [⟨fall, false⟩])) ∧
    Within c.tSlotLowMax 0 lows ∧ Within c.tSlotHighMax 0 highs ∧
    as = samples false lows ++ [.sample true] ++ samples true highs ++ [.sample false]

/-- A slot in which the core sends `v`: for a 0, with some latency, it drives the line low and releases it, for a 1 it
does nothing (R202). -/
def SendSlot (c : Config) (v : Bool) (script : List Draw) (as : List Access) : Prop :=
  ∃ start waits, SlotStart c start waits ∧
    if v then script = start ∧ as = waits
    else ∃ drive low up : Draw, script = start ++ [drive, low, up] ∧ as = waits ++ [.driveLow, .release]

/-- A slot in which the line has the level `v` when the core samples it (R203, R209). -/
def RecvSlot (c : Config) (v : Bool) (script : List Draw) (as : List Access) : Prop :=
  ∃ start waits settle read, SlotStart c start waits ∧ script = start ++ [settle, ⟨read, v⟩] ∧
    as = waits ++ [.sample v]

/-- Slots of one kind for the bits `vs`, one after the other. -/
def Slots (slot : Bool → List Draw → List Access → Prop) : List Bool → List Draw → List Access → Prop
  | [], script, as => script = [] ∧ as = []
  | v :: vs, script, as => ∃ d1 a1 d2 a2, slot v d1 a1 ∧ Slots slot vs d2 a2 ∧ script = d1 ++ d2 ∧ as = a1 ++ a2

/-- The bits of a byte sequence in slot order: byte 0 first, LSB first (20_memory R84). -/
def bytesBits (bytes : List Byte) : List Bool := bytes.flatMap byteBits

/-- A line on which the next slot wait times out, leaving `e` in ERR: low, or high with no falling edge, for as long as
that half of the wait lasts (R200, R201). -/
def StuckTail (c : Config) (tail : List Draw) (e : ErrKind) : Prop :=
  (∃ n ps rest, tail = n :: (held false ps ++ rest) ∧ ps ≠ [] ∧
    c.tSlotLowMax ≤ BitVec.ofNat 32 (heldTime ps) ∧ e = .readTimeslotTimeoutLow) ∨
  (∃ n lows high m ps rest, tail = n :: (held false lows ++ ⟨high, true⟩ :: m :: (held true ps ++ rest)) ∧
    Within c.tSlotLowMax 0 lows ∧ ps ≠ [] ∧
    c.tSlotHighMax ≤ BitVec.ofNat 32 (heldTime ps) ∧ e = .readTimeslotTimeoutHigh)

/-- Accesses that only sample the line. -/
def OnlySamples (as : List Access) : Prop := ∀ a ∈ as, ∃ level, a = .sample level

/-- What ResetDetect sees from its first clock read in a low pulse on, where the pulse ends within T_RESET_MAX: `width` is
how long the pulse lasted by the core's measure (42_bus_handshake R184). -/
def PulseEnd (c : Config) (width : Stamp) (script : List Draw) : Prop :=
  ∃ low lows rise done, script = low :: (held false lows ++ [⟨rise, true⟩, done]) ∧ Within c.tResetMax 0 lows ∧
    width = BitVec.ofNat 32 (heldTime lows + rise + done.dt)

/-- What ResetDetect sees from there on where the pulse does not end within T_RESET_MAX (R186). -/
def PulseHeld (c : Config) (script : List Draw) : Prop :=
  ∃ low ps rest, script = low :: (held false ps ++ rest) ∧ ps ≠ [] ∧ c.tResetMax ≤ BitVec.ofNat 32 (heldTime ps)

/-- A low pulse on a line that is high at entry and falls within T_RESET_WAIT; `pulse` is what comes after the first low
sample (R184). -/
def FromHigh (c : Config) (pulse script : List Draw) : Prop :=
  ∃ up entry n highs fall, script = up :: ⟨entry, true⟩ :: n :: (held true highs ++ ⟨fall, false⟩ :: pulse) ∧
    Within c.tResetWait 0 highs

/-- A low pulse that has begun before entry. -/
def FromLow (pulse script : List Draw) : Prop := ∃ up entry, script = up :: ⟨entry, false⟩ :: pulse

/-- The two ways a reset pulse is accepted: from an idle-high line with at least T_RESET_MIN, or low at entry and long
enough or taken for a reset by ENTRY_LOW_POLICY (R187, R188). -/
def AcceptedReset (c : Config) (script : List Draw) : Prop :=
  ∃ width pulse, PulseEnd c width pulse ∧
    ((FromHigh c pulse script ∧ c.tResetMin ≤ width) ∨
     (FromLow pulse script ∧ (c.tResetMin ≤ width ∨ c.entryLowPolicy = .acceptAsReset)))

/-- A presence pulse after which the line is high within T_PRESENCE_HIGH_MAX (R190). -/
def PresenceSlot (c : Config) (script : List Draw) (as : List Access) : Prop :=
  ∃ gap drive pulse up n lows high, script = gap :: drive :: pulse :: up :: n :: (held false lows ++ [⟨high, true⟩]) ∧
    Within c.tPresenceHighMax 0 lows ∧ as = [.driveLow, .release] ++ samples false lows ++ [.sample true]

/-- The three slots of a search step that sends `pair` and is answered `d` (30_encoding R113). -/
def TripletSlots (c : Config) (pair : Bool × Bool) (d : Bool) (script : List Draw) (as : List Access) : Prop :=
  ∃ d1 a1 d2 a2 d3 a3, SendSlot c pair.1 d1 a1 ∧ SendSlot c pair.2 d2 a2 ∧ RecvSlot c d d3 a3 ∧
    script = d1 ++ (d2 ++ d3) ∧ as = a1 ++ (a2 ++ a3)

/-! ### Searches (44_search) -/

/-- The walk's registers after the answers `ds` from `s` on; `none` after a mismatch (44_search R231). -/
def walkFollow (ds : Nat → Bool) : Nat → State → Option State
  | 0, s => some s
  | n + 1, s => (walkTake (ds s.wpos.toNat) s).bind (walkFollow ds n)

/-- The attached devices that are still in the search at position p: those whose bits 0 to p−1 are the master's
answers (44_search R238). -/
def State.activeAt (s : State) (ds : Nat → Bool) (p : Nat) : List Nat :=
  s.occupied.filter fun i => (List.range p).all fun q => s.slotBit i q == ds q

/-- What a set of real devices puts on the wired-AND line at position p: each device its bit, then the complement
(R238, 42_bus_handshake R181). -/
def State.wiredPair (s : State) (slots : List Nat) (p : Nat) : Bool × Bool :=
  (slots.all fun i => s.slotBit i p, slots.all fun i => !s.slotBit i p)

/-- The slots of `n` search steps from position p on in which the line carries what the attached devices would put on it
as real devices, answered `ds q` at position q. -/
def State.SearchSlots (s : State) (ds : Nat → Bool) : Nat → Nat → List Draw → List Access → Prop
  | 0, _, script, as => script = [] ∧ as = []
  | n + 1, p, script, as => ∃ d1 a1 d2 a2,
    TripletSlots s.cfg (s.wiredPair (s.activeAt ds p) p) (ds p) d1 a1 ∧ s.SearchSlots ds n (p + 1) d2 a2 ∧
    script = d1 ++ d2 ∧ as = a1 ++ a2

end Sys2Proof.Machine
end

