-- ==== Sys2Proof/Certificates/Slice0/Obligations.lean ====
section
/-! DEFINITION. The statements for the provers. Every statement is about all states of the core that meet its hypotheses,
with every parameter of 00_scope R8 arbitrary. -/

open Sys2Proof Sys2Proof.Machine

/-! ### Encoding (30_encoding) -/

/-- R110, R114, R117, R118: every operand of every instruction survives its encoding. -/
def Obligations.DecodeInvertsEncode : Prop :=
  ∀ i : Instr, i.wellFormed = true → decode i.stream (encode i) = .ok i

/-- R114, R117, R118: what decodes is the encoding of the instruction it decodes to, on the stream of that
instruction. -/
def Obligations.EncodingsAreUnique : Prop :=
  ∀ (st : Stream) (fs : List Nat) (i : Instr), decode st fs = .ok i →
    i.stream = st ∧ i.wellFormed = true ∧ encode i = fs

/-- R114. -/
def Obligations.RomDecodeIsExact : Prop :=
  decodeRom 0xF0 = .searchRom ∧ decodeRom 0x55 = .matchRom ∧ decodeRom 0xCC = .skipRom ∧
  decodeRom 0x33 = .readRom ∧ decodeRom 0x0F = .readRomLegacy ∧
  ∀ cmd : Byte, cmd ≠ 0xF0 → cmd ≠ 0x55 → cmd ≠ 0xCC → cmd ≠ 0x33 → cmd ≠ 0x0F →
    decodeRom cmd = .unrecognized cmd

/-- R119: from the host in Idle and from a duty alike. -/
def Obligations.ReservedOpsAreRefused : Prop :=
  ∀ (s : State) (op : Nat) (args : List Nat),
    op = 0x00 ∨ (0x0A ≤ op ∧ op ≤ 0x0F) ∨ (0x16 ≤ op ∧ op ≤ 0x1F) ∨ (0x23 ≤ op ∧ op ≤ 0xFF) →
    (s.fsm = .idle ∧ s.running = false ∧ ∃ rest, s.host = (op :: args) :: rest) ∨
      (s.fsm = .duty ∧ ∃ rest, s.dutyActs = .call (op :: args) :: rest) →
    step s = .refused (.undecodable (.reservedOp op))

/-- Words written out from the encodings of R114, R117 and R118, one or more of each family. -/
def Obligations.SpecWordsDecode : Prop :=
  decode .bus [0b11110000] = .ok .searchRom ∧
  decode .bus [0b01010101] = .ok .matchRom ∧
  decode .bus [0b10100101] = .ok (.unrecognized 0xA5) ∧
  decode .host [0x01, 7] = .ok (.attach 7) ∧
  decode .host [0x03, 5] = .ok (.detachSlot 5) ∧
  decode .host [0x04] = .ok .poll ∧
  decode .host [0x09, 1] = .ok (.getSlot 1) ∧
  decode .host [0x10, 1] = .ok (.sendBit true) ∧
  decode .host [0x12, 0x3C] = .ok (.sendByte 0x3C) ∧
  decode .host [0x15, 0x1234, 2] = .ok (.recvBuf 0x1234 2) ∧
  decode .host [0x20, 0x40, 7] = .ok (.crc8 0x40 7) ∧
  decode .host [0x22, 0x28, 1, 2, 3, 4, 5, 6] = .ok (.makeId 0x28 #v[1, 2, 3, 4, 5, 6])

/-! ### The step (00_scope R16, R17) -/

/-- A step runs the instruction that the stream in turn spells: the host's next request in Idle, RUN's next poll inside
RUN, the received command byte in CommandReceive, the duty's next call or its return in Duty (R16, R17, R251, R262,
R264). A host without a request leaves the core waiting (R331); a duty that does neither leaves it stuck (R346). -/
def Obligations.StepRunsTheDecodedInstruction : Prop :=
  (∀ (s : State) (request : List Nat) (rest : List (List Nat)) (i : Instr),
    s.fsm = .idle → s.running = false → s.host = request :: rest → decode .host request = .ok i →
    step s = exec i (s.setHost rest)) ∧
  (∀ s : State, s.fsm = .idle → s.running = false → s.host = [] → step s = .next s) ∧
  (∀ s : State, s.fsm = .idle → s.running = true → step s = exec .run s) ∧
  (∀ (s : State) (i : Instr), s.fsm = .commandReceive → decode .bus [s.tshift.toNat] = .ok i → step s = exec i s) ∧
  (∀ (s : State) (request : List Nat) (rest : List DutyAct) (i : Instr),
    s.fsm = .duty → s.dutyActs = .call request :: rest → decode .host request = .ok i →
    step s = exec i (popDuty s) ∧ (popDuty s).dutyActs = rest) ∧
  (∀ (s : State) (rest : List DutyAct), s.fsm = .duty → s.dutyActs = .ret :: rest →
    step s = .next (dutyReturn (popDuty s)) ∧ (popDuty s).dutyActs = rest) ∧
  (∀ s : State, s.fsm = .duty → s.dutyActs = [] → step s = .fault .dutyNeverReturns)

/-! ### Construction, power, devices (70_reset_and_hazards) -/

/-- R330, R331, but for the registers the spec gives no value (log 1). -/
def Obligations.ConstructionGivesTheResetState : Prop :=
  ∀ c : Config, (¬c.Valid → construct c = .refused .badParameters) ∧
    (c.Valid → ∃ t, construct c = .next t ∧ t.cfg = c ∧ t.err = .noError ∧ t.sel = 0xFF ∧ t.count = 0 ∧
      t.fsm = .idle ∧ t.treeRoot = 0xFF ∧ t.treeNext = 0 ∧ t.tree.length = 2 * c.nMax - 1 ∧
      (∀ n ∈ t.tree, n.word = 0xFFFFFFFF) ∧ t.slots.length = c.nMax ∧ (∀ h ∈ t.slots, h = none) ∧
      t.imask = false ∧ t.line = ⟨false, false⟩ ∧ Access.driveLow ∉ t.accesses ∧ t.TreeCurrent)

/-- R333: the table is empty and every register is as after construction. -/
def Obligations.PowerCycleEmptiesTheTable : Prop :=
  ∀ s t : State, construct s.cfg = .next t →
    (∀ i, (powerCycle s).slotAt i = none) ∧ (powerCycle s).slots = t.slots ∧ (powerCycle s).count = 0 ∧
    (powerCycle s).err = t.err ∧ (powerCycle s).sel = t.sel ∧ (powerCycle s).fsm = t.fsm ∧
    (powerCycle s).treeRoot = t.treeRoot ∧ (powerCycle s).treeNext = t.treeNext ∧ (powerCycle s).tree = t.tree ∧
    (powerCycle s).line = t.line ∧ (powerCycle s).imask = t.imask ∧ (powerCycle s).running = false

/-- R335, R340, R82: an attached device is neither destroyed nor changed, and what the host does to another device changes
nothing but the list of device objects and, with a destroyed one, of duties, in which the attached devices keep their
identifiers and their duties' acts. That the host's doings are operations beside the instructions is the model's choice
(log 19). -/
def Obligations.AttachedDevicesAreFixed : Prop :=
  (∀ (s : State) (h : Handle) (i : Nat) (id : Ident), i < s.cfg.nMax → s.slotAt i = some h →
    putDevice h id s = .refused (.deviceAttached h) ∧ destroyDevice h s = .refused (.deviceAttached h)) ∧
  (∀ (s t : State) (h : Handle) (id : Ident), s.Inv → (putDevice h id s = .next t ∨ destroyDevice h s = .next t) →
    t.Inv ∧ t = { s with devices := t.devices, duties := t.duties } ∧
    ∀ i g, s.slotAt i = some g → t.duties.lookup g = s.duties.lookup g ∧
      ∀ k, idByte t.devices (some g) k = idByte s.devices (some g) k)

/-! ### Invariants -/

/-- The invariant holds right after construction, whatever the parameters, and so at reset (R330). -/
def Obligations.ConstructionSatisfiesInv : Prop :=
  (∀ c : Config, c.Valid → (State.init c).Inv) ∧ State.reset.Inv

/-- Every step keeps the invariant: R35, R36, R37, R42, R43, R96, R182, R183, R189, R230, R252 at every instruction
boundary. -/
def Obligations.StepKeepsInv : Prop :=
  ∀ s t : State, s.Inv → step s = .next t → t.Inv

/-! ### POLL and RUN (45_dispatcher) -/

/-- R252: the whole next state. -/
def Obligations.PollWithoutDevices : Prop :=
  ∀ s : State, s.fsm = .idle → s.count = 0 →
    exec .poll s = .next { s with err := .noError, result := s.pollResult 0x00 }

/-- R185: a line that is high at entry and stays high for T_RESET_WAIT, or for good, which is the model's reading of a
script that has run out (log 7). -/
def Obligations.QuietLineGivesNoReset : Prop :=
  ∀ s : State, s.fsm = .idle → s.count ≠ 0 →
    ((∀ d ∈ s.bus, d.level = true) ∨
      ∃ up entry now0 ps rest, s.bus = up :: ⟨entry, true⟩ :: now0 :: (held true ps ++ rest) ∧ ps ≠ [] ∧
        s.cfg.tResetWait ≤ BitVec.ofNat 32 (heldTime ps)) →
    ∃ t as, exec .poll s = .next t ∧ t.result = s.pollResult 0x01 ∧ t.err = .noError ∧ t.sel = s.sel ∧
      t.fsm = .idle ∧ t.accesses = s.accesses ++ as ∧ (∀ a ∈ as, a = .release ∨ a = .sample true) ∧
      t = { s with err := .noError, line := ⟨false, s.line.out⟩, imask := false, bus := t.bus, time := t.time,
                   trace := t.trace, result := t.result }

/-- R186, R187, R188, R189, R253. A pulse counts from the first clock read after it was first seen low (R184). -/
def Obligations.ResetPulsesAreClassified : Prop :=
  ∀ (s : State) (pulse script rest : List Draw) (width : Stamp), s.fsm = .idle → s.count ≠ 0 →
    s.bus = script ++ rest →
    (FromHigh s.cfg pulse script → PulseEnd s.cfg width pulse → width < s.cfg.tResetMin →
      ∃ t, exec .poll s = .next t ∧ t.result = s.pollResult 0x02 ∧ t.err = .veryShortReset ∧ t.sel = s.sel ∧
        t.fsm = .idle) ∧
    (FromLow pulse script → PulseEnd s.cfg width pulse → width < s.cfg.tResetMin → s.cfg.entryLowPolicy = .noReset →
      ∃ t, exec .poll s = .next t ∧ t.result = s.pollResult 0x01 ∧ t.err = .noError ∧ t.sel = s.sel ∧
        t.fsm = .idle) ∧
    (FromHigh s.cfg pulse script ∨ FromLow pulse script → PulseHeld s.cfg pulse →
      ∃ t, exec .poll s = .next t ∧ t.result = s.pollResult 0x02 ∧ t.err = .veryLongReset ∧ t.sel = s.sel ∧
        t.fsm = .idle) ∧
    (AcceptedReset s.cfg script →
      ∃ t, resetDetect s = .done .resetOk t ∧
        t = { s with sel := 0xFF, line := ⟨false, s.line.out⟩, imask := false, bus := rest, time := t.time,
                     trace := t.trace })

/-- R190, R251, R255: reset, presence pulse, command byte. The presence pulse is one low drive of at least
T_PRESENCE_LOW_STD, at least T_PRESENCE_HIGH_STD after the rising edge that ended the reset. The command byte is then the
next instruction (log 16). Where a slot of the command byte does not come, POLL aborts there with the transport's code,
having sampled no more than that slot wait, and keeps the SEL = 0xFF of the bus reset (R189, R305, D40). -/
def Obligations.PollReceivesACommand : Prop :=
  (∀ (s : State) (cmd : Byte) (reset presence command rest : List Draw) (pulse bits : List Access), s.fsm = .idle →
    s.count ≠ 0 → AcceptedReset s.cfg reset → PresenceSlot s.cfg presence pulse →
    Slots (RecvSlot s.cfg) (byteBits cmd) command bits →
    s.bus = reset ++ presence ++ command ++ rest →
    ∃ t as, exec .poll s = .next t ∧ t.fsm = .commandReceive ∧ t.tshift = cmd ∧ t.tbit = 8 ∧ t.err = .noError ∧
      t.sel = 0xFF ∧ t.bus = rest ∧
      t.accesses = s.accesses ++ [.release] ++ as ++ pulse ++ bits ∧ OnlySamples as ∧
      (∃ before after rise b e, t.trace = after ++ .line e true .release :: .line b true .driveLow ::
          .goto .presence :: .line rise true (.sample true) :: (before ++ s.trace) ∧
        rise + s.cfg.tPresenceHighStd.toNat ≤ b ∧ b + s.cfg.tPresenceLowStd.toNat ≤ e) ∧
      t = { s with err := .noError, sel := 0xFF, fsm := .commandReceive, tshift := cmd, tbit := 8,
                   line := ⟨false, false⟩, imask := false, bus := rest, time := t.time, trace := t.trace }) ∧
  (∀ (s : State) (vs : List Bool) (e : ErrKind) (reset presence command tail : List Draw) (pulse bits : List Access),
    s.fsm = .idle → s.count ≠ 0 → AcceptedReset s.cfg reset → PresenceSlot s.cfg presence pulse → vs.length < 8 →
    Slots (RecvSlot s.cfg) vs command bits → StuckTail s.cfg tail e →
    s.bus = reset ++ presence ++ command ++ tail →
    ∃ t as waits, exec .poll s = .next t ∧ t.result = s.pollResult 0x02 ∧ t.err = e ∧ t.sel = 0xFF ∧ t.fsm = .idle ∧
      t.accesses = s.accesses ++ [.release] ++ as ++ pulse ++ bits ++ waits ++ [.release] ∧ OnlySamples as ∧
      OnlySamples waits)

/-- R191. -/
def Obligations.PresenceHeldLowAborts : Prop :=
  ∀ (s : State) (reset : List Draw) (gap drive pulse up now0 : Draw) (ps : List (Nat × Draw)) (rest : List Draw),
    s.fsm = .idle → s.count ≠ 0 → AcceptedReset s.cfg reset →
    s.bus = reset ++ gap :: drive :: pulse :: up :: now0 :: (held false ps ++ rest) → ps ≠ [] →
    s.cfg.tPresenceHighMax ≤ BitVec.ofNat 32 (heldTime ps) →
    ∃ t, exec .poll s = .next t ∧ t.result = s.pollResult 0x02 ∧ t.err = .veryLongReset ∧ t.sel = 0xFF ∧
      t.fsm = .idle

/-- R187, R189, R251, R253, R254, R255, R300, R305, D40: all the ways a POLL with a device attached can end, on any line, and its
frame; CommandReceive is an end of this step (log 16). -/
def Obligations.PollOutcomes : Prop :=
  ∀ s : State, s.fsm = .idle → s.count ≠ 0 →
    ∃ t, exec .poll s = .next t ∧
      ((t.fsm = .idle ∧ t.result = s.pollResult 0x01 ∧ t.err = .noError ∧ t.sel = s.sel) ∨
       (t.fsm = .commandReceive ∧ t.result = s.result ∧ t.err = .noError ∧ t.sel = 0xFF ∧ t.tbit = 8) ∨
       (t.fsm = .idle ∧ t.result = s.pollResult 0x02 ∧
        ((t.err = .veryShortReset ∧ t.sel = s.sel) ∨
         (t.err = .veryLongReset ∧ (t.sel = s.sel ∨ t.sel = 0xFF)) ∨
         ((t.err = .readTimeslotTimeoutLow ∨ t.err = .readTimeslotTimeoutHigh) ∧ t.sel = 0xFF)))) ∧
      t = { s with err := t.err, sel := t.sel, fsm := t.fsm, tshift := t.tshift, tbit := t.tbit, line := t.line,
                   imask := t.imask, bus := t.bus, time := t.time, trace := t.trace, draws := t.draws,
                   result := t.result }

/-- R264, in the model's form: the flag `running`, each poll a step (log 16), its result discarded (log 9). -/
def Obligations.RunPollsForever : Prop :=
  (∀ s : State, s.fsm = .idle → ∃ t, exec .run s = .next t ∧ exec .poll { s with running := true } = .next t ∧
    t.running = true ∧ t.result = s.result ∧ (s.count = 0 → t.accesses = s.accesses)) ∧
  (∀ s : State, s.running = true → s.fsm = .idle → step s = exec .run s) ∧
  (∀ s t : State, s.running = true → step s = .next t → t.running = true ∧ t.host = s.host) ∧
  (∀ s : State, s.fsm ≠ .idle → exec .run s = .refused .duringTransaction)

/-- R288, R262 (a) and (b): what is refused while FSM ≠ Idle, and that nothing else is refused for that reason. -/
def Obligations.RefusedDuringATransaction : Prop :=
  ∀ (s : State) (h : Handle) (j : Byte), s.fsm ≠ .idle →
    exec .poll s = .refused .duringTransaction ∧ exec .run s = .refused .duringTransaction ∧
    exec (.attach h) s = .refused .duringTransaction ∧ exec (.detachDev h) s = .refused .duringTransaction ∧
    exec (.detachSlot j) s = .refused .duringTransaction ∧
    ∀ i : Instr, i ≠ .poll → i ≠ .run → (∀ g, i ≠ .attach g) → (∀ g, i ≠ .detachDev g) → (∀ k, i ≠ .detachSlot k) →
      exec i s ≠ .refused .duringTransaction

/-! ### ROM commands (45_dispatcher, 44_search) -/

/-- R259, R260, R261, R263: the whole next state of the commands without operands. -/
def Obligations.CommandsWithoutOperands : Prop :=
  ∀ (s : State) (cmd : Byte),
    exec .skipRom s = .next { s with
      sel := 0xFF, fsm := .idle, result := s.pollResult 0x05,
      trace := .goto .idle :: .goto .skipRom :: s.trace } ∧
    exec .readRom s = .next { s with
      fsm := .idle, result := s.pollResult 0x06,
      trace := .goto .idle :: .goto .readRom :: s.trace } ∧
    exec .readRomLegacy s = exec .readRom s ∧
    exec (.unrecognized cmd) s = .next { s with
      fsm := .idle, result := s.pollResult 0x06,
      trace := .goto .idle :: .goto .unrecognized :: s.trace }

/-- R236, R238, R239 (a), R240, R257: steered with the identifier of an attached device, the search completes, puts on
the line exactly what the attached devices would put there, and selects the lowest slot with that identifier. The bits at
positions 0 to 63 are those of the eight identifier bytes, byte 0 first, each LSB first (R10, R12, R84 (c), R236). -/
def Obligations.SearchFindsEveryDevice : Prop :=
  ∀ (s : State) (i : Nat) (script rest : List Draw) (as : List Access), s.cfg.Valid → s.TreeCurrent →
    i < s.cfg.nMax → s.Occupied i → s.line = ⟨false, false⟩ →
    s.SearchSlots (s.slotBit i) 64 0 script as → s.bus = script ++ rest →
    (List.range 64).map (s.slotBit i) = bytesBits ((List.range 8).map (idByte s.devices (s.slotAt i))) ∧
    ∃ t, exec .searchRom s = .next t ∧ LowestOf (s.activeAt (s.slotBit i) 64) t.sel.toNat ∧ t.err = s.err ∧
      t.fsm = .idle ∧ t.result = s.pollResult 0x83 ∧ t.bus = rest ∧
      t.accesses = s.accesses ++ as ∧ t.line = ⟨false, false⟩

/-- R234, R302, R305, R307: answered with a bit that no device still in the search has, the search aborts after that
triplet. The release of the abort takes the draw after it. -/
def Obligations.SearchMismatchAborts : Prop :=
  ∀ (s : State) (ds : Nat → Bool) (p : Nat) (script rest : List Draw) (as : List Access), s.cfg.Valid →
    s.TreeCurrent → p < 64 → s.activeAt ds p ≠ [] → s.activeAt ds (p + 1) = [] → s.line = ⟨false, false⟩ →
    s.SearchSlots ds (p + 1) 0 script as → s.bus = script ++ rest →
    ∃ t, exec .searchRom s = .next t ∧ t.sel = s.sel ∧ t.fsm = .idle ∧ t.result = s.pollResult 0x82 ∧
      t.err = (if s.cfg.codedProtocolErrors then .searchMismatch else s.err) ∧ t.bus = rest.tail ∧
      t.accesses = s.accesses ++ as ++ [.release]

/-- R234, R235, R236, R257, R265: all the ways a search can end, on any line, and its frame. -/
def Obligations.SearchOutcomes : Prop :=
  ∀ s : State, s.cfg.Valid → s.TreeCurrent → s.occupied ≠ [] →
    ∃ t, exec .searchRom s = .next t ∧ t.fsm = .idle ∧
      ((t.result = s.pollResult 0x83 ∧ t.err = s.err ∧ ∃ ds, LowestOf (s.activeAt ds 64) t.sel.toNat) ∨
       (t.result = s.pollResult 0x82 ∧ t.sel = s.sel ∧
        (t.err = .readTimeslotTimeoutLow ∨ t.err = .readTimeslotTimeoutHigh ∨
          t.err = if s.cfg.codedProtocolErrors then .searchMismatch else s.err))) ∧
      t = { s with err := t.err, sel := t.sel, fsm := t.fsm, wpos := t.wpos, wnode := t.wnode, wrep := t.wrep,
                   wtrig := t.wtrig, line := t.line, imask := t.imask, bus := t.bus, time := t.time,
                   trace := t.trace, draws := t.draws, result := t.result }

/-- R232, R233, R238: after the answers `ds` to positions 0 to p − 1 the walk stands for the devices that have those
bits: it sends their wired-AND pair, goes on exactly if one of them has the next answer, and holds their lowest slot. -/
def Obligations.WalkSendsTheWiredPair : Prop :=
  ∀ (s : State) (ds : Nat → Bool) (p : Nat), s.cfg.Valid → s.TreeCurrent → p < 64 → s.activeAt ds p ≠ [] →
    ∃ u, walkFollow ds p (walkStart s) = some u ∧ u.wpos.toNat = p ∧ LowestOf (s.activeAt ds p) u.wrep.toNat ∧
      walkPair u = s.wiredPair (s.activeAt ds p) p ∧
      (walkTake (ds p) u = none ↔ s.activeAt ds (p + 1) = [])

/-- R237: at a divergence step of a walk over the current tree both children exist; and what the dead branch would do. -/
def Obligations.NoChildIsUnreachable : Prop :=
  (∀ (s u : State) (ds : Nat → Bool) (p : Nat), s.cfg.Valid → s.TreeCurrent → s.occupied ≠ [] → p < 64 →
    walkFollow ds p (walkStart s) = some u → u.wpos = u.wtrig →
    (u.nodeAt u.wnode).zero ≠ 0xFF ∧ (u.nodeAt u.wnode).one ≠ 0xFF) ∧
  (∀ u : State, walkDescend 0xFF u = { u with wpos := u.wpos + 1, wtrig := 0xFF })

/-- R112, R258 (the duty's acts are later steps, log 16): with the address served, the lowest attached slot with that
identifier is selected and its duty begins; with none the transaction aborts and SEL stays. Where a slot of address byte k
does not come, the transaction aborts there with the transport's code (R256), the bytes before k are in MADDR, and after
the served slots the core samples no more than that slot wait. -/
def Obligations.MatchRomSelectsByAddress : Prop :=
  (∀ (s : State) (addr : Vector Byte 8) (script rest : List Draw) (as : List Access), s.line = ⟨false, false⟩ →
    Slots (RecvSlot s.cfg) (bytesBits addr.toList) script as → s.bus = script ++ rest →
    (∀ i, i < s.cfg.nMax → s.Occupied i → (∀ k (hk : k < 8), idByte s.devices (s.slotAt i) k = addr[k]) →
      (∀ j < i, s.Occupied j → ∃ k, ∃ hk : k < 8, idByte s.devices (s.slotAt j) k ≠ addr[k]) →
      ∃ t, exec .matchRom s = .next t ∧ t.sel = BitVec.ofNat 8 i ∧ t.fsm = .duty ∧ t.maddr = addr ∧ t.err = s.err ∧
        t.result = s.result ∧ t.bus = rest ∧ t.accesses = s.accesses ++ as) ∧
    ((∀ i, i < s.cfg.nMax → s.Occupied i → ∃ k, ∃ hk : k < 8, idByte s.devices (s.slotAt i) k ≠ addr[k]) →
      ∃ t, exec .matchRom s = .next t ∧ t.sel = s.sel ∧ t.fsm = .idle ∧ t.maddr = addr ∧
        t.err = (if s.cfg.codedProtocolErrors then .noAddressMatch else s.err) ∧ t.result = s.pollResult 0x02 ∧
        t.bus = rest.tail ∧ t.accesses = s.accesses ++ as ++ [.release])) ∧
  (∀ (s : State) (bytes : List Byte) (vs : List Bool) (e : ErrKind) (script tail : List Draw) (as : List Access),
    s.line = ⟨false, false⟩ → bytes.length < 8 → vs.length < 8 →
    Slots (RecvSlot s.cfg) (bytesBits bytes ++ vs) script as → StuckTail s.cfg tail e → s.bus = script ++ tail →
    ∃ t waits, exec .matchRom s = .next t ∧ t.sel = s.sel ∧ t.fsm = .idle ∧ t.err = e ∧
      t.result = s.pollResult 0x02 ∧ (∀ k < bytes.length, t.maddr[k]? = bytes[k]?) ∧
      t.accesses = s.accesses ++ as ++ waits ++ [.release] ∧ OnlySamples waits)

/-- R256, R258: all the ways MATCH_ROM can end, on any line, and its frame; Duty is an end of this step (log 16). -/
def Obligations.MatchRomOutcomes : Prop :=
  ∀ s : State, ∃ t, exec .matchRom s = .next t ∧
    ((t.fsm = .duty ∧ t.err = s.err ∧ t.result = s.result ∧ ∃ i, i < s.cfg.nMax ∧ t.sel = BitVec.ofNat 8 i ∧
        s.Occupied i ∧ ∀ k (hk : k < 8), idByte s.devices (s.slotAt i) k = t.maddr[k]) ∨
     (t.fsm = .idle ∧ t.sel = s.sel ∧ t.result = s.pollResult 0x02 ∧
        (t.err = .readTimeslotTimeoutLow ∨ t.err = .readTimeslotTimeoutHigh ∨
          t.err = if s.cfg.codedProtocolErrors then .noAddressMatch else s.err))) ∧
    t = { s with err := t.err, sel := t.sel, fsm := t.fsm, tshift := t.tshift, tbit := t.tbit, maddr := t.maddr,
                 line := t.line, imask := t.imask, bus := t.bus, time := t.time, trace := t.trace,
                 draws := t.draws, result := t.result }

/-- R262 (d), R308: the return of a duty, which is a step of its own in the model (log 16). -/
def Obligations.DutyReturnEndsTheTransaction : Prop :=
  ∀ (s : State) (rest : List DutyAct), s.fsm = .duty → s.dutyActs = .ret :: rest →
    ∃ t, step s = .next t ∧ t.fsm = .idle ∧ t.result = s.pollResult (if s.err = .noError then 0x04 else 0x02) ∧
      t = { s with fsm := .idle, result := t.result, trace := .goto .idle :: s.trace, duties := t.duties }

/-- R305: the whole effect of an abort. Any time passes before the line is released (R181); the trace is the model's own
record (log 10). -/
def Obligations.AbortEffect : Prop :=
  ∀ (s : State) (code : ErrKind) (reinit : Bool), ∃ time bus, s.time ≤ time ∧
    raiseAbort code reinit s = { s with
      err := if (code = .searchMismatch ∨ code = .noAddressMatch) ∧ s.cfg.codedProtocolErrors = false then s.err
             else code,
      line := ⟨false, s.line.out⟩, imask := false, fsm := .idle,
      result := s.pollResult (if reinit then 0x82 else 0x02),
      time := time, bus := bus, trace := .goto .idle :: .line time true .release :: s.trace }

/-! ### Transport (43_transport) -/

/-- R208: a successful operation leaves ERR alone, a failed one leaves 0x03 or 0x04. -/
def Obligations.TransportLatchesErr : Prop :=
  ∀ s : State,
    (∀ v, ∃ t ok, exec (.sendBit v) s = .next t ∧ t.result = some (.ok ok) ∧
      if ok then t.err = s.err else t.err = .readTimeslotTimeoutLow ∨ t.err = .readTimeslotTimeoutHigh) ∧
    (∃ t ok v, exec .recvBit s = .next t ∧ t.result = some (.okBit ok v) ∧
      if ok then t.err = s.err else t.err = .readTimeslotTimeoutLow ∨ t.err = .readTimeslotTimeoutHigh) ∧
    (∀ b, ∃ t ok, exec (.sendByte b) s = .next t ∧ t.result = some (.ok ok) ∧
      if ok then t.err = s.err else t.err = .readTimeslotTimeoutLow ∨ t.err = .readTimeslotTimeoutHigh) ∧
    (∃ t ok b, exec .recvByte s = .next t ∧ t.result = some (.okByte ok b) ∧
      if ok then t.err = s.err else t.err = .readTimeslotTimeoutLow ∨ t.err = .readTimeslotTimeoutHigh) ∧
    (∀ addr len t, exec (.sendBuf addr len) s = .next t ∨ exec (.recvBuf addr len) s = .next t →
      ∃ n, t.result = some (.count n) ∧ n ≤ len ∧
        if n = len then t.err = s.err else t.err = .readTimeslotTimeoutLow ∨ t.err = .readTimeslotTimeoutHigh)

/-- R202, R203, R209: the two bit operations in a slot the master starts, and the length of the low drive of a 0. -/
def Obligations.BitsInAServedSlot : Prop :=
  ∀ (s : State) (v : Bool) (script rest : List Draw) (as : List Access), s.line = ⟨false, false⟩ → s.imask = false →
    s.bus = script ++ rest →
    (SendSlot s.cfg v script as →
      ∃ t, exec (.sendBit v) s = .next t ∧ t.result = some (.ok true) ∧ t.accesses = s.accesses ++ as ∧
        (v = false → ∃ before b e, t.trace =
          .line e true .release :: .line b true .driveLow :: (before ++ s.trace) ∧ b + s.cfg.tWriteZero.toNat ≤ e) ∧
        t = { s with bus := rest, time := t.time, trace := t.trace, result := t.result }) ∧
    (RecvSlot s.cfg v script as →
      ∃ t, exec .recvBit s = .next t ∧ t.result = some (.okBit true v) ∧ t.accesses = s.accesses ++ as ∧
        t = { s with bus := rest, time := t.time, trace := t.trace, result := t.result })

/-- R200, R201, R202, R203, R209: a slot that does not come, on a line stuck for the budget of that half of the wait. -/
def Obligations.StuckLineFailsTheBit : Prop :=
  ∀ (s : State) (e : ErrKind), StuckTail s.cfg s.bus e → s.line = ⟨false, false⟩ →
    (∀ v, ∃ t as, exec (.sendBit v) s = .next t ∧ t.result = some (.ok false) ∧ t.err = e ∧
      t.accesses = s.accesses ++ as ∧ OnlySamples as) ∧
    (∃ t v as, exec .recvBit s = .next t ∧ t.result = some (.okBit false v) ∧ t.err = e ∧
      t.accesses = s.accesses ++ as ∧ OnlySamples as)

/-- R84 (a), R111, R204, R205: the eight bits of a byte, LSB first. -/
def Obligations.BytesInServedSlots : Prop :=
  ∀ (s : State) (b : Byte) (script rest : List Draw) (as : List Access), s.line = ⟨false, false⟩ →
    s.bus = script ++ rest →
    (Slots (SendSlot s.cfg) (byteBits b) script as →
      ∃ t, exec (.sendByte b) s = .next t ∧ t.result = some (.ok true) ∧ t.err = s.err ∧ t.tbit = 8 ∧
        t.bus = rest ∧ t.accesses = s.accesses ++ as) ∧
    (Slots (RecvSlot s.cfg) (byteBits b) script as →
      ∃ t, exec .recvByte s = .next t ∧ t.result = some (.okByte true b) ∧ t.err = s.err ∧ t.tshift = b ∧
        t.tbit = 8 ∧ t.bus = rest ∧ t.accesses = s.accesses ++ as)

/-- R88, R204, R205: a byte of which only m bits find their slot. -/
def Obligations.ByteFailsAtItsBit : Prop :=
  ∀ (s : State) (script tail : List Draw) (served : List Access) (e : ErrKind), s.line = ⟨false, false⟩ →
    StuckTail s.cfg tail e → s.bus = script ++ tail →
    (∀ (b : Byte) (m : Nat), m < 8 → Slots (SendSlot s.cfg) ((byteBits b).take m) script served →
      ∃ t as, exec (.sendByte b) s = .next t ∧ t.result = some (.ok false) ∧ t.err = e ∧
        t.tbit = BitVec.ofNat 8 m ∧ t.tshift = b >>> m ∧
        t.accesses = s.accesses ++ served ++ as ∧ OnlySamples as) ∧
    (∀ bits : List Bool, bits.length < 8 → Slots (RecvSlot s.cfg) bits script served →
      ∃ t v as, exec .recvByte s = .next t ∧ t.result = some (.okByte false v) ∧ t.err = e ∧
        t.accesses = s.accesses ++ served ++ as ∧ OnlySamples as)

/-- R84 (b), R85, R206: SEND_BUF served whole, or up to bit m of byte j. -/
def Obligations.SendBufSendsItsBytes : Prop :=
  ∀ (s : State) (addr : Nat) (len : Half) (bytes : List Byte) (script tail : List Draw) (served : List Access),
    s.line = ⟨false, false⟩ → bytes.length = len.toNat → (∀ j < len.toNat, s.mem.read (addr + j) = bytes[j]?) →
    s.bus = script ++ tail →
    (Slots (SendSlot s.cfg) (bytesBits bytes) script served →
      ∃ t, exec (.sendBuf addr len) s = .next t ∧ t.result = some (.count len) ∧ t.err = s.err ∧ t.bus = tail ∧
        t.accesses = s.accesses ++ served) ∧
    (∀ j m e (hj : j < bytes.length), m < 8 → StuckTail s.cfg tail e →
      Slots (SendSlot s.cfg) (bytesBits (bytes.take j) ++ (byteBits bytes[j]).take m) script served →
      ∃ t as, exec (.sendBuf addr len) s = .next t ∧ t.result = some (.count (BitVec.ofNat 16 j)) ∧ t.err = e ∧
        t.accesses = s.accesses ++ served ++ as ∧ OnlySamples as)

/-- R84 (b), R85, R207: RECV_BUF served whole, or up to bit m of byte j; the byte that failed may hold anything. -/
def Obligations.RecvBufStoresItsBytes : Prop :=
  ∀ (s : State) (addr : Nat) (len : Half) (bytes : List Byte) (script tail : List Draw) (served : List Access),
    s.line = ⟨false, false⟩ → (∀ j < len.toNat, (s.mem.read (addr + j)).isSome) → s.bus = script ++ tail →
    (bytes.length = len.toNat → Slots (RecvSlot s.cfg) (bytesBits bytes) script served →
      ∃ t, exec (.recvBuf addr len) s = .next t ∧ t.result = some (.count len) ∧ t.err = s.err ∧ t.bus = tail ∧
        (∀ a, t.mem.read a = if addr ≤ a ∧ a < addr + len.toNat then bytes[a - addr]? else s.mem.read a) ∧
        t.accesses = s.accesses ++ served) ∧
    (∀ bits e, bytes.length < len.toNat → bits.length < 8 → StuckTail s.cfg tail e →
      Slots (RecvSlot s.cfg) (bytesBits bytes ++ bits) script served →
      ∃ t, exec (.recvBuf addr len) s = .next t ∧ t.result = some (.count (BitVec.ofNat 16 bytes.length)) ∧
        t.err = e ∧
        (∀ a, a ≠ addr + bytes.length → t.mem.read a =
          if addr ≤ a ∧ a < addr + bytes.length then bytes[a - addr]? else s.mem.read a) ∧
        (t.mem.read (addr + bytes.length)).isSome)

/-- R85, R202 to R207: the frames of the transport operations, on any line. Only RECV_BUF writes memory, and only
addresses addr to addr + len − 1. -/
def Obligations.TransportFrames : Prop :=
  ∀ (s : State) (i : Instr) (t : State), exec i s = .next t →
    (i = .recvBit ∨ (∃ v, i = .sendBit v) →
      t = { s with err := t.err, line := t.line, imask := t.imask, bus := t.bus, time := t.time, trace := t.trace,
                   draws := t.draws, result := t.result }) ∧
    (i = .recvByte ∨ (∃ b, i = .sendByte b) ∨ (∃ addr len, i = .sendBuf addr len) →
      t = { s with err := t.err, tshift := t.tshift, tbit := t.tbit, line := t.line, imask := t.imask, bus := t.bus,
                   time := t.time, trace := t.trace, draws := t.draws, result := t.result }) ∧
    (∀ addr len, i = .recvBuf addr len →
      (∀ a, a < addr ∨ addr + len.toNat ≤ a → t.mem.read a = s.mem.read a) ∧
      (∀ a, (t.mem.read a).isSome = (s.mem.read a).isSome) ∧
      t = { s with err := t.err, tshift := t.tshift, tbit := t.tbit, line := t.line, imask := t.imask, mem := t.mem,
                   bus := t.bus, time := t.time, trace := t.trace, draws := t.draws, result := t.result })

/-- R85, R141, R143, R206, R207: the operations on a buffer complete if the whole range lies in it, and are refused only
at an address of the range outside it. CRC8 and CRC16 are refused at the first such address. SEND_BUF and RECV_BUF count
only bytes inside, and are refused when they come to the first address outside: SEND_BUF before it sends that byte,
RECV_BUF when it has received that byte and would store it (the moment is log 6). -/
def Obligations.BufferRangeIsChecked : Prop :=
  (∀ (s : State) (addr : Nat) (len : Half) (i : Instr),
    i = .sendBuf addr len ∨ i = .recvBuf addr len ∨ i = .crc8 addr len ∨ i = .crc16 addr len →
    ((∀ j < len.toNat, (s.mem.read (addr + j)).isSome) → ∃ t, exec i s = .next t) ∧
    (∀ r, exec i s = .refused r →
      ∃ j < len.toNat, r = .outsideBuffer (addr + j) ∧ s.mem.read (addr + j) = none) ∧
    (∀ j < len.toNat, s.mem.read (addr + j) = none → (∀ j' < j, (s.mem.read (addr + j')).isSome) →
      i = .crc8 addr len ∨ i = .crc16 addr len → exec i s = .refused (.outsideBuffer (addr + j))) ∧
    (∀ t n, i = .sendBuf addr len ∨ i = .recvBuf addr len → exec i s = .next t → t.result = some (.count n) →
      ∀ j < n.toNat, (s.mem.read (addr + j)).isSome)) ∧
  (∀ (s : State) (addr : Nat) (len : Half) (bytes : List Byte) (script rest : List Draw) (as : List Access),
    s.line = ⟨false, false⟩ → bytes.length < len.toNat → (∀ j < bytes.length, s.mem.read (addr + j) = bytes[j]?) →
    s.mem.read (addr + bytes.length) = none → Slots (SendSlot s.cfg) (bytesBits bytes) script as →
    s.bus = script ++ rest →
    exec (.sendBuf addr len) s = .refused (.outsideBuffer (addr + bytes.length))) ∧
  (∀ (s : State) (addr : Nat) (len : Half) (bytes : List Byte) (last : Byte) (script rest : List Draw)
      (as : List Access),
    s.line = ⟨false, false⟩ → bytes.length < len.toNat → (∀ j < bytes.length, (s.mem.read (addr + j)).isSome) →
    s.mem.read (addr + bytes.length) = none → Slots (RecvSlot s.cfg) (bytesBits (bytes ++ [last])) script as →
    s.bus = script ++ rest →
    exec (.recvBuf addr len) s = .refused (.outsideBuffer (addr + bytes.length)))

/-! ### CRC engine (40_crc) -/

/-- R140, R141, R143, R145, R89 (d): the whole next states. -/
def Obligations.CrcAndIdentOperations : Prop :=
  ∀ (s : State) (addr : Nat) (len : Half) (bytes : List Byte) (fam : Byte) (ser : Vector Byte 6),
    (bytes.length = len.toNat → (∀ j < len.toNat, s.mem.read (addr + j) = bytes[j]?) →
      exec (.crc8 addr len) s = .next { s with result := some (.byte (crc8 bytes)) } ∧
      exec (.crc16 addr len) s = .next { s with result := some (.crc16 (crc16 bytes)) }) ∧
    exec (.makeId fam ser) s = .next { s with result := some (.ident
      #v[fam, ser[0], ser[1], ser[2], ser[3], ser[4], ser[5],
         crc8 [fam, ser[0], ser[1], ser[2], ser[3], ser[4], ser[5]]]) }

/-- R141 (corner cases): appending the CRC gives 0, and zeros give 0. -/
def Obligations.Crc8Residue : Prop :=
  (∀ bytes : List Byte, crc8 (bytes ++ [crc8 bytes]) = 0) ∧ ∀ n, crc8 (List.replicate n 0) = 0

/-- R143 (corner cases): appending the CRC, low byte first, gives 0, and zeros give 0; the table and the constants are the
spec's from general knowledge (93 G3 to G6). -/
def Obligations.Crc16Residue : Prop :=
  (∀ bytes : List Byte, crc16 (bytes ++ [(crc16 bytes).extractLsb' 0 8, (crc16 bytes).extractLsb' 8 8]) = 0) ∧
  ∀ n, crc16 (List.replicate n 0) = 0

/-- R143, in what the spec takes from general knowledge (93 G3 to G7, log 18): CRC16 has seed 0, and goes on by one byte as
the reflected CRC-16 with polynomial 0x8005, whose reflection is 0xA001: by XOR of the byte and eight times a shift right
with XOR of 0xA001 where a 1 was shifted out. The parity-table step does the same from every value. -/
def Obligations.Crc16IsReflectedCrc : Prop :=
  (∀ (crc : Half) (b : Byte),
    crc16Byte crc b = (List.range 8).foldl (fun c _ => if c.getLsbD 0 then (c >>> 1) ^^^ 0xA001 else c >>> 1)
      (crc ^^^ b.zeroExtend 16)) ∧
  crc16 [] = 0 ∧
  ∀ (bytes : List Byte) (b : Byte),
    crc16 (bytes ++ [b]) = (List.range 8).foldl (fun c _ => if c.getLsbD 0 then (c >>> 1) ^^^ 0xA001 else c >>> 1)
      (crc16 bytes ^^^ b.zeroExtend 16)

/-- R142 (a), R146: every identifier made by MAKE_ID is valid, and its own CRC8 is 0. -/
def Obligations.MadeIdentifiersAreValid : Prop :=
  ∀ (s t : State) (fam : Byte) (ser : Vector Byte 6), exec (.makeId fam ser) s = .next t →
    ∃ id, t.result = some (.ident id) ∧ crc8 (id.toList.take 7) = identByte id 7 ∧ crc8 id.toList = 0

/-! ### The decision tree (41_decision_tree) -/

/-- R162, R164, R165, R166: K attached devices with K' distinct identifiers give K' − 1 divergence nodes and K' leaves,
the root is node 0, the arena does not overflow, and unused entries are EMPTY. -/
def Obligations.TreeNodeCounts : Prop :=
  ∀ s : State, s.cfg.Valid → s.occupied ≠ [] →
    (build s).treeRoot = 0 ∧ (build s).treeNext.toNat = 2 * s.distinctIdents.length - 1 ∧
    (build s).tree.length = s.cfg.treeSize ∧ (build s).treeNext.toNat ≤ s.cfg.treeSize ∧
    ((build s).tree.filter fun n => n.pos == 0x80).length = s.distinctIdents.length ∧
    ((build s).tree.filter fun n => decide (n.pos.toNat < 64)).length = s.distinctIdents.length - 1 ∧
    s.distinctIdents.length ≤ s.occupied.length ∧
    ∀ n, (build s).treeNext.toNat ≤ n → n < s.cfg.treeSize → (build s).tree[n]? = some ⟨0xFF, 0xFF, 0xFF, 0xFF⟩

/-- R167 (a) to (c), (f): every allocated node is a leaf without children or a divergence node whose two children exist,
come after it, and stand at later positions; every representative is an attached slot. -/
def Obligations.TreeShape : Prop :=
  ∀ (s : State) (n : Nat), s.cfg.Valid → n < (build s).treeNext.toNat →
    ∃ node, (build s).tree[n]? = some node ∧ node.rep.toNat ∈ s.occupied ∧
      ((node.pos = 0x80 ∧ node.zero = 0xFF ∧ node.one = 0xFF) ∨
       (node.pos.toNat < 64 ∧ n < node.zero.toNat ∧ n < node.one.toNat ∧
        node.zero.toNat < (build s).treeNext.toNat ∧ node.one.toNat < (build s).treeNext.toNat ∧
        ∀ c, c = node.zero ∨ c = node.one → ∃ child, (build s).tree[c.toNat]? = some child ∧
          node.pos.toNat < child.pos.toNat))

/-- R167 (d), R168, R171: an identifier leads to the leaf that names the lowest slot with that identifier. -/
def Obligations.TreeLeadsToEachIdentifier : Prop :=
  ∀ (s : State) (i : Nat), s.cfg.Valid → s.TreeCurrent → i ∈ s.occupied →
    ∃ j, leadsTo s.tree (s.slotBit i) 65 s.treeRoot = some j ∧
      LowestOf (s.occupied.filter fun h => (List.range 64).all fun p => s.slotBit h p == s.slotBit i p) j.toNat

/-- R169. -/
def Obligations.TreeIsDeterministic : Prop :=
  ∀ s t : State, t.cfg.nMax = s.cfg.nMax → t.occupied = s.occupied →
    (∀ i ∈ s.occupied, ∀ p < 64, t.slotBit i p = s.slotBit i p) →
    (build t).tree = (build s).tree ∧ (build t).treeRoot = (build s).treeRoot ∧
      (build t).treeNext = (build s).treeNext

/-- R170, and the frame of the build (R160). -/
def Obligations.SmallTrees : Prop :=
  ∀ s : State,
    (s.occupied = [] → (build s).treeRoot = 0xFF ∧ (build s).treeNext = 0 ∧
      (build s).tree = List.replicate s.cfg.treeSize ⟨0xFF, 0xFF, 0xFF, 0xFF⟩) ∧
    (∀ i, s.cfg.Valid → s.occupied = [i] → (build s).treeRoot = 0 ∧ (build s).treeNext = 1 ∧
      (build s).tree[0]? = some ⟨0x80, BitVec.ofNat 8 i, 0xFF, 0xFF⟩) ∧
    build s = { s with treeRoot := (build s).treeRoot, treeNext := (build s).treeNext, tree := (build s).tree }

/-! ### The slot table (46_slot_table) -/

/-- R281, R289, R161: ATTACH of an attached device, into a full table, and into the lowest free slot. -/
def Obligations.AttachTakesTheLowestFreeSlot : Prop :=
  ∀ (s : State) (h : Handle), s.fsm = .idle →
    (∀ i < s.cfg.nMax, s.slotAt i = some h → (∀ j < i, s.slotAt j ≠ some h) →
      exec (.attach h) s = .next { s with result := some (.byte (BitVec.ofNat 8 i)) }) ∧
    ((∀ i < s.cfg.nMax, s.slotAt i ≠ some h ∧ s.slotAt i ≠ none) →
      exec (.attach h) s = .next { s with result := some (.byte 0xFF) }) ∧
    (∀ i < s.cfg.nMax, (∀ j < s.cfg.nMax, s.slotAt j ≠ some h) → s.slotAt i = none → (∀ j < i, s.slotAt j ≠ none) →
      ∃ t, exec (.attach h) s = .next t ∧ t.TreeCurrent ∧
        t = { s with slots := s.slots.set i (some h), count := s.count + 1, treeRoot := t.treeRoot,
                     treeNext := t.treeNext, tree := t.tree, result := some (.byte (BitVec.ofNat 8 i)) })

/-- R282, R283, R289, R161: the two detaches of an occupied slot i, and their failures, which change nothing. -/
def Obligations.DetachEmptiesTheSlot : Prop :=
  ∀ s : State, s.fsm = .idle →
    (∀ (h : Handle) (i : Nat), i < s.cfg.nMax → s.cfg.nMax ≤ 127 → s.slotAt i = some h →
      (∀ j < i, s.slotAt j ≠ some h) →
      ∃ t, exec (.detachDev h) s = .next t ∧ exec (.detachSlot (BitVec.ofNat 8 i)) s = .next t ∧ t.TreeCurrent ∧
        t = { s with slots := s.slots.set i none, count := s.count - 1,
                     sel := if s.sel = BitVec.ofNat 8 i then 0xFF else s.sel, treeRoot := t.treeRoot,
                     treeNext := t.treeNext, tree := t.tree, result := some (.byte 0x00) }) ∧
    (∀ h : Handle, (∀ i < s.cfg.nMax, s.slotAt i ≠ some h) →
      exec (.detachDev h) s = .next { s with result := some (.byte 0x01) }) ∧
    (∀ i : Byte, s.cfg.nMax ≤ i.toNat ∨ s.slotAt i.toNat = none →
      exec (.detachSlot i) s = .next { s with result := some (.byte 0x01) })

/-- R284, R285, R286, R287: the whole next states, and the one refusal; the codes of ERR are those of R300. -/
def Obligations.InspectionReadsTheState : Prop :=
  (∀ (s : State) (i : Byte),
    exec .getError s = .next { s with result := some (.byte s.err.code) } ∧
    exec .getSelected s = .next { s with result := some (.byte s.sel) } ∧
    exec .getCount s = .next { s with result := some (.byte s.count) } ∧
    (i.toNat < s.cfg.nMax → exec (.getSlot i) s = .next { s with result := some (.slot (s.slotAt i.toNat)) }) ∧
    (s.cfg.nMax ≤ i.toNat → exec (.getSlot i) s = .refused (.noSuchSlot i))) ∧
  ErrKind.noError.code = 0x00 ∧ ErrKind.veryLongReset.code = 0x01 ∧ ErrKind.veryShortReset.code = 0x02 ∧
  ErrKind.readTimeslotTimeoutLow.code = 0x03 ∧ ErrKind.readTimeslotTimeoutHigh.code = 0x04 ∧
  ErrKind.searchMismatch.code = 0x05 ∧ ErrKind.noAddressMatch.code = 0x06

/-! ### Whole-machine rules -/

/-- R92, R160, R161, R240, R305: nothing but ATTACH and the detaches changes the table, COUNT or the tree, and they leave
a current tree current. -/
def Obligations.OnlyTableOperationsChangeTheTree : Prop :=
  ∀ (i : Instr) (s t : State), exec i s = .next t →
    ((∀ h, i ≠ .attach h) → (∀ h, i ≠ .detachDev h) → (∀ j, i ≠ .detachSlot j) →
      t.slots = s.slots ∧ t.count = s.count ∧ t.treeRoot = s.treeRoot ∧ t.treeNext = s.treeNext ∧ t.tree = s.tree) ∧
    (s.TreeCurrent → t.TreeCurrent)

/-- R35, R189, D40: what writes SEL, and what it writes there; no abort does. A POLL that writes it has accepted a bus
reset: in that step FSM went to Presence (R250). -/
def Obligations.WhoWritesSel : Prop :=
  (∀ (s : State) (code : ErrKind) (reinit : Bool), (raiseAbort code reinit s).sel = s.sel) ∧
  ∀ (i : Instr) (s t : State), s.cfg.Valid → exec i s = .next t → t.sel ≠ s.sel →
    ((i = .poll ∨ i = .run) ∧ t.sel = 0xFF ∧ ∃ es, t.trace = es ++ s.trace ∧ Event.goto .presence ∈ es) ∨
    (i = .skipRom ∧ t.sel = 0xFF) ∨
    (i = .matchRom ∧ t.fsm = .duty ∧ s.Occupied t.sel.toNat) ∨
    (i = .searchRom ∧ t.fsm = .idle ∧ t.result = s.pollResult 0x83 ∧ t.sel = t.wrep) ∨
    (((∃ h, i = .detachDev h) ∨ (∃ j, i = .detachSlot j)) ∧ t.sel = 0xFF ∧ t.slotAt s.sel.toNat = none)

/-- R44, R80, R82, R85, R140, R206, R207: no step changes a parameter, an identifier, or, but for RECV_BUF, a byte of a buffer. -/
def Obligations.StepLeavesTheHostsDataAlone : Prop :=
  (∀ s t : State, step s = .next t → t.cfg = s.cfg ∧ t.devices = s.devices) ∧
  ∀ (i : Instr) (s t : State), exec i s = .next t → (∀ addr len, i ≠ .recvBuf addr len) → t.mem = s.mem

/-- R43, R182, R183: an operation returns with the line released and host interrupts unmasked, on every path, and makes
every line access with host interrupts masked. -/
def Obligations.OperationsReleaseTheLine : Prop :=
  ∀ (i : Instr) (s t : State), exec i s = .next t → s.line = ⟨false, false⟩ → s.imask = false →
    t.line = ⟨false, false⟩ ∧ t.imask = false ∧
    ∃ es, t.trace = es ++ s.trace ∧ ∀ time masked a, Event.line time masked a ∈ es → masked = true

/-- R250: the transitions of a step are transitions of the table, and lead to the state FSM then holds. -/
def Obligations.FsmFollowsItsTable : Prop :=
  ∀ s t : State, s.fsm = .idle ∨ s.fsm = .commandReceive ∨ s.fsm = .duty → step s = .next t →
    ∃ sts, t.gotos = s.gotos ++ sts ∧ s.fsm.Path sts t.fsm

/-- R311, R313, R346: between operations the machine stops for no other reason than these. -/
def Obligations.StopsAreNamed : Prop :=
  ∀ s : State, s.Inv →
    (∀ f, step s = .fault f → f = .dutyNeverReturns ∧ s.fsm = .duty ∧ s.dutyActs = []) ∧
    (∀ r, step s = .refused r →
      (∃ e, r = .undecodable e) ∨ (r = .duringTransaction ∧ s.fsm = .duty) ∨
      (∃ j, r = .noSuchSlot j ∧ s.cfg.nMax ≤ j.toNat) ∨ (∃ a, r = .outsideBuffer a ∧ s.mem.read a = none))

/-- R184, R190, R200, R307, R338, R345: every wait ends, at a sample of the level it waits for or with its budget elapsed;
and a sample of that level ends it whatever the clock says. That the deadline comes once the script has run out is the
model's form of fairness (log 7). -/
def Obligations.WaitsEnd : Prop :=
  ∀ (want : Bool) (t0 budget : Stamp) (s : State),
    (if (waitLine want t0 budget s).1
     then ∃ time, (waitLine want t0 budget s).2.trace.head? = some (.line time true (.sample want))
     else budget ≤ (waitLine want t0 budget s).2.stamp - t0) ∧
    (s.line.dir = false → ∀ d rest, s.bus = d :: rest → d.level = want → (waitLine want t0 budget s).1 = true)

/-! ### Beside the statements above -/

/-- R141: CRC8 has seed 0, and goes on by one byte by XOR of the byte and eight times a shift right with XOR of 0x8C where
a 1 was shifted out, LSB first. (R141's own form mixes one bit of the byte at a time.) -/
def Obligations.Crc8IsReflectedCrc : Prop :=
  crc8 [] = 0 ∧
  ∀ (bytes : List Byte) (b : Byte),
    crc8 (bytes ++ [b]) = (List.range 8).foldl (fun c _ => if c.getLsbD 0 then (c >>> 1) ^^^ 0x8C else c >>> 1)
      (crc8 bytes ^^^ b)

/-- R235, R257, R305, R307: where the first, second or third slot of the triplet at position p does not come, the search
aborts there with the transport's code and REINIT; it has sent the bits of the pair whose slots came and sends nothing
more. -/
def Obligations.SearchAbortsAtAFailedSlot : Prop :=
  ∀ (s : State) (ds : Nat → Bool) (p m : Nat) (e : ErrKind) (script triplet tail : List Draw) (as sent : List Access),
    s.cfg.Valid → s.TreeCurrent → p < 64 → m ≤ 2 → s.activeAt ds p ≠ [] → s.line = ⟨false, false⟩ →
    s.SearchSlots ds p 0 script as →
    Slots (SendSlot s.cfg)
      ([(s.wiredPair (s.activeAt ds p) p).1, (s.wiredPair (s.activeAt ds p) p).2].take m) triplet sent →
    StuckTail s.cfg tail e → s.bus = script ++ triplet ++ tail →
    ∃ t waits, exec .searchRom s = .next t ∧ t.sel = s.sel ∧ t.fsm = .idle ∧ t.result = s.pollResult 0x82 ∧
      t.err = e ∧ t.accesses = s.accesses ++ as ++ sent ++ waits ++ [.release] ∧ OnlySamples waits
end

