-- ==== Sys2Proof/Laws/State.lean ====
section
/-! SUPPORT. One lemma for each field under each named update of the state, so that no later proof unfolds a record
update. -/

namespace Sys2Proof.Machine

/-! ### `setErr` -/

@[simp] theorem setErr_cfg (s : State) (e : ErrKind) : (s.setErr e).cfg = s.cfg := rfl
@[simp] theorem setErr_err (s : State) (e : ErrKind) : (s.setErr e).err = e := rfl
@[simp] theorem setErr_sel (s : State) (e : ErrKind) : (s.setErr e).sel = s.sel := rfl
@[simp] theorem setErr_count (s : State) (e : ErrKind) : (s.setErr e).count = s.count := rfl
@[simp] theorem setErr_fsm (s : State) (e : ErrKind) : (s.setErr e).fsm = s.fsm := rfl
@[simp] theorem setErr_treeRoot (s : State) (e : ErrKind) : (s.setErr e).treeRoot = s.treeRoot := rfl
@[simp] theorem setErr_treeNext (s : State) (e : ErrKind) : (s.setErr e).treeNext = s.treeNext := rfl
@[simp] theorem setErr_wpos (s : State) (e : ErrKind) : (s.setErr e).wpos = s.wpos := rfl
@[simp] theorem setErr_wnode (s : State) (e : ErrKind) : (s.setErr e).wnode = s.wnode := rfl
@[simp] theorem setErr_wrep (s : State) (e : ErrKind) : (s.setErr e).wrep = s.wrep := rfl
@[simp] theorem setErr_wtrig (s : State) (e : ErrKind) : (s.setErr e).wtrig = s.wtrig := rfl
@[simp] theorem setErr_tshift (s : State) (e : ErrKind) : (s.setErr e).tshift = s.tshift := rfl
@[simp] theorem setErr_tbit (s : State) (e : ErrKind) : (s.setErr e).tbit = s.tbit := rfl
@[simp] theorem setErr_line (s : State) (e : ErrKind) : (s.setErr e).line = s.line := rfl
@[simp] theorem setErr_imask (s : State) (e : ErrKind) : (s.setErr e).imask = s.imask := rfl
@[simp] theorem setErr_maddr (s : State) (e : ErrKind) : (s.setErr e).maddr = s.maddr := rfl
@[simp] theorem setErr_slots (s : State) (e : ErrKind) : (s.setErr e).slots = s.slots := rfl
@[simp] theorem setErr_tree (s : State) (e : ErrKind) : (s.setErr e).tree = s.tree := rfl
@[simp] theorem setErr_mem (s : State) (e : ErrKind) : (s.setErr e).mem = s.mem := rfl
@[simp] theorem setErr_devices (s : State) (e : ErrKind) : (s.setErr e).devices = s.devices := rfl
@[simp] theorem setErr_duties (s : State) (e : ErrKind) : (s.setErr e).duties = s.duties := rfl
@[simp] theorem setErr_host (s : State) (e : ErrKind) : (s.setErr e).host = s.host := rfl
@[simp] theorem setErr_bus (s : State) (e : ErrKind) : (s.setErr e).bus = s.bus := rfl
@[simp] theorem setErr_time (s : State) (e : ErrKind) : (s.setErr e).time = s.time := rfl
@[simp] theorem setErr_result (s : State) (e : ErrKind) : (s.setErr e).result = s.result := rfl
@[simp] theorem setErr_running (s : State) (e : ErrKind) : (s.setErr e).running = s.running := rfl
@[simp] theorem setErr_trace (s : State) (e : ErrKind) : (s.setErr e).trace = s.trace := rfl
@[simp] theorem setErr_draws (s : State) (e : ErrKind) : (s.setErr e).draws = s.draws := rfl

/-! ### `setSel` -/

@[simp] theorem setSel_cfg (s : State) (v : Byte) : (s.setSel v).cfg = s.cfg := rfl
@[simp] theorem setSel_err (s : State) (v : Byte) : (s.setSel v).err = s.err := rfl
@[simp] theorem setSel_sel (s : State) (v : Byte) : (s.setSel v).sel = v := rfl
@[simp] theorem setSel_count (s : State) (v : Byte) : (s.setSel v).count = s.count := rfl
@[simp] theorem setSel_fsm (s : State) (v : Byte) : (s.setSel v).fsm = s.fsm := rfl
@[simp] theorem setSel_treeRoot (s : State) (v : Byte) : (s.setSel v).treeRoot = s.treeRoot := rfl
@[simp] theorem setSel_treeNext (s : State) (v : Byte) : (s.setSel v).treeNext = s.treeNext := rfl
@[simp] theorem setSel_wpos (s : State) (v : Byte) : (s.setSel v).wpos = s.wpos := rfl
@[simp] theorem setSel_wnode (s : State) (v : Byte) : (s.setSel v).wnode = s.wnode := rfl
@[simp] theorem setSel_wrep (s : State) (v : Byte) : (s.setSel v).wrep = s.wrep := rfl
@[simp] theorem setSel_wtrig (s : State) (v : Byte) : (s.setSel v).wtrig = s.wtrig := rfl
@[simp] theorem setSel_tshift (s : State) (v : Byte) : (s.setSel v).tshift = s.tshift := rfl
@[simp] theorem setSel_tbit (s : State) (v : Byte) : (s.setSel v).tbit = s.tbit := rfl
@[simp] theorem setSel_line (s : State) (v : Byte) : (s.setSel v).line = s.line := rfl
@[simp] theorem setSel_imask (s : State) (v : Byte) : (s.setSel v).imask = s.imask := rfl
@[simp] theorem setSel_maddr (s : State) (v : Byte) : (s.setSel v).maddr = s.maddr := rfl
@[simp] theorem setSel_slots (s : State) (v : Byte) : (s.setSel v).slots = s.slots := rfl
@[simp] theorem setSel_tree (s : State) (v : Byte) : (s.setSel v).tree = s.tree := rfl
@[simp] theorem setSel_mem (s : State) (v : Byte) : (s.setSel v).mem = s.mem := rfl
@[simp] theorem setSel_devices (s : State) (v : Byte) : (s.setSel v).devices = s.devices := rfl
@[simp] theorem setSel_duties (s : State) (v : Byte) : (s.setSel v).duties = s.duties := rfl
@[simp] theorem setSel_host (s : State) (v : Byte) : (s.setSel v).host = s.host := rfl
@[simp] theorem setSel_bus (s : State) (v : Byte) : (s.setSel v).bus = s.bus := rfl
@[simp] theorem setSel_time (s : State) (v : Byte) : (s.setSel v).time = s.time := rfl
@[simp] theorem setSel_result (s : State) (v : Byte) : (s.setSel v).result = s.result := rfl
@[simp] theorem setSel_running (s : State) (v : Byte) : (s.setSel v).running = s.running := rfl
@[simp] theorem setSel_trace (s : State) (v : Byte) : (s.setSel v).trace = s.trace := rfl
@[simp] theorem setSel_draws (s : State) (v : Byte) : (s.setSel v).draws = s.draws := rfl

/-! ### `setCount` -/

@[simp] theorem setCount_cfg (s : State) (v : Byte) : (s.setCount v).cfg = s.cfg := rfl
@[simp] theorem setCount_err (s : State) (v : Byte) : (s.setCount v).err = s.err := rfl
@[simp] theorem setCount_sel (s : State) (v : Byte) : (s.setCount v).sel = s.sel := rfl
@[simp] theorem setCount_count (s : State) (v : Byte) : (s.setCount v).count = v := rfl
@[simp] theorem setCount_fsm (s : State) (v : Byte) : (s.setCount v).fsm = s.fsm := rfl
@[simp] theorem setCount_treeRoot (s : State) (v : Byte) : (s.setCount v).treeRoot = s.treeRoot := rfl
@[simp] theorem setCount_treeNext (s : State) (v : Byte) : (s.setCount v).treeNext = s.treeNext := rfl
@[simp] theorem setCount_wpos (s : State) (v : Byte) : (s.setCount v).wpos = s.wpos := rfl
@[simp] theorem setCount_wnode (s : State) (v : Byte) : (s.setCount v).wnode = s.wnode := rfl
@[simp] theorem setCount_wrep (s : State) (v : Byte) : (s.setCount v).wrep = s.wrep := rfl
@[simp] theorem setCount_wtrig (s : State) (v : Byte) : (s.setCount v).wtrig = s.wtrig := rfl
@[simp] theorem setCount_tshift (s : State) (v : Byte) : (s.setCount v).tshift = s.tshift := rfl
@[simp] theorem setCount_tbit (s : State) (v : Byte) : (s.setCount v).tbit = s.tbit := rfl
@[simp] theorem setCount_line (s : State) (v : Byte) : (s.setCount v).line = s.line := rfl
@[simp] theorem setCount_imask (s : State) (v : Byte) : (s.setCount v).imask = s.imask := rfl
@[simp] theorem setCount_maddr (s : State) (v : Byte) : (s.setCount v).maddr = s.maddr := rfl
@[simp] theorem setCount_slots (s : State) (v : Byte) : (s.setCount v).slots = s.slots := rfl
@[simp] theorem setCount_tree (s : State) (v : Byte) : (s.setCount v).tree = s.tree := rfl
@[simp] theorem setCount_mem (s : State) (v : Byte) : (s.setCount v).mem = s.mem := rfl
@[simp] theorem setCount_devices (s : State) (v : Byte) : (s.setCount v).devices = s.devices := rfl
@[simp] theorem setCount_duties (s : State) (v : Byte) : (s.setCount v).duties = s.duties := rfl
@[simp] theorem setCount_host (s : State) (v : Byte) : (s.setCount v).host = s.host := rfl
@[simp] theorem setCount_bus (s : State) (v : Byte) : (s.setCount v).bus = s.bus := rfl
@[simp] theorem setCount_time (s : State) (v : Byte) : (s.setCount v).time = s.time := rfl
@[simp] theorem setCount_result (s : State) (v : Byte) : (s.setCount v).result = s.result := rfl
@[simp] theorem setCount_running (s : State) (v : Byte) : (s.setCount v).running = s.running := rfl
@[simp] theorem setCount_trace (s : State) (v : Byte) : (s.setCount v).trace = s.trace := rfl
@[simp] theorem setCount_draws (s : State) (v : Byte) : (s.setCount v).draws = s.draws := rfl

/-! ### `setFsm` -/

@[simp] theorem setFsm_cfg (s : State) (st : Fsm) : (s.setFsm st).cfg = s.cfg := rfl
@[simp] theorem setFsm_err (s : State) (st : Fsm) : (s.setFsm st).err = s.err := rfl
@[simp] theorem setFsm_sel (s : State) (st : Fsm) : (s.setFsm st).sel = s.sel := rfl
@[simp] theorem setFsm_count (s : State) (st : Fsm) : (s.setFsm st).count = s.count := rfl
@[simp] theorem setFsm_fsm (s : State) (st : Fsm) : (s.setFsm st).fsm = st := rfl
@[simp] theorem setFsm_treeRoot (s : State) (st : Fsm) : (s.setFsm st).treeRoot = s.treeRoot := rfl
@[simp] theorem setFsm_treeNext (s : State) (st : Fsm) : (s.setFsm st).treeNext = s.treeNext := rfl
@[simp] theorem setFsm_wpos (s : State) (st : Fsm) : (s.setFsm st).wpos = s.wpos := rfl
@[simp] theorem setFsm_wnode (s : State) (st : Fsm) : (s.setFsm st).wnode = s.wnode := rfl
@[simp] theorem setFsm_wrep (s : State) (st : Fsm) : (s.setFsm st).wrep = s.wrep := rfl
@[simp] theorem setFsm_wtrig (s : State) (st : Fsm) : (s.setFsm st).wtrig = s.wtrig := rfl
@[simp] theorem setFsm_tshift (s : State) (st : Fsm) : (s.setFsm st).tshift = s.tshift := rfl
@[simp] theorem setFsm_tbit (s : State) (st : Fsm) : (s.setFsm st).tbit = s.tbit := rfl
@[simp] theorem setFsm_line (s : State) (st : Fsm) : (s.setFsm st).line = s.line := rfl
@[simp] theorem setFsm_imask (s : State) (st : Fsm) : (s.setFsm st).imask = s.imask := rfl
@[simp] theorem setFsm_maddr (s : State) (st : Fsm) : (s.setFsm st).maddr = s.maddr := rfl
@[simp] theorem setFsm_slots (s : State) (st : Fsm) : (s.setFsm st).slots = s.slots := rfl
@[simp] theorem setFsm_tree (s : State) (st : Fsm) : (s.setFsm st).tree = s.tree := rfl
@[simp] theorem setFsm_mem (s : State) (st : Fsm) : (s.setFsm st).mem = s.mem := rfl
@[simp] theorem setFsm_devices (s : State) (st : Fsm) : (s.setFsm st).devices = s.devices := rfl
@[simp] theorem setFsm_duties (s : State) (st : Fsm) : (s.setFsm st).duties = s.duties := rfl
@[simp] theorem setFsm_host (s : State) (st : Fsm) : (s.setFsm st).host = s.host := rfl
@[simp] theorem setFsm_bus (s : State) (st : Fsm) : (s.setFsm st).bus = s.bus := rfl
@[simp] theorem setFsm_time (s : State) (st : Fsm) : (s.setFsm st).time = s.time := rfl
@[simp] theorem setFsm_result (s : State) (st : Fsm) : (s.setFsm st).result = s.result := rfl
@[simp] theorem setFsm_running (s : State) (st : Fsm) : (s.setFsm st).running = s.running := rfl
@[simp] theorem setFsm_trace (s : State) (st : Fsm) : (s.setFsm st).trace = s.trace := rfl
@[simp] theorem setFsm_draws (s : State) (st : Fsm) : (s.setFsm st).draws = s.draws := rfl

/-! ### `setTree` -/

@[simp] theorem setTree_cfg (s : State) (r : Byte) (l : List Node) (n : Byte) : (s.setTree r l n).cfg = s.cfg := rfl
@[simp] theorem setTree_err (s : State) (r : Byte) (l : List Node) (n : Byte) : (s.setTree r l n).err = s.err := rfl
@[simp] theorem setTree_sel (s : State) (r : Byte) (l : List Node) (n : Byte) : (s.setTree r l n).sel = s.sel := rfl
@[simp] theorem setTree_count (s : State) (r : Byte) (l : List Node) (n : Byte) : (s.setTree r l n).count = s.count := rfl
@[simp] theorem setTree_fsm (s : State) (r : Byte) (l : List Node) (n : Byte) : (s.setTree r l n).fsm = s.fsm := rfl
@[simp] theorem setTree_treeRoot (s : State) (r : Byte) (l : List Node) (n : Byte) : (s.setTree r l n).treeRoot = r := rfl
@[simp] theorem setTree_treeNext (s : State) (r : Byte) (l : List Node) (n : Byte) : (s.setTree r l n).treeNext = n := rfl
@[simp] theorem setTree_wpos (s : State) (r : Byte) (l : List Node) (n : Byte) : (s.setTree r l n).wpos = s.wpos := rfl
@[simp] theorem setTree_wnode (s : State) (r : Byte) (l : List Node) (n : Byte) : (s.setTree r l n).wnode = s.wnode := rfl
@[simp] theorem setTree_wrep (s : State) (r : Byte) (l : List Node) (n : Byte) : (s.setTree r l n).wrep = s.wrep := rfl
@[simp] theorem setTree_wtrig (s : State) (r : Byte) (l : List Node) (n : Byte) : (s.setTree r l n).wtrig = s.wtrig := rfl
@[simp] theorem setTree_tshift (s : State) (r : Byte) (l : List Node) (n : Byte) : (s.setTree r l n).tshift = s.tshift := rfl
@[simp] theorem setTree_tbit (s : State) (r : Byte) (l : List Node) (n : Byte) : (s.setTree r l n).tbit = s.tbit := rfl
@[simp] theorem setTree_line (s : State) (r : Byte) (l : List Node) (n : Byte) : (s.setTree r l n).line = s.line := rfl
@[simp] theorem setTree_imask (s : State) (r : Byte) (l : List Node) (n : Byte) : (s.setTree r l n).imask = s.imask := rfl
@[simp] theorem setTree_maddr (s : State) (r : Byte) (l : List Node) (n : Byte) : (s.setTree r l n).maddr = s.maddr := rfl
@[simp] theorem setTree_slots (s : State) (r : Byte) (l : List Node) (n : Byte) : (s.setTree r l n).slots = s.slots := rfl
@[simp] theorem setTree_tree (s : State) (r : Byte) (l : List Node) (n : Byte) : (s.setTree r l n).tree = l := rfl
@[simp] theorem setTree_mem (s : State) (r : Byte) (l : List Node) (n : Byte) : (s.setTree r l n).mem = s.mem := rfl
@[simp] theorem setTree_devices (s : State) (r : Byte) (l : List Node) (n : Byte) : (s.setTree r l n).devices = s.devices := rfl
@[simp] theorem setTree_duties (s : State) (r : Byte) (l : List Node) (n : Byte) : (s.setTree r l n).duties = s.duties := rfl
@[simp] theorem setTree_host (s : State) (r : Byte) (l : List Node) (n : Byte) : (s.setTree r l n).host = s.host := rfl
@[simp] theorem setTree_bus (s : State) (r : Byte) (l : List Node) (n : Byte) : (s.setTree r l n).bus = s.bus := rfl
@[simp] theorem setTree_time (s : State) (r : Byte) (l : List Node) (n : Byte) : (s.setTree r l n).time = s.time := rfl
@[simp] theorem setTree_result (s : State) (r : Byte) (l : List Node) (n : Byte) : (s.setTree r l n).result = s.result := rfl
@[simp] theorem setTree_running (s : State) (r : Byte) (l : List Node) (n : Byte) : (s.setTree r l n).running = s.running := rfl
@[simp] theorem setTree_trace (s : State) (r : Byte) (l : List Node) (n : Byte) : (s.setTree r l n).trace = s.trace := rfl
@[simp] theorem setTree_draws (s : State) (r : Byte) (l : List Node) (n : Byte) : (s.setTree r l n).draws = s.draws := rfl

/-! ### `setWalk` -/

@[simp] theorem setWalk_cfg (s : State) (p n r t : Byte) : (s.setWalk p n r t).cfg = s.cfg := rfl
@[simp] theorem setWalk_err (s : State) (p n r t : Byte) : (s.setWalk p n r t).err = s.err := rfl
@[simp] theorem setWalk_sel (s : State) (p n r t : Byte) : (s.setWalk p n r t).sel = s.sel := rfl
@[simp] theorem setWalk_count (s : State) (p n r t : Byte) : (s.setWalk p n r t).count = s.count := rfl
@[simp] theorem setWalk_fsm (s : State) (p n r t : Byte) : (s.setWalk p n r t).fsm = s.fsm := rfl
@[simp] theorem setWalk_treeRoot (s : State) (p n r t : Byte) : (s.setWalk p n r t).treeRoot = s.treeRoot := rfl
@[simp] theorem setWalk_treeNext (s : State) (p n r t : Byte) : (s.setWalk p n r t).treeNext = s.treeNext := rfl
@[simp] theorem setWalk_wpos (s : State) (p n r t : Byte) : (s.setWalk p n r t).wpos = p := rfl
@[simp] theorem setWalk_wnode (s : State) (p n r t : Byte) : (s.setWalk p n r t).wnode = n := rfl
@[simp] theorem setWalk_wrep (s : State) (p n r t : Byte) : (s.setWalk p n r t).wrep = r := rfl
@[simp] theorem setWalk_wtrig (s : State) (p n r t : Byte) : (s.setWalk p n r t).wtrig = t := rfl
@[simp] theorem setWalk_tshift (s : State) (p n r t : Byte) : (s.setWalk p n r t).tshift = s.tshift := rfl
@[simp] theorem setWalk_tbit (s : State) (p n r t : Byte) : (s.setWalk p n r t).tbit = s.tbit := rfl
@[simp] theorem setWalk_line (s : State) (p n r t : Byte) : (s.setWalk p n r t).line = s.line := rfl
@[simp] theorem setWalk_imask (s : State) (p n r t : Byte) : (s.setWalk p n r t).imask = s.imask := rfl
@[simp] theorem setWalk_maddr (s : State) (p n r t : Byte) : (s.setWalk p n r t).maddr = s.maddr := rfl
@[simp] theorem setWalk_slots (s : State) (p n r t : Byte) : (s.setWalk p n r t).slots = s.slots := rfl
@[simp] theorem setWalk_tree (s : State) (p n r t : Byte) : (s.setWalk p n r t).tree = s.tree := rfl
@[simp] theorem setWalk_mem (s : State) (p n r t : Byte) : (s.setWalk p n r t).mem = s.mem := rfl
@[simp] theorem setWalk_devices (s : State) (p n r t : Byte) : (s.setWalk p n r t).devices = s.devices := rfl
@[simp] theorem setWalk_duties (s : State) (p n r t : Byte) : (s.setWalk p n r t).duties = s.duties := rfl
@[simp] theorem setWalk_host (s : State) (p n r t : Byte) : (s.setWalk p n r t).host = s.host := rfl
@[simp] theorem setWalk_bus (s : State) (p n r t : Byte) : (s.setWalk p n r t).bus = s.bus := rfl
@[simp] theorem setWalk_time (s : State) (p n r t : Byte) : (s.setWalk p n r t).time = s.time := rfl
@[simp] theorem setWalk_result (s : State) (p n r t : Byte) : (s.setWalk p n r t).result = s.result := rfl
@[simp] theorem setWalk_running (s : State) (p n r t : Byte) : (s.setWalk p n r t).running = s.running := rfl
@[simp] theorem setWalk_trace (s : State) (p n r t : Byte) : (s.setWalk p n r t).trace = s.trace := rfl
@[simp] theorem setWalk_draws (s : State) (p n r t : Byte) : (s.setWalk p n r t).draws = s.draws := rfl

/-! ### `setByteRegs` -/

@[simp] theorem setByteRegs_cfg (s : State) (a b : Byte) : (s.setByteRegs a b).cfg = s.cfg := rfl
@[simp] theorem setByteRegs_err (s : State) (a b : Byte) : (s.setByteRegs a b).err = s.err := rfl
@[simp] theorem setByteRegs_sel (s : State) (a b : Byte) : (s.setByteRegs a b).sel = s.sel := rfl
@[simp] theorem setByteRegs_count (s : State) (a b : Byte) : (s.setByteRegs a b).count = s.count := rfl
@[simp] theorem setByteRegs_fsm (s : State) (a b : Byte) : (s.setByteRegs a b).fsm = s.fsm := rfl
@[simp] theorem setByteRegs_treeRoot (s : State) (a b : Byte) : (s.setByteRegs a b).treeRoot = s.treeRoot := rfl
@[simp] theorem setByteRegs_treeNext (s : State) (a b : Byte) : (s.setByteRegs a b).treeNext = s.treeNext := rfl
@[simp] theorem setByteRegs_wpos (s : State) (a b : Byte) : (s.setByteRegs a b).wpos = s.wpos := rfl
@[simp] theorem setByteRegs_wnode (s : State) (a b : Byte) : (s.setByteRegs a b).wnode = s.wnode := rfl
@[simp] theorem setByteRegs_wrep (s : State) (a b : Byte) : (s.setByteRegs a b).wrep = s.wrep := rfl
@[simp] theorem setByteRegs_wtrig (s : State) (a b : Byte) : (s.setByteRegs a b).wtrig = s.wtrig := rfl
@[simp] theorem setByteRegs_tshift (s : State) (a b : Byte) : (s.setByteRegs a b).tshift = a := rfl
@[simp] theorem setByteRegs_tbit (s : State) (a b : Byte) : (s.setByteRegs a b).tbit = b := rfl
@[simp] theorem setByteRegs_line (s : State) (a b : Byte) : (s.setByteRegs a b).line = s.line := rfl
@[simp] theorem setByteRegs_imask (s : State) (a b : Byte) : (s.setByteRegs a b).imask = s.imask := rfl
@[simp] theorem setByteRegs_maddr (s : State) (a b : Byte) : (s.setByteRegs a b).maddr = s.maddr := rfl
@[simp] theorem setByteRegs_slots (s : State) (a b : Byte) : (s.setByteRegs a b).slots = s.slots := rfl
@[simp] theorem setByteRegs_tree (s : State) (a b : Byte) : (s.setByteRegs a b).tree = s.tree := rfl
@[simp] theorem setByteRegs_mem (s : State) (a b : Byte) : (s.setByteRegs a b).mem = s.mem := rfl
@[simp] theorem setByteRegs_devices (s : State) (a b : Byte) : (s.setByteRegs a b).devices = s.devices := rfl
@[simp] theorem setByteRegs_duties (s : State) (a b : Byte) : (s.setByteRegs a b).duties = s.duties := rfl
@[simp] theorem setByteRegs_host (s : State) (a b : Byte) : (s.setByteRegs a b).host = s.host := rfl
@[simp] theorem setByteRegs_bus (s : State) (a b : Byte) : (s.setByteRegs a b).bus = s.bus := rfl
@[simp] theorem setByteRegs_time (s : State) (a b : Byte) : (s.setByteRegs a b).time = s.time := rfl
@[simp] theorem setByteRegs_result (s : State) (a b : Byte) : (s.setByteRegs a b).result = s.result := rfl
@[simp] theorem setByteRegs_running (s : State) (a b : Byte) : (s.setByteRegs a b).running = s.running := rfl
@[simp] theorem setByteRegs_trace (s : State) (a b : Byte) : (s.setByteRegs a b).trace = s.trace := rfl
@[simp] theorem setByteRegs_draws (s : State) (a b : Byte) : (s.setByteRegs a b).draws = s.draws := rfl

/-! ### `setLine` -/

@[simp] theorem setLine_cfg (s : State) (l : Line) : (s.setLine l).cfg = s.cfg := rfl
@[simp] theorem setLine_err (s : State) (l : Line) : (s.setLine l).err = s.err := rfl
@[simp] theorem setLine_sel (s : State) (l : Line) : (s.setLine l).sel = s.sel := rfl
@[simp] theorem setLine_count (s : State) (l : Line) : (s.setLine l).count = s.count := rfl
@[simp] theorem setLine_fsm (s : State) (l : Line) : (s.setLine l).fsm = s.fsm := rfl
@[simp] theorem setLine_treeRoot (s : State) (l : Line) : (s.setLine l).treeRoot = s.treeRoot := rfl
@[simp] theorem setLine_treeNext (s : State) (l : Line) : (s.setLine l).treeNext = s.treeNext := rfl
@[simp] theorem setLine_wpos (s : State) (l : Line) : (s.setLine l).wpos = s.wpos := rfl
@[simp] theorem setLine_wnode (s : State) (l : Line) : (s.setLine l).wnode = s.wnode := rfl
@[simp] theorem setLine_wrep (s : State) (l : Line) : (s.setLine l).wrep = s.wrep := rfl
@[simp] theorem setLine_wtrig (s : State) (l : Line) : (s.setLine l).wtrig = s.wtrig := rfl
@[simp] theorem setLine_tshift (s : State) (l : Line) : (s.setLine l).tshift = s.tshift := rfl
@[simp] theorem setLine_tbit (s : State) (l : Line) : (s.setLine l).tbit = s.tbit := rfl
@[simp] theorem setLine_line (s : State) (l : Line) : (s.setLine l).line = l := rfl
@[simp] theorem setLine_imask (s : State) (l : Line) : (s.setLine l).imask = s.imask := rfl
@[simp] theorem setLine_maddr (s : State) (l : Line) : (s.setLine l).maddr = s.maddr := rfl
@[simp] theorem setLine_slots (s : State) (l : Line) : (s.setLine l).slots = s.slots := rfl
@[simp] theorem setLine_tree (s : State) (l : Line) : (s.setLine l).tree = s.tree := rfl
@[simp] theorem setLine_mem (s : State) (l : Line) : (s.setLine l).mem = s.mem := rfl
@[simp] theorem setLine_devices (s : State) (l : Line) : (s.setLine l).devices = s.devices := rfl
@[simp] theorem setLine_duties (s : State) (l : Line) : (s.setLine l).duties = s.duties := rfl
@[simp] theorem setLine_host (s : State) (l : Line) : (s.setLine l).host = s.host := rfl
@[simp] theorem setLine_bus (s : State) (l : Line) : (s.setLine l).bus = s.bus := rfl
@[simp] theorem setLine_time (s : State) (l : Line) : (s.setLine l).time = s.time := rfl
@[simp] theorem setLine_result (s : State) (l : Line) : (s.setLine l).result = s.result := rfl
@[simp] theorem setLine_running (s : State) (l : Line) : (s.setLine l).running = s.running := rfl
@[simp] theorem setLine_trace (s : State) (l : Line) : (s.setLine l).trace = s.trace := rfl
@[simp] theorem setLine_draws (s : State) (l : Line) : (s.setLine l).draws = s.draws := rfl

/-! ### `setMask` -/

@[simp] theorem setMask_cfg (s : State) (m : Bool) : (s.setMask m).cfg = s.cfg := rfl
@[simp] theorem setMask_err (s : State) (m : Bool) : (s.setMask m).err = s.err := rfl
@[simp] theorem setMask_sel (s : State) (m : Bool) : (s.setMask m).sel = s.sel := rfl
@[simp] theorem setMask_count (s : State) (m : Bool) : (s.setMask m).count = s.count := rfl
@[simp] theorem setMask_fsm (s : State) (m : Bool) : (s.setMask m).fsm = s.fsm := rfl
@[simp] theorem setMask_treeRoot (s : State) (m : Bool) : (s.setMask m).treeRoot = s.treeRoot := rfl
@[simp] theorem setMask_treeNext (s : State) (m : Bool) : (s.setMask m).treeNext = s.treeNext := rfl
@[simp] theorem setMask_wpos (s : State) (m : Bool) : (s.setMask m).wpos = s.wpos := rfl
@[simp] theorem setMask_wnode (s : State) (m : Bool) : (s.setMask m).wnode = s.wnode := rfl
@[simp] theorem setMask_wrep (s : State) (m : Bool) : (s.setMask m).wrep = s.wrep := rfl
@[simp] theorem setMask_wtrig (s : State) (m : Bool) : (s.setMask m).wtrig = s.wtrig := rfl
@[simp] theorem setMask_tshift (s : State) (m : Bool) : (s.setMask m).tshift = s.tshift := rfl
@[simp] theorem setMask_tbit (s : State) (m : Bool) : (s.setMask m).tbit = s.tbit := rfl
@[simp] theorem setMask_line (s : State) (m : Bool) : (s.setMask m).line = s.line := rfl
@[simp] theorem setMask_imask (s : State) (m : Bool) : (s.setMask m).imask = m := rfl
@[simp] theorem setMask_maddr (s : State) (m : Bool) : (s.setMask m).maddr = s.maddr := rfl
@[simp] theorem setMask_slots (s : State) (m : Bool) : (s.setMask m).slots = s.slots := rfl
@[simp] theorem setMask_tree (s : State) (m : Bool) : (s.setMask m).tree = s.tree := rfl
@[simp] theorem setMask_mem (s : State) (m : Bool) : (s.setMask m).mem = s.mem := rfl
@[simp] theorem setMask_devices (s : State) (m : Bool) : (s.setMask m).devices = s.devices := rfl
@[simp] theorem setMask_duties (s : State) (m : Bool) : (s.setMask m).duties = s.duties := rfl
@[simp] theorem setMask_host (s : State) (m : Bool) : (s.setMask m).host = s.host := rfl
@[simp] theorem setMask_bus (s : State) (m : Bool) : (s.setMask m).bus = s.bus := rfl
@[simp] theorem setMask_time (s : State) (m : Bool) : (s.setMask m).time = s.time := rfl
@[simp] theorem setMask_result (s : State) (m : Bool) : (s.setMask m).result = s.result := rfl
@[simp] theorem setMask_running (s : State) (m : Bool) : (s.setMask m).running = s.running := rfl
@[simp] theorem setMask_trace (s : State) (m : Bool) : (s.setMask m).trace = s.trace := rfl
@[simp] theorem setMask_draws (s : State) (m : Bool) : (s.setMask m).draws = s.draws := rfl

/-! ### `setMaddr` -/

@[simp] theorem setMaddr_cfg (s : State) (a : Vector Byte 8) : (s.setMaddr a).cfg = s.cfg := rfl
@[simp] theorem setMaddr_err (s : State) (a : Vector Byte 8) : (s.setMaddr a).err = s.err := rfl
@[simp] theorem setMaddr_sel (s : State) (a : Vector Byte 8) : (s.setMaddr a).sel = s.sel := rfl
@[simp] theorem setMaddr_count (s : State) (a : Vector Byte 8) : (s.setMaddr a).count = s.count := rfl
@[simp] theorem setMaddr_fsm (s : State) (a : Vector Byte 8) : (s.setMaddr a).fsm = s.fsm := rfl
@[simp] theorem setMaddr_treeRoot (s : State) (a : Vector Byte 8) : (s.setMaddr a).treeRoot = s.treeRoot := rfl
@[simp] theorem setMaddr_treeNext (s : State) (a : Vector Byte 8) : (s.setMaddr a).treeNext = s.treeNext := rfl
@[simp] theorem setMaddr_wpos (s : State) (a : Vector Byte 8) : (s.setMaddr a).wpos = s.wpos := rfl
@[simp] theorem setMaddr_wnode (s : State) (a : Vector Byte 8) : (s.setMaddr a).wnode = s.wnode := rfl
@[simp] theorem setMaddr_wrep (s : State) (a : Vector Byte 8) : (s.setMaddr a).wrep = s.wrep := rfl
@[simp] theorem setMaddr_wtrig (s : State) (a : Vector Byte 8) : (s.setMaddr a).wtrig = s.wtrig := rfl
@[simp] theorem setMaddr_tshift (s : State) (a : Vector Byte 8) : (s.setMaddr a).tshift = s.tshift := rfl
@[simp] theorem setMaddr_tbit (s : State) (a : Vector Byte 8) : (s.setMaddr a).tbit = s.tbit := rfl
@[simp] theorem setMaddr_line (s : State) (a : Vector Byte 8) : (s.setMaddr a).line = s.line := rfl
@[simp] theorem setMaddr_imask (s : State) (a : Vector Byte 8) : (s.setMaddr a).imask = s.imask := rfl
@[simp] theorem setMaddr_maddr (s : State) (a : Vector Byte 8) : (s.setMaddr a).maddr = a := rfl
@[simp] theorem setMaddr_slots (s : State) (a : Vector Byte 8) : (s.setMaddr a).slots = s.slots := rfl
@[simp] theorem setMaddr_tree (s : State) (a : Vector Byte 8) : (s.setMaddr a).tree = s.tree := rfl
@[simp] theorem setMaddr_mem (s : State) (a : Vector Byte 8) : (s.setMaddr a).mem = s.mem := rfl
@[simp] theorem setMaddr_devices (s : State) (a : Vector Byte 8) : (s.setMaddr a).devices = s.devices := rfl
@[simp] theorem setMaddr_duties (s : State) (a : Vector Byte 8) : (s.setMaddr a).duties = s.duties := rfl
@[simp] theorem setMaddr_host (s : State) (a : Vector Byte 8) : (s.setMaddr a).host = s.host := rfl
@[simp] theorem setMaddr_bus (s : State) (a : Vector Byte 8) : (s.setMaddr a).bus = s.bus := rfl
@[simp] theorem setMaddr_time (s : State) (a : Vector Byte 8) : (s.setMaddr a).time = s.time := rfl
@[simp] theorem setMaddr_result (s : State) (a : Vector Byte 8) : (s.setMaddr a).result = s.result := rfl
@[simp] theorem setMaddr_running (s : State) (a : Vector Byte 8) : (s.setMaddr a).running = s.running := rfl
@[simp] theorem setMaddr_trace (s : State) (a : Vector Byte 8) : (s.setMaddr a).trace = s.trace := rfl
@[simp] theorem setMaddr_draws (s : State) (a : Vector Byte 8) : (s.setMaddr a).draws = s.draws := rfl

/-! ### `setSlot` -/

@[simp] theorem setSlot_cfg (s : State) (i : Nat) (h : Option Handle) : (s.setSlot i h).cfg = s.cfg := rfl
@[simp] theorem setSlot_err (s : State) (i : Nat) (h : Option Handle) : (s.setSlot i h).err = s.err := rfl
@[simp] theorem setSlot_sel (s : State) (i : Nat) (h : Option Handle) : (s.setSlot i h).sel = s.sel := rfl
@[simp] theorem setSlot_count (s : State) (i : Nat) (h : Option Handle) : (s.setSlot i h).count = s.count := rfl
@[simp] theorem setSlot_fsm (s : State) (i : Nat) (h : Option Handle) : (s.setSlot i h).fsm = s.fsm := rfl
@[simp] theorem setSlot_treeRoot (s : State) (i : Nat) (h : Option Handle) : (s.setSlot i h).treeRoot = s.treeRoot := rfl
@[simp] theorem setSlot_treeNext (s : State) (i : Nat) (h : Option Handle) : (s.setSlot i h).treeNext = s.treeNext := rfl
@[simp] theorem setSlot_wpos (s : State) (i : Nat) (h : Option Handle) : (s.setSlot i h).wpos = s.wpos := rfl
@[simp] theorem setSlot_wnode (s : State) (i : Nat) (h : Option Handle) : (s.setSlot i h).wnode = s.wnode := rfl
@[simp] theorem setSlot_wrep (s : State) (i : Nat) (h : Option Handle) : (s.setSlot i h).wrep = s.wrep := rfl
@[simp] theorem setSlot_wtrig (s : State) (i : Nat) (h : Option Handle) : (s.setSlot i h).wtrig = s.wtrig := rfl
@[simp] theorem setSlot_tshift (s : State) (i : Nat) (h : Option Handle) : (s.setSlot i h).tshift = s.tshift := rfl
@[simp] theorem setSlot_tbit (s : State) (i : Nat) (h : Option Handle) : (s.setSlot i h).tbit = s.tbit := rfl
@[simp] theorem setSlot_line (s : State) (i : Nat) (h : Option Handle) : (s.setSlot i h).line = s.line := rfl
@[simp] theorem setSlot_imask (s : State) (i : Nat) (h : Option Handle) : (s.setSlot i h).imask = s.imask := rfl
@[simp] theorem setSlot_maddr (s : State) (i : Nat) (h : Option Handle) : (s.setSlot i h).maddr = s.maddr := rfl
@[simp] theorem setSlot_slots (s : State) (i : Nat) (h : Option Handle) : (s.setSlot i h).slots = s.slots.set i h := rfl
@[simp] theorem setSlot_tree (s : State) (i : Nat) (h : Option Handle) : (s.setSlot i h).tree = s.tree := rfl
@[simp] theorem setSlot_mem (s : State) (i : Nat) (h : Option Handle) : (s.setSlot i h).mem = s.mem := rfl
@[simp] theorem setSlot_devices (s : State) (i : Nat) (h : Option Handle) : (s.setSlot i h).devices = s.devices := rfl
@[simp] theorem setSlot_duties (s : State) (i : Nat) (h : Option Handle) : (s.setSlot i h).duties = s.duties := rfl
@[simp] theorem setSlot_host (s : State) (i : Nat) (h : Option Handle) : (s.setSlot i h).host = s.host := rfl
@[simp] theorem setSlot_bus (s : State) (i : Nat) (h : Option Handle) : (s.setSlot i h).bus = s.bus := rfl
@[simp] theorem setSlot_time (s : State) (i : Nat) (h : Option Handle) : (s.setSlot i h).time = s.time := rfl
@[simp] theorem setSlot_result (s : State) (i : Nat) (h : Option Handle) : (s.setSlot i h).result = s.result := rfl
@[simp] theorem setSlot_running (s : State) (i : Nat) (h : Option Handle) : (s.setSlot i h).running = s.running := rfl
@[simp] theorem setSlot_trace (s : State) (i : Nat) (h : Option Handle) : (s.setSlot i h).trace = s.trace := rfl
@[simp] theorem setSlot_draws (s : State) (i : Nat) (h : Option Handle) : (s.setSlot i h).draws = s.draws := rfl

/-! ### `setMem` -/

@[simp] theorem setMem_cfg (s : State) (m : Memory) : (s.setMem m).cfg = s.cfg := rfl
@[simp] theorem setMem_err (s : State) (m : Memory) : (s.setMem m).err = s.err := rfl
@[simp] theorem setMem_sel (s : State) (m : Memory) : (s.setMem m).sel = s.sel := rfl
@[simp] theorem setMem_count (s : State) (m : Memory) : (s.setMem m).count = s.count := rfl
@[simp] theorem setMem_fsm (s : State) (m : Memory) : (s.setMem m).fsm = s.fsm := rfl
@[simp] theorem setMem_treeRoot (s : State) (m : Memory) : (s.setMem m).treeRoot = s.treeRoot := rfl
@[simp] theorem setMem_treeNext (s : State) (m : Memory) : (s.setMem m).treeNext = s.treeNext := rfl
@[simp] theorem setMem_wpos (s : State) (m : Memory) : (s.setMem m).wpos = s.wpos := rfl
@[simp] theorem setMem_wnode (s : State) (m : Memory) : (s.setMem m).wnode = s.wnode := rfl
@[simp] theorem setMem_wrep (s : State) (m : Memory) : (s.setMem m).wrep = s.wrep := rfl
@[simp] theorem setMem_wtrig (s : State) (m : Memory) : (s.setMem m).wtrig = s.wtrig := rfl
@[simp] theorem setMem_tshift (s : State) (m : Memory) : (s.setMem m).tshift = s.tshift := rfl
@[simp] theorem setMem_tbit (s : State) (m : Memory) : (s.setMem m).tbit = s.tbit := rfl
@[simp] theorem setMem_line (s : State) (m : Memory) : (s.setMem m).line = s.line := rfl
@[simp] theorem setMem_imask (s : State) (m : Memory) : (s.setMem m).imask = s.imask := rfl
@[simp] theorem setMem_maddr (s : State) (m : Memory) : (s.setMem m).maddr = s.maddr := rfl
@[simp] theorem setMem_slots (s : State) (m : Memory) : (s.setMem m).slots = s.slots := rfl
@[simp] theorem setMem_tree (s : State) (m : Memory) : (s.setMem m).tree = s.tree := rfl
@[simp] theorem setMem_mem (s : State) (m : Memory) : (s.setMem m).mem = m := rfl
@[simp] theorem setMem_devices (s : State) (m : Memory) : (s.setMem m).devices = s.devices := rfl
@[simp] theorem setMem_duties (s : State) (m : Memory) : (s.setMem m).duties = s.duties := rfl
@[simp] theorem setMem_host (s : State) (m : Memory) : (s.setMem m).host = s.host := rfl
@[simp] theorem setMem_bus (s : State) (m : Memory) : (s.setMem m).bus = s.bus := rfl
@[simp] theorem setMem_time (s : State) (m : Memory) : (s.setMem m).time = s.time := rfl
@[simp] theorem setMem_result (s : State) (m : Memory) : (s.setMem m).result = s.result := rfl
@[simp] theorem setMem_running (s : State) (m : Memory) : (s.setMem m).running = s.running := rfl
@[simp] theorem setMem_trace (s : State) (m : Memory) : (s.setMem m).trace = s.trace := rfl
@[simp] theorem setMem_draws (s : State) (m : Memory) : (s.setMem m).draws = s.draws := rfl

/-! ### `setBus` -/

@[simp] theorem setBus_cfg (s : State) (b : List Draw) (t : Nat) : (s.setBus b t).cfg = s.cfg := rfl
@[simp] theorem setBus_err (s : State) (b : List Draw) (t : Nat) : (s.setBus b t).err = s.err := rfl
@[simp] theorem setBus_sel (s : State) (b : List Draw) (t : Nat) : (s.setBus b t).sel = s.sel := rfl
@[simp] theorem setBus_count (s : State) (b : List Draw) (t : Nat) : (s.setBus b t).count = s.count := rfl
@[simp] theorem setBus_fsm (s : State) (b : List Draw) (t : Nat) : (s.setBus b t).fsm = s.fsm := rfl
@[simp] theorem setBus_treeRoot (s : State) (b : List Draw) (t : Nat) : (s.setBus b t).treeRoot = s.treeRoot := rfl
@[simp] theorem setBus_treeNext (s : State) (b : List Draw) (t : Nat) : (s.setBus b t).treeNext = s.treeNext := rfl
@[simp] theorem setBus_wpos (s : State) (b : List Draw) (t : Nat) : (s.setBus b t).wpos = s.wpos := rfl
@[simp] theorem setBus_wnode (s : State) (b : List Draw) (t : Nat) : (s.setBus b t).wnode = s.wnode := rfl
@[simp] theorem setBus_wrep (s : State) (b : List Draw) (t : Nat) : (s.setBus b t).wrep = s.wrep := rfl
@[simp] theorem setBus_wtrig (s : State) (b : List Draw) (t : Nat) : (s.setBus b t).wtrig = s.wtrig := rfl
@[simp] theorem setBus_tshift (s : State) (b : List Draw) (t : Nat) : (s.setBus b t).tshift = s.tshift := rfl
@[simp] theorem setBus_tbit (s : State) (b : List Draw) (t : Nat) : (s.setBus b t).tbit = s.tbit := rfl
@[simp] theorem setBus_line (s : State) (b : List Draw) (t : Nat) : (s.setBus b t).line = s.line := rfl
@[simp] theorem setBus_imask (s : State) (b : List Draw) (t : Nat) : (s.setBus b t).imask = s.imask := rfl
@[simp] theorem setBus_maddr (s : State) (b : List Draw) (t : Nat) : (s.setBus b t).maddr = s.maddr := rfl
@[simp] theorem setBus_slots (s : State) (b : List Draw) (t : Nat) : (s.setBus b t).slots = s.slots := rfl
@[simp] theorem setBus_tree (s : State) (b : List Draw) (t : Nat) : (s.setBus b t).tree = s.tree := rfl
@[simp] theorem setBus_mem (s : State) (b : List Draw) (t : Nat) : (s.setBus b t).mem = s.mem := rfl
@[simp] theorem setBus_devices (s : State) (b : List Draw) (t : Nat) : (s.setBus b t).devices = s.devices := rfl
@[simp] theorem setBus_duties (s : State) (b : List Draw) (t : Nat) : (s.setBus b t).duties = s.duties := rfl
@[simp] theorem setBus_host (s : State) (b : List Draw) (t : Nat) : (s.setBus b t).host = s.host := rfl
@[simp] theorem setBus_bus (s : State) (b : List Draw) (t : Nat) : (s.setBus b t).bus = b := rfl
@[simp] theorem setBus_time (s : State) (b : List Draw) (t : Nat) : (s.setBus b t).time = t := rfl
@[simp] theorem setBus_result (s : State) (b : List Draw) (t : Nat) : (s.setBus b t).result = s.result := rfl
@[simp] theorem setBus_running (s : State) (b : List Draw) (t : Nat) : (s.setBus b t).running = s.running := rfl
@[simp] theorem setBus_trace (s : State) (b : List Draw) (t : Nat) : (s.setBus b t).trace = s.trace := rfl
@[simp] theorem setBus_draws (s : State) (b : List Draw) (t : Nat) : (s.setBus b t).draws = s.draws := rfl

/-! ### `setTrace` -/

@[simp] theorem setTrace_cfg (s : State) (l : List Event) : (s.setTrace l).cfg = s.cfg := rfl
@[simp] theorem setTrace_err (s : State) (l : List Event) : (s.setTrace l).err = s.err := rfl
@[simp] theorem setTrace_sel (s : State) (l : List Event) : (s.setTrace l).sel = s.sel := rfl
@[simp] theorem setTrace_count (s : State) (l : List Event) : (s.setTrace l).count = s.count := rfl
@[simp] theorem setTrace_fsm (s : State) (l : List Event) : (s.setTrace l).fsm = s.fsm := rfl
@[simp] theorem setTrace_treeRoot (s : State) (l : List Event) : (s.setTrace l).treeRoot = s.treeRoot := rfl
@[simp] theorem setTrace_treeNext (s : State) (l : List Event) : (s.setTrace l).treeNext = s.treeNext := rfl
@[simp] theorem setTrace_wpos (s : State) (l : List Event) : (s.setTrace l).wpos = s.wpos := rfl
@[simp] theorem setTrace_wnode (s : State) (l : List Event) : (s.setTrace l).wnode = s.wnode := rfl
@[simp] theorem setTrace_wrep (s : State) (l : List Event) : (s.setTrace l).wrep = s.wrep := rfl
@[simp] theorem setTrace_wtrig (s : State) (l : List Event) : (s.setTrace l).wtrig = s.wtrig := rfl
@[simp] theorem setTrace_tshift (s : State) (l : List Event) : (s.setTrace l).tshift = s.tshift := rfl
@[simp] theorem setTrace_tbit (s : State) (l : List Event) : (s.setTrace l).tbit = s.tbit := rfl
@[simp] theorem setTrace_line (s : State) (l : List Event) : (s.setTrace l).line = s.line := rfl
@[simp] theorem setTrace_imask (s : State) (l : List Event) : (s.setTrace l).imask = s.imask := rfl
@[simp] theorem setTrace_maddr (s : State) (l : List Event) : (s.setTrace l).maddr = s.maddr := rfl
@[simp] theorem setTrace_slots (s : State) (l : List Event) : (s.setTrace l).slots = s.slots := rfl
@[simp] theorem setTrace_tree (s : State) (l : List Event) : (s.setTrace l).tree = s.tree := rfl
@[simp] theorem setTrace_mem (s : State) (l : List Event) : (s.setTrace l).mem = s.mem := rfl
@[simp] theorem setTrace_devices (s : State) (l : List Event) : (s.setTrace l).devices = s.devices := rfl
@[simp] theorem setTrace_duties (s : State) (l : List Event) : (s.setTrace l).duties = s.duties := rfl
@[simp] theorem setTrace_host (s : State) (l : List Event) : (s.setTrace l).host = s.host := rfl
@[simp] theorem setTrace_bus (s : State) (l : List Event) : (s.setTrace l).bus = s.bus := rfl
@[simp] theorem setTrace_time (s : State) (l : List Event) : (s.setTrace l).time = s.time := rfl
@[simp] theorem setTrace_result (s : State) (l : List Event) : (s.setTrace l).result = s.result := rfl
@[simp] theorem setTrace_running (s : State) (l : List Event) : (s.setTrace l).running = s.running := rfl
@[simp] theorem setTrace_trace (s : State) (l : List Event) : (s.setTrace l).trace = l := rfl
@[simp] theorem setTrace_draws (s : State) (l : List Event) : (s.setTrace l).draws = s.draws := rfl

/-! ### `setDraws` -/

@[simp] theorem setDraws_cfg (s : State) (n : Nat) : (s.setDraws n).cfg = s.cfg := rfl
@[simp] theorem setDraws_err (s : State) (n : Nat) : (s.setDraws n).err = s.err := rfl
@[simp] theorem setDraws_sel (s : State) (n : Nat) : (s.setDraws n).sel = s.sel := rfl
@[simp] theorem setDraws_count (s : State) (n : Nat) : (s.setDraws n).count = s.count := rfl
@[simp] theorem setDraws_fsm (s : State) (n : Nat) : (s.setDraws n).fsm = s.fsm := rfl
@[simp] theorem setDraws_treeRoot (s : State) (n : Nat) : (s.setDraws n).treeRoot = s.treeRoot := rfl
@[simp] theorem setDraws_treeNext (s : State) (n : Nat) : (s.setDraws n).treeNext = s.treeNext := rfl
@[simp] theorem setDraws_wpos (s : State) (n : Nat) : (s.setDraws n).wpos = s.wpos := rfl
@[simp] theorem setDraws_wnode (s : State) (n : Nat) : (s.setDraws n).wnode = s.wnode := rfl
@[simp] theorem setDraws_wrep (s : State) (n : Nat) : (s.setDraws n).wrep = s.wrep := rfl
@[simp] theorem setDraws_wtrig (s : State) (n : Nat) : (s.setDraws n).wtrig = s.wtrig := rfl
@[simp] theorem setDraws_tshift (s : State) (n : Nat) : (s.setDraws n).tshift = s.tshift := rfl
@[simp] theorem setDraws_tbit (s : State) (n : Nat) : (s.setDraws n).tbit = s.tbit := rfl
@[simp] theorem setDraws_line (s : State) (n : Nat) : (s.setDraws n).line = s.line := rfl
@[simp] theorem setDraws_imask (s : State) (n : Nat) : (s.setDraws n).imask = s.imask := rfl
@[simp] theorem setDraws_maddr (s : State) (n : Nat) : (s.setDraws n).maddr = s.maddr := rfl
@[simp] theorem setDraws_slots (s : State) (n : Nat) : (s.setDraws n).slots = s.slots := rfl
@[simp] theorem setDraws_tree (s : State) (n : Nat) : (s.setDraws n).tree = s.tree := rfl
@[simp] theorem setDraws_mem (s : State) (n : Nat) : (s.setDraws n).mem = s.mem := rfl
@[simp] theorem setDraws_devices (s : State) (n : Nat) : (s.setDraws n).devices = s.devices := rfl
@[simp] theorem setDraws_duties (s : State) (n : Nat) : (s.setDraws n).duties = s.duties := rfl
@[simp] theorem setDraws_host (s : State) (n : Nat) : (s.setDraws n).host = s.host := rfl
@[simp] theorem setDraws_bus (s : State) (n : Nat) : (s.setDraws n).bus = s.bus := rfl
@[simp] theorem setDraws_time (s : State) (n : Nat) : (s.setDraws n).time = s.time := rfl
@[simp] theorem setDraws_result (s : State) (n : Nat) : (s.setDraws n).result = s.result := rfl
@[simp] theorem setDraws_running (s : State) (n : Nat) : (s.setDraws n).running = s.running := rfl
@[simp] theorem setDraws_trace (s : State) (n : Nat) : (s.setDraws n).trace = s.trace := rfl
@[simp] theorem setDraws_draws (s : State) (n : Nat) : (s.setDraws n).draws = n := rfl

/-! ### `setRunning` -/

@[simp] theorem setRunning_cfg (s : State) (r : Bool) : (s.setRunning r).cfg = s.cfg := rfl
@[simp] theorem setRunning_err (s : State) (r : Bool) : (s.setRunning r).err = s.err := rfl
@[simp] theorem setRunning_sel (s : State) (r : Bool) : (s.setRunning r).sel = s.sel := rfl
@[simp] theorem setRunning_count (s : State) (r : Bool) : (s.setRunning r).count = s.count := rfl
@[simp] theorem setRunning_fsm (s : State) (r : Bool) : (s.setRunning r).fsm = s.fsm := rfl
@[simp] theorem setRunning_treeRoot (s : State) (r : Bool) : (s.setRunning r).treeRoot = s.treeRoot := rfl
@[simp] theorem setRunning_treeNext (s : State) (r : Bool) : (s.setRunning r).treeNext = s.treeNext := rfl
@[simp] theorem setRunning_wpos (s : State) (r : Bool) : (s.setRunning r).wpos = s.wpos := rfl
@[simp] theorem setRunning_wnode (s : State) (r : Bool) : (s.setRunning r).wnode = s.wnode := rfl
@[simp] theorem setRunning_wrep (s : State) (r : Bool) : (s.setRunning r).wrep = s.wrep := rfl
@[simp] theorem setRunning_wtrig (s : State) (r : Bool) : (s.setRunning r).wtrig = s.wtrig := rfl
@[simp] theorem setRunning_tshift (s : State) (r : Bool) : (s.setRunning r).tshift = s.tshift := rfl
@[simp] theorem setRunning_tbit (s : State) (r : Bool) : (s.setRunning r).tbit = s.tbit := rfl
@[simp] theorem setRunning_line (s : State) (r : Bool) : (s.setRunning r).line = s.line := rfl
@[simp] theorem setRunning_imask (s : State) (r : Bool) : (s.setRunning r).imask = s.imask := rfl
@[simp] theorem setRunning_maddr (s : State) (r : Bool) : (s.setRunning r).maddr = s.maddr := rfl
@[simp] theorem setRunning_slots (s : State) (r : Bool) : (s.setRunning r).slots = s.slots := rfl
@[simp] theorem setRunning_tree (s : State) (r : Bool) : (s.setRunning r).tree = s.tree := rfl
@[simp] theorem setRunning_mem (s : State) (r : Bool) : (s.setRunning r).mem = s.mem := rfl
@[simp] theorem setRunning_devices (s : State) (r : Bool) : (s.setRunning r).devices = s.devices := rfl
@[simp] theorem setRunning_duties (s : State) (r : Bool) : (s.setRunning r).duties = s.duties := rfl
@[simp] theorem setRunning_host (s : State) (r : Bool) : (s.setRunning r).host = s.host := rfl
@[simp] theorem setRunning_bus (s : State) (r : Bool) : (s.setRunning r).bus = s.bus := rfl
@[simp] theorem setRunning_time (s : State) (r : Bool) : (s.setRunning r).time = s.time := rfl
@[simp] theorem setRunning_result (s : State) (r : Bool) : (s.setRunning r).result = s.result := rfl
@[simp] theorem setRunning_running (s : State) (r : Bool) : (s.setRunning r).running = r := rfl
@[simp] theorem setRunning_trace (s : State) (r : Bool) : (s.setRunning r).trace = s.trace := rfl
@[simp] theorem setRunning_draws (s : State) (r : Bool) : (s.setRunning r).draws = s.draws := rfl

/-! ### `setHost` -/

@[simp] theorem setHost_cfg (s : State) (h : List (List Nat)) : (s.setHost h).cfg = s.cfg := rfl
@[simp] theorem setHost_err (s : State) (h : List (List Nat)) : (s.setHost h).err = s.err := rfl
@[simp] theorem setHost_sel (s : State) (h : List (List Nat)) : (s.setHost h).sel = s.sel := rfl
@[simp] theorem setHost_count (s : State) (h : List (List Nat)) : (s.setHost h).count = s.count := rfl
@[simp] theorem setHost_fsm (s : State) (h : List (List Nat)) : (s.setHost h).fsm = s.fsm := rfl
@[simp] theorem setHost_treeRoot (s : State) (h : List (List Nat)) : (s.setHost h).treeRoot = s.treeRoot := rfl
@[simp] theorem setHost_treeNext (s : State) (h : List (List Nat)) : (s.setHost h).treeNext = s.treeNext := rfl
@[simp] theorem setHost_wpos (s : State) (h : List (List Nat)) : (s.setHost h).wpos = s.wpos := rfl
@[simp] theorem setHost_wnode (s : State) (h : List (List Nat)) : (s.setHost h).wnode = s.wnode := rfl
@[simp] theorem setHost_wrep (s : State) (h : List (List Nat)) : (s.setHost h).wrep = s.wrep := rfl
@[simp] theorem setHost_wtrig (s : State) (h : List (List Nat)) : (s.setHost h).wtrig = s.wtrig := rfl
@[simp] theorem setHost_tshift (s : State) (h : List (List Nat)) : (s.setHost h).tshift = s.tshift := rfl
@[simp] theorem setHost_tbit (s : State) (h : List (List Nat)) : (s.setHost h).tbit = s.tbit := rfl
@[simp] theorem setHost_line (s : State) (h : List (List Nat)) : (s.setHost h).line = s.line := rfl
@[simp] theorem setHost_imask (s : State) (h : List (List Nat)) : (s.setHost h).imask = s.imask := rfl
@[simp] theorem setHost_maddr (s : State) (h : List (List Nat)) : (s.setHost h).maddr = s.maddr := rfl
@[simp] theorem setHost_slots (s : State) (h : List (List Nat)) : (s.setHost h).slots = s.slots := rfl
@[simp] theorem setHost_tree (s : State) (h : List (List Nat)) : (s.setHost h).tree = s.tree := rfl
@[simp] theorem setHost_mem (s : State) (h : List (List Nat)) : (s.setHost h).mem = s.mem := rfl
@[simp] theorem setHost_devices (s : State) (h : List (List Nat)) : (s.setHost h).devices = s.devices := rfl
@[simp] theorem setHost_duties (s : State) (h : List (List Nat)) : (s.setHost h).duties = s.duties := rfl
@[simp] theorem setHost_host (s : State) (h : List (List Nat)) : (s.setHost h).host = h := rfl
@[simp] theorem setHost_bus (s : State) (h : List (List Nat)) : (s.setHost h).bus = s.bus := rfl
@[simp] theorem setHost_time (s : State) (h : List (List Nat)) : (s.setHost h).time = s.time := rfl
@[simp] theorem setHost_result (s : State) (h : List (List Nat)) : (s.setHost h).result = s.result := rfl
@[simp] theorem setHost_running (s : State) (h : List (List Nat)) : (s.setHost h).running = s.running := rfl
@[simp] theorem setHost_trace (s : State) (h : List (List Nat)) : (s.setHost h).trace = s.trace := rfl
@[simp] theorem setHost_draws (s : State) (h : List (List Nat)) : (s.setHost h).draws = s.draws := rfl

/-! ### `setDuties` -/

@[simp] theorem setDuties_cfg (s : State) (d : List (Handle × List DutyAct)) : (s.setDuties d).cfg = s.cfg := rfl
@[simp] theorem setDuties_err (s : State) (d : List (Handle × List DutyAct)) : (s.setDuties d).err = s.err := rfl
@[simp] theorem setDuties_sel (s : State) (d : List (Handle × List DutyAct)) : (s.setDuties d).sel = s.sel := rfl
@[simp] theorem setDuties_count (s : State) (d : List (Handle × List DutyAct)) : (s.setDuties d).count = s.count := rfl
@[simp] theorem setDuties_fsm (s : State) (d : List (Handle × List DutyAct)) : (s.setDuties d).fsm = s.fsm := rfl
@[simp] theorem setDuties_treeRoot (s : State) (d : List (Handle × List DutyAct)) : (s.setDuties d).treeRoot = s.treeRoot := rfl
@[simp] theorem setDuties_treeNext (s : State) (d : List (Handle × List DutyAct)) : (s.setDuties d).treeNext = s.treeNext := rfl
@[simp] theorem setDuties_wpos (s : State) (d : List (Handle × List DutyAct)) : (s.setDuties d).wpos = s.wpos := rfl
@[simp] theorem setDuties_wnode (s : State) (d : List (Handle × List DutyAct)) : (s.setDuties d).wnode = s.wnode := rfl
@[simp] theorem setDuties_wrep (s : State) (d : List (Handle × List DutyAct)) : (s.setDuties d).wrep = s.wrep := rfl
@[simp] theorem setDuties_wtrig (s : State) (d : List (Handle × List DutyAct)) : (s.setDuties d).wtrig = s.wtrig := rfl
@[simp] theorem setDuties_tshift (s : State) (d : List (Handle × List DutyAct)) : (s.setDuties d).tshift = s.tshift := rfl
@[simp] theorem setDuties_tbit (s : State) (d : List (Handle × List DutyAct)) : (s.setDuties d).tbit = s.tbit := rfl
@[simp] theorem setDuties_line (s : State) (d : List (Handle × List DutyAct)) : (s.setDuties d).line = s.line := rfl
@[simp] theorem setDuties_imask (s : State) (d : List (Handle × List DutyAct)) : (s.setDuties d).imask = s.imask := rfl
@[simp] theorem setDuties_maddr (s : State) (d : List (Handle × List DutyAct)) : (s.setDuties d).maddr = s.maddr := rfl
@[simp] theorem setDuties_slots (s : State) (d : List (Handle × List DutyAct)) : (s.setDuties d).slots = s.slots := rfl
@[simp] theorem setDuties_tree (s : State) (d : List (Handle × List DutyAct)) : (s.setDuties d).tree = s.tree := rfl
@[simp] theorem setDuties_mem (s : State) (d : List (Handle × List DutyAct)) : (s.setDuties d).mem = s.mem := rfl
@[simp] theorem setDuties_devices (s : State) (d : List (Handle × List DutyAct)) : (s.setDuties d).devices = s.devices := rfl
@[simp] theorem setDuties_duties (s : State) (d : List (Handle × List DutyAct)) : (s.setDuties d).duties = d := rfl
@[simp] theorem setDuties_host (s : State) (d : List (Handle × List DutyAct)) : (s.setDuties d).host = s.host := rfl
@[simp] theorem setDuties_bus (s : State) (d : List (Handle × List DutyAct)) : (s.setDuties d).bus = s.bus := rfl
@[simp] theorem setDuties_time (s : State) (d : List (Handle × List DutyAct)) : (s.setDuties d).time = s.time := rfl
@[simp] theorem setDuties_result (s : State) (d : List (Handle × List DutyAct)) : (s.setDuties d).result = s.result := rfl
@[simp] theorem setDuties_running (s : State) (d : List (Handle × List DutyAct)) : (s.setDuties d).running = s.running := rfl
@[simp] theorem setDuties_trace (s : State) (d : List (Handle × List DutyAct)) : (s.setDuties d).trace = s.trace := rfl
@[simp] theorem setDuties_draws (s : State) (d : List (Handle × List DutyAct)) : (s.setDuties d).draws = s.draws := rfl

/-! ### `ret` -/

@[simp] theorem ret_cfg (s : State) (r : Result) : (s.ret r).cfg = s.cfg := rfl
@[simp] theorem ret_err (s : State) (r : Result) : (s.ret r).err = s.err := rfl
@[simp] theorem ret_sel (s : State) (r : Result) : (s.ret r).sel = s.sel := rfl
@[simp] theorem ret_count (s : State) (r : Result) : (s.ret r).count = s.count := rfl
@[simp] theorem ret_fsm (s : State) (r : Result) : (s.ret r).fsm = s.fsm := rfl
@[simp] theorem ret_treeRoot (s : State) (r : Result) : (s.ret r).treeRoot = s.treeRoot := rfl
@[simp] theorem ret_treeNext (s : State) (r : Result) : (s.ret r).treeNext = s.treeNext := rfl
@[simp] theorem ret_wpos (s : State) (r : Result) : (s.ret r).wpos = s.wpos := rfl
@[simp] theorem ret_wnode (s : State) (r : Result) : (s.ret r).wnode = s.wnode := rfl
@[simp] theorem ret_wrep (s : State) (r : Result) : (s.ret r).wrep = s.wrep := rfl
@[simp] theorem ret_wtrig (s : State) (r : Result) : (s.ret r).wtrig = s.wtrig := rfl
@[simp] theorem ret_tshift (s : State) (r : Result) : (s.ret r).tshift = s.tshift := rfl
@[simp] theorem ret_tbit (s : State) (r : Result) : (s.ret r).tbit = s.tbit := rfl
@[simp] theorem ret_line (s : State) (r : Result) : (s.ret r).line = s.line := rfl
@[simp] theorem ret_imask (s : State) (r : Result) : (s.ret r).imask = s.imask := rfl
@[simp] theorem ret_maddr (s : State) (r : Result) : (s.ret r).maddr = s.maddr := rfl
@[simp] theorem ret_slots (s : State) (r : Result) : (s.ret r).slots = s.slots := rfl
@[simp] theorem ret_tree (s : State) (r : Result) : (s.ret r).tree = s.tree := rfl
@[simp] theorem ret_mem (s : State) (r : Result) : (s.ret r).mem = s.mem := rfl
@[simp] theorem ret_devices (s : State) (r : Result) : (s.ret r).devices = s.devices := rfl
@[simp] theorem ret_duties (s : State) (r : Result) : (s.ret r).duties = s.duties := rfl
@[simp] theorem ret_host (s : State) (r : Result) : (s.ret r).host = s.host := rfl
@[simp] theorem ret_bus (s : State) (r : Result) : (s.ret r).bus = s.bus := rfl
@[simp] theorem ret_time (s : State) (r : Result) : (s.ret r).time = s.time := rfl
@[simp] theorem ret_result (s : State) (r : Result) : (s.ret r).result = some r := rfl
@[simp] theorem ret_running (s : State) (r : Result) : (s.ret r).running = s.running := rfl
@[simp] theorem ret_trace (s : State) (r : Result) : (s.ret r).trace = s.trace := rfl
@[simp] theorem ret_draws (s : State) (r : Result) : (s.ret r).draws = s.draws := rfl

/-! ### `goto` -/

@[simp] theorem goto_cfg (st : Fsm) (s : State) : (goto st s).cfg = s.cfg := rfl
@[simp] theorem goto_err (st : Fsm) (s : State) : (goto st s).err = s.err := rfl
@[simp] theorem goto_sel (st : Fsm) (s : State) : (goto st s).sel = s.sel := rfl
@[simp] theorem goto_count (st : Fsm) (s : State) : (goto st s).count = s.count := rfl
@[simp] theorem goto_fsm (st : Fsm) (s : State) : (goto st s).fsm = st := rfl
@[simp] theorem goto_treeRoot (st : Fsm) (s : State) : (goto st s).treeRoot = s.treeRoot := rfl
@[simp] theorem goto_treeNext (st : Fsm) (s : State) : (goto st s).treeNext = s.treeNext := rfl
@[simp] theorem goto_wpos (st : Fsm) (s : State) : (goto st s).wpos = s.wpos := rfl
@[simp] theorem goto_wnode (st : Fsm) (s : State) : (goto st s).wnode = s.wnode := rfl
@[simp] theorem goto_wrep (st : Fsm) (s : State) : (goto st s).wrep = s.wrep := rfl
@[simp] theorem goto_wtrig (st : Fsm) (s : State) : (goto st s).wtrig = s.wtrig := rfl
@[simp] theorem goto_tshift (st : Fsm) (s : State) : (goto st s).tshift = s.tshift := rfl
@[simp] theorem goto_tbit (st : Fsm) (s : State) : (goto st s).tbit = s.tbit := rfl
@[simp] theorem goto_line (st : Fsm) (s : State) : (goto st s).line = s.line := rfl
@[simp] theorem goto_imask (st : Fsm) (s : State) : (goto st s).imask = s.imask := rfl
@[simp] theorem goto_maddr (st : Fsm) (s : State) : (goto st s).maddr = s.maddr := rfl
@[simp] theorem goto_slots (st : Fsm) (s : State) : (goto st s).slots = s.slots := rfl
@[simp] theorem goto_tree (st : Fsm) (s : State) : (goto st s).tree = s.tree := rfl
@[simp] theorem goto_mem (st : Fsm) (s : State) : (goto st s).mem = s.mem := rfl
@[simp] theorem goto_devices (st : Fsm) (s : State) : (goto st s).devices = s.devices := rfl
@[simp] theorem goto_duties (st : Fsm) (s : State) : (goto st s).duties = s.duties := rfl
@[simp] theorem goto_host (st : Fsm) (s : State) : (goto st s).host = s.host := rfl
@[simp] theorem goto_bus (st : Fsm) (s : State) : (goto st s).bus = s.bus := rfl
@[simp] theorem goto_time (st : Fsm) (s : State) : (goto st s).time = s.time := rfl
@[simp] theorem goto_result (st : Fsm) (s : State) : (goto st s).result = s.result := rfl
@[simp] theorem goto_running (st : Fsm) (s : State) : (goto st s).running = s.running := rfl
@[simp] theorem goto_trace (st : Fsm) (s : State) : (goto st s).trace = Event.goto st :: s.trace := rfl
@[simp] theorem goto_draws (st : Fsm) (s : State) : (goto st s).draws = s.draws := rfl

/-! ### `build` -/

@[simp] theorem build_cfg (s : State) : (build s).cfg = s.cfg := rfl
@[simp] theorem build_err (s : State) : (build s).err = s.err := rfl
@[simp] theorem build_sel (s : State) : (build s).sel = s.sel := rfl
@[simp] theorem build_count (s : State) : (build s).count = s.count := rfl
@[simp] theorem build_fsm (s : State) : (build s).fsm = s.fsm := rfl
@[simp] theorem build_treeRoot (s : State) : (build s).treeRoot = (buildTree s.cfg.treeSize s.occupied s.slotBit).1 := rfl
@[simp] theorem build_treeNext (s : State) : (build s).treeNext = (buildTree s.cfg.treeSize s.occupied s.slotBit).2.next := rfl
@[simp] theorem build_wpos (s : State) : (build s).wpos = s.wpos := rfl
@[simp] theorem build_wnode (s : State) : (build s).wnode = s.wnode := rfl
@[simp] theorem build_wrep (s : State) : (build s).wrep = s.wrep := rfl
@[simp] theorem build_wtrig (s : State) : (build s).wtrig = s.wtrig := rfl
@[simp] theorem build_tshift (s : State) : (build s).tshift = s.tshift := rfl
@[simp] theorem build_tbit (s : State) : (build s).tbit = s.tbit := rfl
@[simp] theorem build_line (s : State) : (build s).line = s.line := rfl
@[simp] theorem build_imask (s : State) : (build s).imask = s.imask := rfl
@[simp] theorem build_maddr (s : State) : (build s).maddr = s.maddr := rfl
@[simp] theorem build_slots (s : State) : (build s).slots = s.slots := rfl
@[simp] theorem build_tree (s : State) : (build s).tree = (buildTree s.cfg.treeSize s.occupied s.slotBit).2.nodes := rfl
@[simp] theorem build_mem (s : State) : (build s).mem = s.mem := rfl
@[simp] theorem build_devices (s : State) : (build s).devices = s.devices := rfl
@[simp] theorem build_duties (s : State) : (build s).duties = s.duties := rfl
@[simp] theorem build_host (s : State) : (build s).host = s.host := rfl
@[simp] theorem build_bus (s : State) : (build s).bus = s.bus := rfl
@[simp] theorem build_time (s : State) : (build s).time = s.time := rfl
@[simp] theorem build_result (s : State) : (build s).result = s.result := rfl
@[simp] theorem build_running (s : State) : (build s).running = s.running := rfl
@[simp] theorem build_trace (s : State) : (build s).trace = s.trace := rfl
@[simp] theorem build_draws (s : State) : (build s).draws = s.draws := rfl

/-! ### `returnPoll` and `finishPoll` -/

@[simp] theorem returnPoll_cfg (oc : PollOutcome) (r : Bool) (s : State) :
    (returnPoll oc r s).cfg = s.cfg := by
  unfold returnPoll; split <;> rfl
@[simp] theorem returnPoll_err (oc : PollOutcome) (r : Bool) (s : State) :
    (returnPoll oc r s).err = s.err := by
  unfold returnPoll; split <;> rfl
@[simp] theorem returnPoll_sel (oc : PollOutcome) (r : Bool) (s : State) :
    (returnPoll oc r s).sel = s.sel := by
  unfold returnPoll; split <;> rfl
@[simp] theorem returnPoll_count (oc : PollOutcome) (r : Bool) (s : State) :
    (returnPoll oc r s).count = s.count := by
  unfold returnPoll; split <;> rfl
@[simp] theorem returnPoll_fsm (oc : PollOutcome) (r : Bool) (s : State) :
    (returnPoll oc r s).fsm = s.fsm := by
  unfold returnPoll; split <;> rfl
@[simp] theorem returnPoll_treeRoot (oc : PollOutcome) (r : Bool) (s : State) :
    (returnPoll oc r s).treeRoot = s.treeRoot := by
  unfold returnPoll; split <;> rfl
@[simp] theorem returnPoll_treeNext (oc : PollOutcome) (r : Bool) (s : State) :
    (returnPoll oc r s).treeNext = s.treeNext := by
  unfold returnPoll; split <;> rfl
@[simp] theorem returnPoll_wpos (oc : PollOutcome) (r : Bool) (s : State) :
    (returnPoll oc r s).wpos = s.wpos := by
  unfold returnPoll; split <;> rfl
@[simp] theorem returnPoll_wnode (oc : PollOutcome) (r : Bool) (s : State) :
    (returnPoll oc r s).wnode = s.wnode := by
  unfold returnPoll; split <;> rfl
@[simp] theorem returnPoll_wrep (oc : PollOutcome) (r : Bool) (s : State) :
    (returnPoll oc r s).wrep = s.wrep := by
  unfold returnPoll; split <;> rfl
@[simp] theorem returnPoll_wtrig (oc : PollOutcome) (r : Bool) (s : State) :
    (returnPoll oc r s).wtrig = s.wtrig := by
  unfold returnPoll; split <;> rfl
@[simp] theorem returnPoll_tshift (oc : PollOutcome) (r : Bool) (s : State) :
    (returnPoll oc r s).tshift = s.tshift := by
  unfold returnPoll; split <;> rfl
@[simp] theorem returnPoll_tbit (oc : PollOutcome) (r : Bool) (s : State) :
    (returnPoll oc r s).tbit = s.tbit := by
  unfold returnPoll; split <;> rfl
@[simp] theorem returnPoll_line (oc : PollOutcome) (r : Bool) (s : State) :
    (returnPoll oc r s).line = s.line := by
  unfold returnPoll; split <;> rfl
@[simp] theorem returnPoll_imask (oc : PollOutcome) (r : Bool) (s : State) :
    (returnPoll oc r s).imask = s.imask := by
  unfold returnPoll; split <;> rfl
@[simp] theorem returnPoll_maddr (oc : PollOutcome) (r : Bool) (s : State) :
    (returnPoll oc r s).maddr = s.maddr := by
  unfold returnPoll; split <;> rfl
@[simp] theorem returnPoll_slots (oc : PollOutcome) (r : Bool) (s : State) :
    (returnPoll oc r s).slots = s.slots := by
  unfold returnPoll; split <;> rfl
@[simp] theorem returnPoll_tree (oc : PollOutcome) (r : Bool) (s : State) :
    (returnPoll oc r s).tree = s.tree := by
  unfold returnPoll; split <;> rfl
@[simp] theorem returnPoll_mem (oc : PollOutcome) (r : Bool) (s : State) :
    (returnPoll oc r s).mem = s.mem := by
  unfold returnPoll; split <;> rfl
@[simp] theorem returnPoll_devices (oc : PollOutcome) (r : Bool) (s : State) :
    (returnPoll oc r s).devices = s.devices := by
  unfold returnPoll; split <;> rfl
@[simp] theorem returnPoll_duties (oc : PollOutcome) (r : Bool) (s : State) :
    (returnPoll oc r s).duties = s.duties := by
  unfold returnPoll; split <;> rfl
@[simp] theorem returnPoll_host (oc : PollOutcome) (r : Bool) (s : State) :
    (returnPoll oc r s).host = s.host := by
  unfold returnPoll; split <;> rfl
@[simp] theorem returnPoll_bus (oc : PollOutcome) (r : Bool) (s : State) :
    (returnPoll oc r s).bus = s.bus := by
  unfold returnPoll; split <;> rfl
@[simp] theorem returnPoll_time (oc : PollOutcome) (r : Bool) (s : State) :
    (returnPoll oc r s).time = s.time := by
  unfold returnPoll; split <;> rfl
@[simp] theorem returnPoll_running (oc : PollOutcome) (r : Bool) (s : State) :
    (returnPoll oc r s).running = s.running := by
  unfold returnPoll; split <;> rfl
@[simp] theorem returnPoll_trace (oc : PollOutcome) (r : Bool) (s : State) :
    (returnPoll oc r s).trace = s.trace := by
  unfold returnPoll; split <;> rfl
@[simp] theorem returnPoll_draws (oc : PollOutcome) (r : Bool) (s : State) :
    (returnPoll oc r s).draws = s.draws := by
  unfold returnPoll; split <;> rfl
@[simp] theorem returnPoll_result (oc : PollOutcome) (r : Bool) (s : State) :
    (returnPoll oc r s).result = if s.running then s.result else some (.byte (pollByte oc r)) := by
  unfold returnPoll; split <;> rfl
@[simp] theorem finishPoll_cfg (oc : PollOutcome) (r : Bool) (s : State) :
    (finishPoll oc r s).cfg = s.cfg := by
  simp [finishPoll]
@[simp] theorem finishPoll_err (oc : PollOutcome) (r : Bool) (s : State) :
    (finishPoll oc r s).err = s.err := by
  simp [finishPoll]
@[simp] theorem finishPoll_sel (oc : PollOutcome) (r : Bool) (s : State) :
    (finishPoll oc r s).sel = s.sel := by
  simp [finishPoll]
@[simp] theorem finishPoll_count (oc : PollOutcome) (r : Bool) (s : State) :
    (finishPoll oc r s).count = s.count := by
  simp [finishPoll]
@[simp] theorem finishPoll_fsm (oc : PollOutcome) (r : Bool) (s : State) :
    (finishPoll oc r s).fsm = .idle := by
  simp [finishPoll]
@[simp] theorem finishPoll_treeRoot (oc : PollOutcome) (r : Bool) (s : State) :
    (finishPoll oc r s).treeRoot = s.treeRoot := by
  simp [finishPoll]
@[simp] theorem finishPoll_treeNext (oc : PollOutcome) (r : Bool) (s : State) :
    (finishPoll oc r s).treeNext = s.treeNext := by
  simp [finishPoll]
@[simp] theorem finishPoll_wpos (oc : PollOutcome) (r : Bool) (s : State) :
    (finishPoll oc r s).wpos = s.wpos := by
  simp [finishPoll]
@[simp] theorem finishPoll_wnode (oc : PollOutcome) (r : Bool) (s : State) :
    (finishPoll oc r s).wnode = s.wnode := by
  simp [finishPoll]
@[simp] theorem finishPoll_wrep (oc : PollOutcome) (r : Bool) (s : State) :
    (finishPoll oc r s).wrep = s.wrep := by
  simp [finishPoll]
@[simp] theorem finishPoll_wtrig (oc : PollOutcome) (r : Bool) (s : State) :
    (finishPoll oc r s).wtrig = s.wtrig := by
  simp [finishPoll]
@[simp] theorem finishPoll_tshift (oc : PollOutcome) (r : Bool) (s : State) :
    (finishPoll oc r s).tshift = s.tshift := by
  simp [finishPoll]
@[simp] theorem finishPoll_tbit (oc : PollOutcome) (r : Bool) (s : State) :
    (finishPoll oc r s).tbit = s.tbit := by
  simp [finishPoll]
@[simp] theorem finishPoll_line (oc : PollOutcome) (r : Bool) (s : State) :
    (finishPoll oc r s).line = s.line := by
  simp [finishPoll]
@[simp] theorem finishPoll_imask (oc : PollOutcome) (r : Bool) (s : State) :
    (finishPoll oc r s).imask = s.imask := by
  simp [finishPoll]
@[simp] theorem finishPoll_maddr (oc : PollOutcome) (r : Bool) (s : State) :
    (finishPoll oc r s).maddr = s.maddr := by
  simp [finishPoll]
@[simp] theorem finishPoll_slots (oc : PollOutcome) (r : Bool) (s : State) :
    (finishPoll oc r s).slots = s.slots := by
  simp [finishPoll]
@[simp] theorem finishPoll_tree (oc : PollOutcome) (r : Bool) (s : State) :
    (finishPoll oc r s).tree = s.tree := by
  simp [finishPoll]
@[simp] theorem finishPoll_mem (oc : PollOutcome) (r : Bool) (s : State) :
    (finishPoll oc r s).mem = s.mem := by
  simp [finishPoll]
@[simp] theorem finishPoll_devices (oc : PollOutcome) (r : Bool) (s : State) :
    (finishPoll oc r s).devices = s.devices := by
  simp [finishPoll]
@[simp] theorem finishPoll_duties (oc : PollOutcome) (r : Bool) (s : State) :
    (finishPoll oc r s).duties = s.duties := by
  simp [finishPoll]
@[simp] theorem finishPoll_host (oc : PollOutcome) (r : Bool) (s : State) :
    (finishPoll oc r s).host = s.host := by
  simp [finishPoll]
@[simp] theorem finishPoll_bus (oc : PollOutcome) (r : Bool) (s : State) :
    (finishPoll oc r s).bus = s.bus := by
  simp [finishPoll]
@[simp] theorem finishPoll_time (oc : PollOutcome) (r : Bool) (s : State) :
    (finishPoll oc r s).time = s.time := by
  simp [finishPoll]
@[simp] theorem finishPoll_result (oc : PollOutcome) (r : Bool) (s : State) :
    (finishPoll oc r s).result = if s.running then s.result else some (.byte (pollByte oc r)) := by
  unfold finishPoll; rw [returnPoll_result]; rfl
@[simp] theorem finishPoll_running (oc : PollOutcome) (r : Bool) (s : State) :
    (finishPoll oc r s).running = s.running := by
  simp [finishPoll]
@[simp] theorem finishPoll_trace (oc : PollOutcome) (r : Bool) (s : State) :
    (finishPoll oc r s).trace = Event.goto .idle :: s.trace := by
  simp [finishPoll]
@[simp] theorem finishPoll_draws (oc : PollOutcome) (r : Bool) (s : State) :
    (finishPoll oc r s).draws = s.draws := by
  simp [finishPoll]

end Sys2Proof.Machine
end

