-- ==== Sys2Proof/Laws/Ops.lean ====
section
/-! SUPPORT. What the shared operations can do: frames of the HAL primitives and of the wait loop, what a wait says when
it ends, the abort, slots and buffer memory. -/

namespace Sys2Proof.Machine

/-! ### Line accesses are masked and leave the line released -/

/-- An event whose line access, if it is one, was made with host interrupts masked. -/
def Event.Masked (e : Event) : Prop := ∀ t m a, e = .line t m a → m = true

@[simp] theorem Event.masked_line (t : Nat) (m : Bool) (a : Access) :
    (Event.line t m a).Masked ↔ m = true := by
  constructor
  · intro h; exact h t m a rfl
  · rintro rfl t' m' a' h; cases h; rfl

@[simp] theorem Event.masked_goto (st : Fsm) : (Event.goto st).Masked := by
  intro t m a h; cases h

/-- What every part of an operation leaves in order: the record grows by masked accesses only, a released line is
released again, and an open host interrupt mask is open again (R43, R182, R183). -/
structure Orderly (s t : State) : Prop where
  trace : ∃ es, t.trace = es ++ s.trace ∧ ∀ e ∈ es, e.Masked
  line : s.line = ⟨false, false⟩ → t.line = ⟨false, false⟩
  imask : s.imask = false → t.imask = false

theorem Orderly.of_eq {s t : State} (htr : t.trace = s.trace) (hl : t.line = s.line) (hi : t.imask = s.imask) :
    Orderly s t :=
  ⟨⟨[], by simp [htr]⟩, fun h => hl.trans h, fun h => hi.trans h⟩

theorem Orderly.refl (s : State) : Orderly s s := .of_eq rfl rfl rfl

theorem Orderly.trans {s t u : State} (h : Orderly s t) (k : Orderly t u) : Orderly s u := by
  obtain ⟨es, hes, hm⟩ := h.trace
  obtain ⟨fs, hfs, hn⟩ := k.trace
  refine ⟨⟨fs ++ es, by simp [hfs, hes], ?_⟩, k.line ∘ h.line, k.imask ∘ h.imask⟩
  intro e he
  rcases List.mem_append.mp he with he | he
  · exact hn e he
  · exact hm e he

theorem goto_orderly (st : Fsm) (s : State) : Orderly s (goto st s) :=
  ⟨⟨[.goto st], by simp⟩, id, id⟩

/-- What every part of an operation but a transition leaves in order: FSM's record as well. -/
structure Tidy (s t : State) : Prop extends Orderly s t where
  gotos : t.gotos = s.gotos

theorem gotos_append {s t : State} {es : List Event} (h : t.trace = es ++ s.trace) :
    t.gotos = s.gotos ++ es.reverse.filterMap Event.goto? := by
  simp [State.gotos, h]

/-- A transition that the record of states shows is among the events recorded since. -/
theorem goto_mem_of_gotos {s t : State} {es : List Event} {sts : List Fsm} {st : Fsm} (h : t.trace = es ++ s.trace)
    (hg : t.gotos = s.gotos ++ sts) (hm : st ∈ sts) : Event.goto st ∈ es := by
  rw [gotos_append h] at hg
  rw [← List.append_cancel_left hg, List.mem_filterMap] at hm
  obtain ⟨e, he, hst⟩ := hm
  cases e with
  | line => cases hst
  | goto => cases hst; exact List.mem_reverse.mp he

theorem Tidy.of_eq {s t : State} (htr : t.trace = s.trace) (hl : t.line = s.line) (hi : t.imask = s.imask) :
    Tidy s t :=
  ⟨.of_eq htr hl hi, by unfold State.gotos; rw [htr]⟩

theorem Tidy.refl (s : State) : Tidy s s := .of_eq rfl rfl rfl

theorem Tidy.trans {s t u : State} (h : Tidy s t) (k : Tidy t u) : Tidy s u :=
  ⟨h.toOrderly.trans k.toOrderly, k.gotos.trans h.gotos⟩

@[simp] theorem goto_gotos (st : Fsm) (s : State) : (goto st s).gotos = s.gotos ++ [st] :=
  gotos_append (es := [.goto st]) rfl

/-- One more masked access, with the mask open afterwards. -/
theorem Tidy.access {s t : State} (time : Nat) (a : Access) (htr : t.trace = .line time true a :: s.trace)
    (hl : s.line = ⟨false, false⟩ → t.line = ⟨false, false⟩) (hi : t.imask = false) : Tidy s t :=
  ⟨⟨⟨[.line time true a], by simp [htr]⟩, hl, fun _ => hi⟩,
    (gotos_append (es := [.line time true a]) htr).trans (List.append_nil _)⟩

theorem Orderly.accessesMasked {s t : State} (h : Orderly s t) (hs : s.AccessesMasked) : t.AccessesMasked := by
  obtain ⟨es, hes, hm⟩ := h.trace
  intro time m a he
  rw [hes] at he
  rcases List.mem_append.mp he with he | he
  · exact hm _ he time m a rfl
  · exact hs time m a he

/-! ### The primitives, one equation each -/

/-- The line level a read gives (R181). -/
def lineLevel (s : State) : Bool := !s.line.dir && (drawOf s.bus).level

theorem sampleLine_eq (s : State) : sampleLine s =
    (lineLevel s, ((s.setBus s.bus.tail (s.time + (drawOf s.bus).dt)).setTrace
      (.line (s.time + (drawOf s.bus).dt) true (.sample (lineLevel s)) :: s.trace)).setMask false) := rfl

theorem releaseLine_eq (s : State) : releaseLine s = { s with
    bus := s.bus.tail, time := s.time + (drawOf s.bus).dt, line := ⟨false, s.line.out⟩, imask := false
    trace := .line (s.time + (drawOf s.bus).dt) true .release :: s.trace } := by
  cases s; rfl

theorem pullLine_eq (s : State) : pullLine s = { s with
    bus := s.bus.tail, time := s.time + (drawOf s.bus).dt, line := ⟨true, false⟩, imask := false
    trace := .line (s.time + (drawOf s.bus).dt) true .driveLow :: s.trace } := by
  cases s; rfl

theorem now_eq (s : State) : now s =
    (BitVec.ofNat 32 (s.time + (drawOf s.bus).dt), s.setBus s.bus.tail (s.time + (drawOf s.bus).dt)) := rfl

theorem delay_eq (t : Stamp) (s : State) : delay t s =
    s.setBus s.bus.tail (s.time + (drawOf s.bus).dt + t.toNat) := rfl

/-! ### Frames of the waits -/

/-- `t` is `s` but for the oracle, the clock, the record and the host interrupt mask. -/
def EnvOnly (s t : State) : Prop :=
  ∃ b τ tr m, t = { s with bus := b, time := τ, trace := tr, imask := m }

theorem EnvOnly.refl (s : State) : EnvOnly s s := ⟨s.bus, s.time, s.trace, s.imask, rfl⟩

theorem EnvOnly.trans {s t u : State} (h : EnvOnly s t) (k : EnvOnly t u) : EnvOnly s u := by
  obtain ⟨b, τ, tr, m, rfl⟩ := h
  obtain ⟨b', τ', tr', m', rfl⟩ := k
  exact ⟨b', τ', tr', m', rfl⟩

theorem now_frame (s : State) : EnvOnly s (now s).2 := ⟨_, _, _, _, rfl⟩
theorem now_tidy (s : State) : Tidy s (now s).2 := .of_eq rfl rfl rfl
theorem delay_frame (t : Stamp) (s : State) : EnvOnly s (delay t s) := ⟨_, _, _, _, rfl⟩
theorem delay_tidy (t : Stamp) (s : State) : Tidy s (delay t s) := .of_eq rfl rfl rfl
theorem sampleLine_frame (s : State) : EnvOnly s (sampleLine s).2 := ⟨_, _, _, _, rfl⟩
theorem sampleLine_tidy (s : State) : Tidy s (sampleLine s).2 := .access _ _ rfl (fun h => h) rfl
theorem releaseLine_tidy (s : State) : Tidy s (releaseLine s) :=
  .access _ _ rfl (fun h => by simp [releaseLine_eq, h]) rfl
theorem runToDeadline_frame (t0 b : Stamp) (s : State) : EnvOnly s (runToDeadline t0 b s) := ⟨_, _, _, _, rfl⟩
theorem runToDeadline_tidy (t0 b : Stamp) (s : State) : Tidy s (runToDeadline t0 b s) := .of_eq rfl rfl rfl

/-- At the deadline exactly the budget has elapsed (R345). -/
theorem runToDeadline_stamp (t0 b : Stamp) (s : State) : (runToDeadline t0 b s).stamp - t0 = b := by
  have h : (runToDeadline t0 b s).stamp = s.stamp + (b - (s.stamp - t0)) := by
    unfold State.stamp runToDeadline State.setBus
    rw [BitVec.ofNat_add, BitVec.ofNat_toNat, BitVec.setWidth_eq]
    rfl
  rw [h]
  ring

theorem waitLoop_frame (want : Bool) (t0 b : Stamp) (n : Nat) (s : State) :
    EnvOnly s (waitLoop want t0 b n s).2 := by
  induction n generalizing s with
  | zero => exact runToDeadline_frame t0 b s
  | succ n ih =>
    simp only [waitLoop]
    split
    · exact sampleLine_frame s
    · split
      · exact (sampleLine_frame s).trans (now_frame _)
      · exact ((sampleLine_frame s).trans (now_frame _)).trans (ih _)

theorem waitLoop_tidy (want : Bool) (t0 b : Stamp) (n : Nat) (s : State) :
    Tidy s (waitLoop want t0 b n s).2 := by
  induction n generalizing s with
  | zero => exact runToDeadline_tidy t0 b s
  | succ n ih =>
    simp only [waitLoop]
    split
    · exact sampleLine_tidy s
    · split
      · exact (sampleLine_tidy s).trans (now_tidy _)
      · exact ((sampleLine_tidy s).trans (now_tidy _)).trans (ih _)

theorem waitLine_frame (want : Bool) (t0 b : Stamp) (s : State) : EnvOnly s (waitLine want t0 b s).2 :=
  waitLoop_frame want t0 b _ s

theorem waitLine_tidy (want : Bool) (t0 b : Stamp) (s : State) : Tidy s (waitLine want t0 b s).2 :=
  waitLoop_tidy want t0 b _ s

/-- A wait that returns true ended at a sample of the level it wanted; one that returns false ended with its budget
elapsed (R184, R190, R200). -/
theorem waitLoop_ends (want : Bool) (t0 b : Stamp) (n : Nat) (s : State) :
    if (waitLoop want t0 b n s).1 = true
    then ∃ time, (waitLoop want t0 b n s).2.trace.head? = some (.line time true (.sample want))
    else b ≤ (waitLoop want t0 b n s).2.stamp - t0 := by
  induction n generalizing s with
  | zero =>
    simp only [waitLoop, Bool.false_eq_true, if_false, runToDeadline_stamp]
    exact BitVec.le_refl b
  | succ n ih =>
    simp only [waitLoop]
    by_cases h1 : (sampleLine s).1 = want
    · simp only [h1, if_true]
      exact ⟨s.time + (drawOf s.bus).dt, by rw [← h1]; rfl⟩
    · simp only [if_neg h1]
      by_cases h2 : expired (now (sampleLine s).2).1 t0 b = true
      · simp only [h2, if_true, Bool.false_eq_true, if_false]
        exact of_decide_eq_true h2
      · rw [if_neg h2]
        exact ih _

/-- A wait whose first sample has the wanted level ends there, whatever the clock says (60_exceptions R307). -/
theorem waitLine_first (want : Bool) (t0 b : Stamp) (s : State) (h : lineLevel s = want) :
    waitLine want t0 b s = (true, (sampleLine s).2) := by
  have h' : (sampleLine s).1 = want := h
  simp [waitLine, waitLoop, h']

/-! ### Waits on a line that is held at one level -/

theorem heldTime_cons (p : Nat × Draw) (ps : List (Nat × Draw)) :
    heldTime (p :: ps) = p.1 + p.2.dt + heldTime ps := by
  simp [heldTime]

/-- A wait for the other level on a released line that is held at one level until the budget is used up fails. -/
theorem waitLoop_held (want : Bool) (t0 b : Stamp) (fuel : Nat) (ps : List (Nat × Draw)) (rest : List Draw)
    (s : State) (hb : s.bus = held (!want) ps ++ rest) (hl : s.line.dir = false) (hf : ps.length < fuel)
    (hne : ps ≠ []) (ht : b ≤ BitVec.ofNat 32 (s.time + heldTime ps) - t0) :
    (waitLoop want t0 b fuel s).1 = false := by
  induction ps generalizing s fuel with
  | nil => exact absurd rfl hne
  | cons p ps ih =>
    obtain ⟨fuel, rfl⟩ := Nat.exists_eq_succ_of_ne_zero (by omega : fuel ≠ 0)
    have hb' : s.bus = ⟨p.1, !want⟩ :: p.2 :: (held (!want) ps ++ rest) := by rw [hb]; rfl
    have h1 : (sampleLine s).1 = !want := by
      show lineLevel s = _
      rw [lineLevel, hl, hb']; simp [drawOf]
    have hsb : (now (sampleLine s).2).2.bus = held (!want) ps ++ rest := by
      simp [now_eq, sampleLine_eq, hb']
    have hst : (now (sampleLine s).2).2.time = s.time + p.1 + p.2.dt := by
      simp [now_eq, sampleLine_eq, hb', drawOf]
    have hsn : (now (sampleLine s).2).1 = BitVec.ofNat 32 (s.time + p.1 + p.2.dt) := by
      simp [now_eq, sampleLine_eq, hb', drawOf]
    simp only [waitLoop]
    rw [if_neg (by rw [h1]; cases want <;> simp)]
    split
    · rfl
    · next hx =>
      by_cases hps : ps = []
      · subst hps
        exfalso; apply hx
        rw [hsn, expired, decide_eq_true_eq]
        rw [heldTime_cons] at ht
        simpa [heldTime, Nat.add_assoc] using ht
      · refine ih fuel _ hsb (by simpa [now_eq, sampleLine_eq] using hl) (by simp at hf; omega) hps ?_
        rw [hst]
        rw [heldTime_cons] at ht
        have : s.time + p.1 + p.2.dt + heldTime ps = s.time + (p.1 + p.2.dt + heldTime ps) := by omega
        rw [this]; exact ht

theorem held_length (v : Bool) (ps : List (Nat × Draw)) : (held v ps).length = 2 * ps.length := by
  induction ps with
  | nil => rfl
  | cons p ps ih =>
    have : held v (p :: ps) = ⟨p.1, v⟩ :: p.2 :: held v ps := rfl
    rw [this]; simp [ih]; omega

theorem stamp_sub (a n : Nat) : BitVec.ofNat 32 (a + n) - BitVec.ofNat 32 a = BitVec.ofNat 32 n := by
  rw [BitVec.ofNat_add]; ring

/-- The wait as it stands in the core's procedures, right after the clock read that started it. -/
theorem waitLine_held (want : Bool) (b : Stamp) (n : Draw) (ps : List (Nat × Draw)) (rest : List Draw) (s : State)
    (hb : s.bus = n :: (held (!want) ps ++ rest)) (hl : s.line.dir = false) (hne : ps ≠ [])
    (ht : b ≤ BitVec.ofNat 32 (heldTime ps)) :
    (waitLine want (now s).1 b (now s).2).1 = false := by
  refine waitLoop_held want _ b _ ps rest _ (by simp [now_eq, hb]) (by simpa [now_eq] using hl) ?_ hne ?_
  · simp [now_eq, hb, held_length]; omega
  · simpa [now_eq, hb, drawOf, stamp_sub] using ht

/-- The record of a wait's samples, newest first, from time `t` on. -/
def heldEvents (v : Bool) : Nat → List (Nat × Draw) → List Event
  | _, [] => []
  | t, p :: ps => heldEvents v (t + p.1 + p.2.dt) ps ++ [.line (t + p.1) true (.sample v)]

theorem heldEvents_masked (v : Bool) (t : Nat) (ps : List (Nat × Draw)) : ∀ e ∈ heldEvents v t ps, e.Masked := by
  induction ps generalizing t with
  | nil => simp [heldEvents]
  | cons p ps ih =>
    intro e he
    rcases List.mem_append.mp he with he | he
    · exact ih _ e he
    · rw [List.mem_singleton.mp he]; simp

theorem heldEvents_accesses (v : Bool) (t : Nat) (ps : List (Nat × Draw)) :
    (heldEvents v t ps).reverse.filterMap Event.access? = samples v ps := by
  induction ps generalizing t with
  | nil => rfl
  | cons p ps ih => simp [heldEvents, samples, ih, Event.access?]

/-- A wait that finds the level it wants after samples that have the other level, before its budget has elapsed. -/
theorem waitLoop_within (want : Bool) (b : Stamp) (τ : Nat) (t fuel : Nat) (ps : List (Nat × Draw)) (dt : Nat)
    (rest : List Draw) (s : State) (hb : s.bus = held (!want) ps ++ ⟨dt, want⟩ :: rest) (hl : s.line.dir = false)
    (hf : ps.length < fuel) (ht : s.time = τ + t) (hw : Within b t ps) :
    waitLoop want (BitVec.ofNat 32 τ) b fuel s = (true, { s with
      bus := rest, time := s.time + heldTime ps + dt, imask := false
      trace := .line (s.time + heldTime ps + dt) true (.sample want) :: (heldEvents (!want) s.time ps ++ s.trace) }) := by
  induction ps generalizing s fuel t with
  | nil =>
    obtain ⟨fuel, rfl⟩ := Nat.exists_eq_succ_of_ne_zero (by omega : fuel ≠ 0)
    have hb' : s.bus = ⟨dt, want⟩ :: rest := hb
    have h1 : sampleLine s = (want, { s with
        bus := rest, time := s.time + dt, imask := false, trace := .line (s.time + dt) true (.sample want) :: s.trace }) := by
      rw [sampleLine_eq]; simp [lineLevel, hl, hb', drawOf]; rfl
    simp only [waitLoop, h1, if_true]
    simp [heldTime, heldEvents]
  | cons p ps ih =>
    obtain ⟨fuel, rfl⟩ := Nat.exists_eq_succ_of_ne_zero (by omega : fuel ≠ 0)
    have hb' : s.bus = ⟨p.1, !want⟩ :: p.2 :: (held (!want) ps ++ ⟨dt, want⟩ :: rest) := by rw [hb]; rfl
    have h1 : sampleLine s = (!want, { s with
        bus := p.2 :: (held (!want) ps ++ ⟨dt, want⟩ :: rest), time := s.time + p.1, imask := false
        trace := .line (s.time + p.1) true (.sample !want) :: s.trace }) := by
      rw [sampleLine_eq]; simp [lineLevel, hl, hb', drawOf]; rfl
    have h2 : now (sampleLine s).2 = (BitVec.ofNat 32 (s.time + p.1 + p.2.dt), { s with
        bus := held (!want) ps ++ ⟨dt, want⟩ :: rest, time := s.time + p.1 + p.2.dt, imask := false
        trace := .line (s.time + p.1) true (.sample !want) :: s.trace }) := by
      rw [h1, now_eq]; rfl
    have hx : expired (BitVec.ofNat 32 (s.time + p.1 + p.2.dt)) (BitVec.ofNat 32 τ) b = false := by
      rw [expired, show s.time + p.1 + p.2.dt = τ + (t + p.1 + p.2.dt) by omega, stamp_sub, decide_eq_false_iff_not]
      exact BitVec.not_le.mpr hw.1
    have e : (!want) ≠ want := by cases want <;> simp
    simp only [waitLoop, h2]
    rw [h1]
    dsimp only
    rw [if_neg e, if_neg (by rw [hx]; simp)]
    refine (ih (t + p.1 + p.2.dt) fuel { s with
        bus := held (!want) ps ++ ⟨dt, want⟩ :: rest, time := s.time + p.1 + p.2.dt, imask := false
        trace := .line (s.time + p.1) true (.sample !want) :: s.trace }
      rfl hl (by simp at hf; omega) (by show _ + _ + _ = _; omega) hw.2).trans ?_
    simp [heldTime_cons, heldEvents, Nat.add_assoc]

/-- `s` after a wait that began with the clock read `n`, took the samples `ps`, and ended at the sample after `dt`. -/
def afterWait (want : Bool) (n : Draw) (ps : List (Nat × Draw)) (dt : Nat) (rest : List Draw) (s : State) : State :=
  { s with
    bus := rest, time := s.time + n.dt + heldTime ps + dt, imask := false
    trace := .line (s.time + n.dt + heldTime ps + dt) true (.sample want) ::
      (heldEvents (!want) (s.time + n.dt) ps ++ s.trace) }

section
variable (want : Bool) (n : Draw) (ps : List (Nat × Draw)) (dt : Nat) (rest : List Draw) (s : State)
@[simp] theorem afterWait_bus : (afterWait want n ps dt rest s).bus = rest := rfl
@[simp] theorem afterWait_cfg : (afterWait want n ps dt rest s).cfg = s.cfg := rfl
@[simp] theorem afterWait_line : (afterWait want n ps dt rest s).line = s.line := rfl
@[simp] theorem afterWait_imask : (afterWait want n ps dt rest s).imask = false := rfl
@[simp] theorem afterWait_time : (afterWait want n ps dt rest s).time = s.time + n.dt + heldTime ps + dt := rfl
@[simp] theorem afterWait_accesses : (afterWait want n ps dt rest s).accesses =
    s.accesses ++ samples (!want) ps ++ [.sample want] := by
  simp [afterWait, State.accesses, Event.access?]
  rw [← List.filterMap_reverse, heldEvents_accesses]
theorem afterWait_frame : EnvOnly s (afterWait want n ps dt rest s) := ⟨_, _, _, _, rfl⟩
end

/-- The same wait as it stands in the core's procedures, right after the clock read that started it. -/
theorem waitLine_within (want : Bool) (b : Stamp) {n : Draw} {ps : List (Nat × Draw)} {dt : Nat} {rest : List Draw}
    {s : State} (hb : s.bus = n :: (held (!want) ps ++ ⟨dt, want⟩ :: rest)) (hl : s.line.dir = false)
    (hw : Within b 0 ps) :
    waitLine want (now s).1 b (now s).2 = (true, afterWait want n ps dt rest s) := by
  have hn : now s = (BitVec.ofNat 32 (s.time + n.dt),
      { s with bus := held (!want) ps ++ ⟨dt, want⟩ :: rest, time := s.time + n.dt }) := by
    rw [now_eq, hb]; rfl
  rw [hn]
  exact waitLoop_within want b (s.time + n.dt) 0 _ ps dt rest _ rfl hl
    (by simp [held_length]; omega) rfl hw

/-! ### The abort (60_exceptions R305) -/

theorem raiseAbort_eq (code : ErrKind) (reinit : Bool) (s : State) : raiseAbort code reinit s =
    finishPoll .aborted reinit
      ((releaseLine (s.setErr (if writesErr s.cfg code then code else s.err))).setMask false) := rfl

theorem raiseAbort_orderly (code : ErrKind) (reinit : Bool) (s : State) : Orderly s (raiseAbort code reinit s) := by
  refine ⟨⟨[.goto .idle, .line (s.time + (drawOf s.bus).dt) true .release], ?_, by simp⟩, fun h => ?_, fun _ => ?_⟩ <;>
    simp [raiseAbort_eq, releaseLine_eq]
  simp [h]

theorem finishPoll_orderly (oc : PollOutcome) (reinit : Bool) (s : State) : Orderly s (finishPoll oc reinit s) :=
  ⟨⟨[.goto .idle], by simp⟩, fun h => by simp [h], fun h => by simp [h]⟩

@[simp] theorem finishPoll_gotos (oc : PollOutcome) (reinit : Bool) (s : State) :
    (finishPoll oc reinit s).gotos = s.gotos ++ [.idle] :=
  gotos_append (es := [.goto .idle]) (by simp [finishPoll])

@[simp] theorem raiseAbort_gotos (code : ErrKind) (reinit : Bool) (s : State) :
    (raiseAbort code reinit s).gotos = s.gotos ++ [.idle] :=
  gotos_append (es := [.goto .idle, .line (s.time + (drawOf s.bus).dt) true .release])
    (by simp [raiseAbort_eq, releaseLine_eq])

/-! ### Slots -/

theorem slotAt_setSlot (s : State) (i j : Nat) (h : Option Handle) (hi : i < s.slots.length) :
    (s.setSlot i h).slotAt j = if j = i then h else s.slotAt j := by
  unfold State.slotAt State.setSlot
  by_cases hj : j = i
  · subst hj; simp [hi]
  · simp [hj, List.getElem?_set_ne (Ne.symm hj)]

/-- The fields a slot read depends on. -/
theorem slotAt_congr {s t : State} (h : t.slots = s.slots) (i : Nat) : t.slotAt i = s.slotAt i := by
  unfold State.slotAt; rw [h]

theorem occupied_congr {s t : State} (h : t.slots = s.slots) (hc : t.cfg = s.cfg) : t.occupied = s.occupied := by
  simp [State.occupied, State.slotAt, h, hc]

theorem slotBit_congr {s t : State} (h : t.slots = s.slots) (hd : t.devices = s.devices) :
    t.slotBit = s.slotBit := by
  funext i p
  simp [State.slotBit, State.slotAt, h, hd]

theorem mem_occupied {s : State} {i : Nat} : i ∈ s.occupied ↔ i < s.cfg.nMax ∧ s.Occupied i := by
  simp [State.occupied, State.Occupied]

theorem occupied_lt_length {s : State} {i : Nat} (h : s.Occupied i) : i < s.slots.length := by
  unfold State.Occupied State.slotAt at h
  by_contra hn
  simp [List.getElem?_eq_none (Nat.le_of_not_lt hn)] at h

theorem slotOf_eq_some {s : State} {h : Handle} {i : Nat} (hs : s.slotOf h = some i) :
    i < s.cfg.nMax ∧ s.slotAt i = some h := by
  have h1 := List.mem_of_find?_eq_some hs
  have h2 := List.find?_some hs
  exact ⟨List.mem_range.mp h1, by simpa using h2⟩

theorem slotOf_eq_none {s : State} {h : Handle} (hs : s.slotOf h = none) (i : Nat) (hi : i < s.cfg.nMax) :
    s.slotAt i ≠ some h := by
  have := List.find?_eq_none.mp hs i (List.mem_range.mpr hi)
  simpa using this

theorem freeSlot_eq_some {s : State} {i : Nat} (hs : s.freeSlot = some i) :
    i < s.cfg.nMax ∧ s.slotAt i = none := by
  have h1 := List.mem_of_find?_eq_some hs
  have h2 := List.find?_some hs
  exact ⟨List.mem_range.mp h1, by simpa using h2⟩

/-! ### Buffer memory (20_memory R85) -/

/-- Reading a byte back: the written address gives the value if it lies in a buffer; every other address is left
alone. -/
theorem Memory.read_write (m : Memory) (a b : Nat) (v : Byte) :
    (m.write a v).read b = if b = a then (m.read b).map fun _ => v else m.read b := by
  unfold Memory.read Memory.write
  induction m with
  | nil => simp
  | cons c m ih =>
    obtain ⟨x, y⟩ := c
    simp only [List.map_cons, List.lookup_cons]
    by_cases hx : x = a
    · subst hx
      by_cases hb : b = x
      · subst hb; simp
      · have hb' : (b == x) = false := by simpa using hb
        simp [hb, hb', List.lookup_cons, ih]
    · by_cases hb : b = x
      · subst hb; simp [hx]
      · have hb' : (b == x) = false := by simpa using hb
        simp [hx, hb', List.lookup_cons, ih]

theorem Memory.write_wf {m : Memory} (h : m.wf) (a : Nat) (v : Byte) : (m.write a v).wf := by
  unfold Memory.wf Memory.write
  rw [List.pairwise_map]
  refine h.imp ?_
  rintro ⟨x, _⟩ ⟨y, _⟩ hxy
  have hf : ∀ c : Host.Cell, (if c.1 = a then (a, v) else c).1 = c.1 := by
    intro c; split <;> simp_all
  rw [hf, hf]; exact hxy

theorem Memory.provide_wf {m : Memory} (h : m.wf) (a : Nat) (v : Byte) : (m.provide a v).wf := by
  induction m with
  | nil => simp [Memory.provide]
  | cons c m ih =>
    have hm := List.pairwise_cons.mp h
    unfold Memory.provide
    split
    · next hlt =>
      refine List.pairwise_cons.mpr ⟨?_, h⟩
      intro d hd
      rcases List.mem_cons.mp hd with rfl | hd
      · exact hlt
      · exact Nat.lt_trans hlt (hm.1 d hd)
    · split
      · next hne heq => exact List.pairwise_cons.mpr ⟨fun d hd => by simpa [heq] using hm.1 d hd, hm.2⟩
      · next hnlt hne =>
        refine List.pairwise_cons.mpr ⟨?_, ih hm.2⟩
        have key : ∀ (l : Memory), (∀ d ∈ l, c.1 < d.1) → ∀ d ∈ l.provide a v, c.1 < d.1 := by
          intro l
          induction l with
          | nil => intro _ d hd; simp [Memory.provide] at hd; subst hd; simp; omega
          | cons e l il =>
            intro hl d hd
            unfold Memory.provide at hd
            split at hd
            · rcases List.mem_cons.mp hd with rfl | hd
              · simp; omega
              · exact hl d hd
            · split at hd
              · rcases List.mem_cons.mp hd with rfl | hd
                · simp; omega
                · exact hl d (List.mem_cons_of_mem _ hd)
              · rcases List.mem_cons.mp hd with rfl | hd
                · exact hl d (by simp)
                · exact il (fun x hx => hl x (List.mem_cons_of_mem _ hx)) d hd
        exact key m hm.1

end Sys2Proof.Machine
end

