-- ==== Sys2Proof/Laws/Transport.lean ====
section
/-! SUPPORT. What the transport operations can do (43_transport): their frames, the latching of ERR (R208), and what they
do in slots that the master serves (R209). -/

namespace Sys2Proof.Machine

/-! ### Frames -/

/-- `t` is `s` but for what one bit of transport may change. -/
def BitOnly (s t : State) : Prop :=
  ∃ b τ tr m l e d, t = { s with bus := b, time := τ, trace := tr, imask := m, line := l, err := e, draws := d }

/-- `t` is `s` but for what the transport may change. -/
def TransportOnly (s t : State) : Prop :=
  ∃ b τ tr m l e d sh n, t = { s with
    bus := b, time := τ, trace := tr, imask := m, line := l, err := e, draws := d, tshift := sh, tbit := n }

theorem EnvOnly.bit {s t : State} (h : EnvOnly s t) : BitOnly s t := by
  obtain ⟨b, τ, tr, m, rfl⟩ := h
  exact ⟨b, τ, tr, m, s.line, s.err, s.draws, rfl⟩

theorem BitOnly.refl (s : State) : BitOnly s s := (EnvOnly.refl s).bit

theorem BitOnly.trans {s t u : State} (h : BitOnly s t) (k : BitOnly t u) : BitOnly s u := by
  obtain ⟨b, τ, tr, m, l, e, d, rfl⟩ := h
  obtain ⟨b', τ', tr', m', l', e', d', rfl⟩ := k
  exact ⟨b', τ', tr', m', l', e', d', rfl⟩

theorem BitOnly.transport {s t : State} (h : BitOnly s t) : TransportOnly s t := by
  obtain ⟨b, τ, tr, m, l, e, d, rfl⟩ := h
  exact ⟨b, τ, tr, m, l, e, d, s.tshift, s.tbit, rfl⟩

theorem TransportOnly.refl (s : State) : TransportOnly s s := (BitOnly.refl s).transport

theorem TransportOnly.trans {s t u : State} (h : TransportOnly s t) (k : TransportOnly t u) :
    TransportOnly s u := by
  obtain ⟨b, τ, tr, m, l, e, d, sh, n, rfl⟩ := h
  obtain ⟨b', τ', tr', m', l', e', d', sh', n', rfl⟩ := k
  exact ⟨b', τ', tr', m', l', e', d', sh', n', rfl⟩

/-- The byte registers of the transport may be set at any time. -/
theorem TransportOnly.regs (s : State) (sh n : Byte) : TransportOnly s (s.setByteRegs sh n) :=
  ⟨s.bus, s.time, s.trace, s.imask, s.line, s.err, s.draws, sh, n, rfl⟩

/-! What each frame leaves alone, field by field. -/

theorem TransportOnly.cfg {s t : State} (h : TransportOnly s t) : t.cfg = s.cfg := by
  obtain ⟨_, _, _, _, _, _, _, _, _, rfl⟩ := h; rfl

theorem TransportOnly.sel {s t : State} (h : TransportOnly s t) : t.sel = s.sel := by
  obtain ⟨_, _, _, _, _, _, _, _, _, rfl⟩ := h; rfl

theorem TransportOnly.count {s t : State} (h : TransportOnly s t) : t.count = s.count := by
  obtain ⟨_, _, _, _, _, _, _, _, _, rfl⟩ := h; rfl

theorem TransportOnly.fsm {s t : State} (h : TransportOnly s t) : t.fsm = s.fsm := by
  obtain ⟨_, _, _, _, _, _, _, _, _, rfl⟩ := h; rfl

theorem TransportOnly.treeRoot {s t : State} (h : TransportOnly s t) : t.treeRoot = s.treeRoot := by
  obtain ⟨_, _, _, _, _, _, _, _, _, rfl⟩ := h; rfl

theorem TransportOnly.treeNext {s t : State} (h : TransportOnly s t) : t.treeNext = s.treeNext := by
  obtain ⟨_, _, _, _, _, _, _, _, _, rfl⟩ := h; rfl

theorem TransportOnly.wpos {s t : State} (h : TransportOnly s t) : t.wpos = s.wpos := by
  obtain ⟨_, _, _, _, _, _, _, _, _, rfl⟩ := h; rfl

theorem TransportOnly.wnode {s t : State} (h : TransportOnly s t) : t.wnode = s.wnode := by
  obtain ⟨_, _, _, _, _, _, _, _, _, rfl⟩ := h; rfl

theorem TransportOnly.wrep {s t : State} (h : TransportOnly s t) : t.wrep = s.wrep := by
  obtain ⟨_, _, _, _, _, _, _, _, _, rfl⟩ := h; rfl

theorem TransportOnly.wtrig {s t : State} (h : TransportOnly s t) : t.wtrig = s.wtrig := by
  obtain ⟨_, _, _, _, _, _, _, _, _, rfl⟩ := h; rfl

theorem TransportOnly.maddr {s t : State} (h : TransportOnly s t) : t.maddr = s.maddr := by
  obtain ⟨_, _, _, _, _, _, _, _, _, rfl⟩ := h; rfl

theorem TransportOnly.slots {s t : State} (h : TransportOnly s t) : t.slots = s.slots := by
  obtain ⟨_, _, _, _, _, _, _, _, _, rfl⟩ := h; rfl

theorem TransportOnly.tree {s t : State} (h : TransportOnly s t) : t.tree = s.tree := by
  obtain ⟨_, _, _, _, _, _, _, _, _, rfl⟩ := h; rfl

theorem TransportOnly.mem {s t : State} (h : TransportOnly s t) : t.mem = s.mem := by
  obtain ⟨_, _, _, _, _, _, _, _, _, rfl⟩ := h; rfl

theorem TransportOnly.devices {s t : State} (h : TransportOnly s t) : t.devices = s.devices := by
  obtain ⟨_, _, _, _, _, _, _, _, _, rfl⟩ := h; rfl

theorem TransportOnly.duties {s t : State} (h : TransportOnly s t) : t.duties = s.duties := by
  obtain ⟨_, _, _, _, _, _, _, _, _, rfl⟩ := h; rfl

theorem TransportOnly.host {s t : State} (h : TransportOnly s t) : t.host = s.host := by
  obtain ⟨_, _, _, _, _, _, _, _, _, rfl⟩ := h; rfl

theorem TransportOnly.result {s t : State} (h : TransportOnly s t) : t.result = s.result := by
  obtain ⟨_, _, _, _, _, _, _, _, _, rfl⟩ := h; rfl

theorem TransportOnly.running {s t : State} (h : TransportOnly s t) : t.running = s.running := by
  obtain ⟨_, _, _, _, _, _, _, _, _, rfl⟩ := h; rfl

theorem BitOnly.tshift {s t : State} (h : BitOnly s t) : t.tshift = s.tshift := by
  obtain ⟨_, _, _, _, _, _, _, rfl⟩ := h; rfl

theorem BitOnly.tbit {s t : State} (h : BitOnly s t) : t.tbit = s.tbit := by
  obtain ⟨_, _, _, _, _, _, _, rfl⟩ := h; rfl

theorem Tidy.regs (s : State) (sh n : Byte) : Tidy s (s.setByteRegs sh n) := .of_eq rfl rfl rfl

theorem waitTimeSlot_frame (s : State) : EnvOnly s (waitTimeSlot s).2 := by
  unfold waitTimeSlot
  simp only
  split
  · exact (((now_frame s).trans (waitLine_frame _ _ _ _)).trans (now_frame _)).trans (waitLine_frame _ _ _ _)
  · exact (now_frame s).trans (waitLine_frame _ _ _ _)

theorem waitTimeSlot_tidy (s : State) : Tidy s (waitTimeSlot s).2 := by
  unfold waitTimeSlot
  simp only
  split
  · exact (((now_tidy s).trans (waitLine_tidy _ _ _ _)).trans (now_tidy _)).trans (waitLine_tidy _ _ _ _)
  · exact (now_tidy s).trans (waitLine_tidy _ _ _ _)

theorem latchSlotError_frame (w : SlotWait) (s : State) : BitOnly s (latchSlotError w s) := by
  cases w <;> exact ⟨s.bus, s.time, s.trace, s.imask, s.line, _, s.draws, rfl⟩

theorem latchSlotError_tidy (w : SlotWait) (s : State) : Tidy s (latchSlotError w s) := by
  cases w <;> exact .of_eq rfl rfl rfl

theorem pullLine_frame (s : State) : BitOnly s (pullLine s) :=
  ⟨_, _, _, _, _, _, _, pullLine_eq s⟩

theorem releaseLine_frame (s : State) : BitOnly s (releaseLine s) :=
  ⟨_, _, _, _, _, _, _, releaseLine_eq s⟩

theorem driveZero_frame (s : State) : BitOnly s (driveZero s) :=
  ((pullLine_frame s).trans (delay_frame _ _).bit).trans (releaseLine_frame _)

@[simp] theorem driveZero_bus (s : State) : (driveZero s).bus = s.bus.tail.tail.tail := by
  simp [driveZero, releaseLine_eq, delay_eq, pullLine_eq]
@[simp] theorem driveZero_line (s : State) : (driveZero s).line = ⟨false, false⟩ := by
  simp [driveZero, releaseLine_eq, delay_eq, pullLine_eq]
@[simp] theorem driveZero_err (s : State) : (driveZero s).err = s.err := by
  simp [driveZero, releaseLine_eq, delay_eq, pullLine_eq]
@[simp] theorem driveZero_imask (s : State) : (driveZero s).imask = false := by
  simp [driveZero, releaseLine_eq, delay_eq, pullLine_eq]

/-- The drive of a 0 lasts at least T_WRITE_ZERO (R202). -/
theorem driveZero_trace (s : State) : ∃ b e, (driveZero s).trace =
    .line e true .release :: .line b true .driveLow :: s.trace ∧ b + s.cfg.tWriteZero.toNat ≤ e :=
  ⟨_, _, by simp [driveZero, releaseLine_eq, delay_eq, pullLine_eq]; exact ⟨rfl, rfl⟩, by omega⟩

theorem driveZero_tidy (s : State) : Tidy s (driveZero s) := by
  obtain ⟨b, e, h, -⟩ := driveZero_trace s
  exact ⟨⟨⟨[_, _], h, by simp⟩, fun _ => by simp, fun _ => by simp⟩,
    (gotos_append (es := [_, _]) h).trans (List.append_nil _)⟩

theorem drawByte_tidy (s : State) : Tidy s (drawByte s).2 := .of_eq rfl rfl rfl

theorem drawBit_tidy (s : State) : Tidy s (drawBit s).2 := .of_eq rfl rfl rfl

theorem drawByte_frame (s : State) : BitOnly s (drawByte s).2 :=
  ⟨s.bus, s.time, s.trace, s.imask, s.line, s.err, _, rfl⟩

theorem drawBit_frame (s : State) : BitOnly s (drawBit s).2 :=
  ⟨s.bus, s.time, s.trace, s.imask, s.line, s.err, _, rfl⟩

/-! Each bit operation in the three outcomes of its slot wait. -/

theorem sendBit_of_ok {v : Bool} {s : State} (h : (waitTimeSlot s).1 = .ok) :
    sendBit v s = (true, if v then (waitTimeSlot s).2 else driveZero (waitTimeSlot s).2) := by
  unfold sendBit; dsimp only; rw [h]

theorem sendBit_of_timeout {v : Bool} {s : State} (h : (waitTimeSlot s).1 ≠ .ok) :
    sendBit v s = (false, latchSlotError (waitTimeSlot s).1 (waitTimeSlot s).2) := by
  unfold sendBit; revert h; generalize waitTimeSlot s = w
  rcases w with ⟨_ | _ | _, t⟩ <;> intro h
  · exact absurd rfl h
  · rfl
  · rfl

theorem recvBit_of_ok {s : State} (h : (waitTimeSlot s).1 = .ok) :
    recvBit s = ((true, lineLevel (delay s.cfg.tReadSample (waitTimeSlot s).2)),
      (sampleLine (delay s.cfg.tReadSample (waitTimeSlot s).2)).2) := by
  unfold recvBit; dsimp only; rw [h]; rfl

theorem recvBit_of_timeout {s : State} (h : (waitTimeSlot s).1 ≠ .ok) :
    recvBit s = ((false, (drawBit (latchSlotError (waitTimeSlot s).1 (waitTimeSlot s).2)).1),
      (drawBit (latchSlotError (waitTimeSlot s).1 (waitTimeSlot s).2)).2) := by
  unfold recvBit; revert h; generalize waitTimeSlot s = w
  rcases w with ⟨_ | _ | _, t⟩ <;> intro h
  · exact absurd rfl h
  · rfl
  · rfl

theorem latchSlotError_err {w : SlotWait} (h : w ≠ .ok) (s : State) :
    (latchSlotError w s).err = .readTimeslotTimeoutLow ∨ (latchSlotError w s).err = .readTimeslotTimeoutHigh := by
  cases w
  · exact absurd rfl h
  · exact .inl rfl
  · exact .inr rfl

theorem sendBit_frame (v : Bool) (s : State) : BitOnly s (sendBit v s).2 := by
  by_cases h : (waitTimeSlot s).1 = .ok
  · rw [sendBit_of_ok h]
    cases v
    · exact (waitTimeSlot_frame s).bit.trans (driveZero_frame _)
    · exact (waitTimeSlot_frame s).bit
  · rw [sendBit_of_timeout h]
    exact (waitTimeSlot_frame s).bit.trans (latchSlotError_frame _ _)

theorem sendBit_tidy (v : Bool) (s : State) : Tidy s (sendBit v s).2 := by
  by_cases h : (waitTimeSlot s).1 = .ok
  · rw [sendBit_of_ok h]
    cases v
    · exact (waitTimeSlot_tidy s).trans (driveZero_tidy _)
    · exact waitTimeSlot_tidy s
  · rw [sendBit_of_timeout h]
    exact (waitTimeSlot_tidy s).trans (latchSlotError_tidy _ _)

theorem recvBit_frame (s : State) : BitOnly s (recvBit s).2 := by
  by_cases h : (waitTimeSlot s).1 = .ok
  · rw [recvBit_of_ok h]
    exact (((waitTimeSlot_frame s).trans (delay_frame _ _)).trans (sampleLine_frame _)).bit
  · rw [recvBit_of_timeout h]
    exact ((waitTimeSlot_frame s).bit.trans (latchSlotError_frame _ _)).trans (drawBit_frame _)

theorem recvBit_tidy (s : State) : Tidy s (recvBit s).2 := by
  by_cases h : (waitTimeSlot s).1 = .ok
  · rw [recvBit_of_ok h]
    exact ((waitTimeSlot_tidy s).trans (delay_tidy _ _)).trans (sampleLine_tidy _)
  · rw [recvBit_of_timeout h]
    exact ((waitTimeSlot_tidy s).trans (latchSlotError_tidy _ _)).trans (drawBit_tidy _)

theorem sendBits_frame (n : Nat) (s : State) : TransportOnly s (sendBits n s).2 := by
  induction n generalizing s with
  | zero => exact .refl s
  | succ n ih =>
    simp only [sendBits]
    split
    · exact ((sendBit_frame _ s).transport.trans (.regs _ _ _)).trans (ih _)
    · exact (sendBit_frame _ s).transport

theorem sendBits_tidy (n : Nat) (s : State) : Tidy s (sendBits n s).2 := by
  induction n generalizing s with
  | zero => exact .refl s
  | succ n ih =>
    simp only [sendBits]
    split
    · exact ((sendBit_tidy _ s).trans (.regs _ _ _)).trans (ih _)
    · exact sendBit_tidy _ s

theorem sendByte_frame (b : Byte) (s : State) : TransportOnly s (sendByte b s).2 :=
  (TransportOnly.regs s b 0).trans (sendBits_frame 8 _)

theorem sendByte_tidy (b : Byte) (s : State) : Tidy s (sendByte b s).2 :=
  (Tidy.regs s b 0).trans (sendBits_tidy 8 _)

theorem recvBits_frame (n : Nat) (s : State) : TransportOnly s (recvBits n s).2 := by
  induction n generalizing s with
  | zero => exact .refl s
  | succ n ih =>
    simp only [recvBits]
    split
    · exact ((recvBit_frame s).transport.trans (.regs _ _ _)).trans (ih _)
    · exact (recvBit_frame s).transport

theorem recvBits_tidy (n : Nat) (s : State) : Tidy s (recvBits n s).2 := by
  induction n generalizing s with
  | zero => exact .refl s
  | succ n ih =>
    simp only [recvBits]
    split
    · exact ((recvBit_tidy s).trans (.regs _ _ _)).trans (ih _)
    · exact recvBit_tidy s

theorem recvByte_frame (s : State) : TransportOnly s (recvByte s).2 := by
  unfold recvByte
  simp only
  split
  · exact (TransportOnly.regs s 0 0).trans (recvBits_frame 8 _)
  · exact ((TransportOnly.regs s 0 0).trans (recvBits_frame 8 _)).trans (drawByte_frame _).transport

theorem recvByte_tidy (s : State) : Tidy s (recvByte s).2 := by
  unfold recvByte
  simp only
  split
  · exact (Tidy.regs s 0 0).trans (recvBits_tidy 8 _)
  · exact ((Tidy.regs s 0 0).trans (recvBits_tidy 8 _)).trans (drawByte_tidy _)

theorem sendBytes_frame {addr n j : Nat} {s : State} {r : Nat × State} (h : sendBytes addr n j s = .ok r) :
    TransportOnly s r.2 := by
  induction n generalizing s j with
  | zero => cases h; exact .refl s
  | succ n ih =>
    simp only [sendBytes] at h
    split at h
    · cases h
    · split at h
      · exact (sendByte_frame _ s).trans (ih h)
      · cases h; exact sendByte_frame _ s

theorem sendBytes_tidy {addr n j : Nat} {s : State} {r : Nat × State} (h : sendBytes addr n j s = .ok r) :
    Tidy s r.2 := by
  induction n generalizing s j with
  | zero => cases h; exact .refl s
  | succ n ih =>
    simp only [sendBytes] at h
    split at h
    · cases h
    · split at h
      · exact (sendByte_tidy _ s).trans (ih h)
      · cases h; exact sendByte_tidy _ s

/-- `t` is `s` but for what the transport and a write to buffer memory may change. -/
def BufferOnly (s t : State) : Prop := ∃ u m, TransportOnly s u ∧ t = { u with mem := m }

theorem TransportOnly.buffer {s t : State} (h : TransportOnly s t) : BufferOnly s t := ⟨t, t.mem, h, rfl⟩

theorem BufferOnly.trans {s t u : State} (h : BufferOnly s t) (k : BufferOnly t u) : BufferOnly s u := by
  obtain ⟨_, m, ⟨b, τ, tr, i, l, e, d, sh, n, rfl⟩, rfl⟩ := h
  obtain ⟨_, m', ⟨b', τ', tr', i', l', e', d', sh', n', rfl⟩, rfl⟩ := k
  exact ⟨_, m', ⟨b', τ', tr', i', l', e', d', sh', n', rfl⟩, rfl⟩

theorem BufferOnly.cfg {s t : State} (h : BufferOnly s t) : t.cfg = s.cfg := by
  obtain ⟨_, _, h, rfl⟩ := h; exact h.cfg

theorem BufferOnly.sel {s t : State} (h : BufferOnly s t) : t.sel = s.sel := by
  obtain ⟨_, _, h, rfl⟩ := h; exact h.sel

theorem BufferOnly.count {s t : State} (h : BufferOnly s t) : t.count = s.count := by
  obtain ⟨_, _, h, rfl⟩ := h; exact h.count

theorem BufferOnly.fsm {s t : State} (h : BufferOnly s t) : t.fsm = s.fsm := by
  obtain ⟨_, _, h, rfl⟩ := h; exact h.fsm

theorem BufferOnly.treeRoot {s t : State} (h : BufferOnly s t) : t.treeRoot = s.treeRoot := by
  obtain ⟨_, _, h, rfl⟩ := h; exact h.treeRoot

theorem BufferOnly.treeNext {s t : State} (h : BufferOnly s t) : t.treeNext = s.treeNext := by
  obtain ⟨_, _, h, rfl⟩ := h; exact h.treeNext

theorem BufferOnly.wpos {s t : State} (h : BufferOnly s t) : t.wpos = s.wpos := by
  obtain ⟨_, _, h, rfl⟩ := h; exact h.wpos

theorem BufferOnly.wnode {s t : State} (h : BufferOnly s t) : t.wnode = s.wnode := by
  obtain ⟨_, _, h, rfl⟩ := h; exact h.wnode

theorem BufferOnly.wrep {s t : State} (h : BufferOnly s t) : t.wrep = s.wrep := by
  obtain ⟨_, _, h, rfl⟩ := h; exact h.wrep

theorem BufferOnly.wtrig {s t : State} (h : BufferOnly s t) : t.wtrig = s.wtrig := by
  obtain ⟨_, _, h, rfl⟩ := h; exact h.wtrig

theorem BufferOnly.maddr {s t : State} (h : BufferOnly s t) : t.maddr = s.maddr := by
  obtain ⟨_, _, h, rfl⟩ := h; exact h.maddr

theorem BufferOnly.slots {s t : State} (h : BufferOnly s t) : t.slots = s.slots := by
  obtain ⟨_, _, h, rfl⟩ := h; exact h.slots

theorem BufferOnly.tree {s t : State} (h : BufferOnly s t) : t.tree = s.tree := by
  obtain ⟨_, _, h, rfl⟩ := h; exact h.tree

theorem BufferOnly.devices {s t : State} (h : BufferOnly s t) : t.devices = s.devices := by
  obtain ⟨_, _, h, rfl⟩ := h; exact h.devices

theorem BufferOnly.duties {s t : State} (h : BufferOnly s t) : t.duties = s.duties := by
  obtain ⟨_, _, h, rfl⟩ := h; exact h.duties

theorem BufferOnly.host {s t : State} (h : BufferOnly s t) : t.host = s.host := by
  obtain ⟨_, _, h, rfl⟩ := h; exact h.host

theorem BufferOnly.result {s t : State} (h : BufferOnly s t) : t.result = s.result := by
  obtain ⟨_, _, h, rfl⟩ := h; exact h.result

theorem BufferOnly.running {s t : State} (h : BufferOnly s t) : t.running = s.running := by
  obtain ⟨_, _, h, rfl⟩ := h; exact h.running

theorem smearByte_frame (a : Nat) (s : State) : BufferOnly s (smearByte a s) := by
  unfold smearByte
  simp only
  split
  · exact ⟨_, _, ⟨s.bus, s.time, s.trace, s.imask, s.line, s.err, s.draws + 2, s.tshift, s.tbit, rfl⟩, rfl⟩
  · exact ⟨_, s.mem, ⟨s.bus, s.time, s.trace, s.imask, s.line, s.err, s.draws + 2, s.tshift, s.tbit, rfl⟩, rfl⟩

theorem smearByte_tidy (a : Nat) (s : State) : Tidy s (smearByte a s) := by
  unfold smearByte
  simp only
  split <;> exact .of_eq rfl rfl rfl

theorem smearByte_read (a b : Nat) (s : State) (h : b ≠ a) : (smearByte a s).mem.read b = s.mem.read b := by
  unfold smearByte
  simp only
  split
  · rw [setMem_mem, Memory.read_write, if_neg h]; rfl
  · rfl

theorem smearByte_wf (a : Nat) (s : State) (h : s.mem.wf) : (smearByte a s).mem.wf := by
  unfold smearByte
  simp only
  split
  · exact Memory.write_wf h _ _
  · exact h

theorem Tidy.mem (s : State) (m : Memory) : Tidy s (s.setMem m) := .of_eq rfl rfl rfl

theorem recvByte_store_frame (s : State) (m : Memory) : BufferOnly s ((recvByte s).2.setMem m) :=
  ⟨_, m, recvByte_frame s, rfl⟩

theorem recvBytes_frame {addr n j : Nat} {s : State} {r : Nat × State} (h : recvBytes addr n j s = .ok r) :
    BufferOnly s r.2 := by
  induction n generalizing s j with
  | zero => cases h; exact (TransportOnly.refl s).buffer
  | succ n ih =>
    simp only [recvBytes] at h
    split at h
    · split at h
      · cases h
      · exact (recvByte_store_frame s _).trans (ih h)
    · cases h; exact (recvByte_frame s).buffer.trans (smearByte_frame _ _)

theorem recvBytes_tidy {addr n j : Nat} {s : State} {r : Nat × State} (h : recvBytes addr n j s = .ok r) :
    Tidy s r.2 := by
  induction n generalizing s j with
  | zero => cases h; exact .refl s
  | succ n ih =>
    simp only [recvBytes] at h
    split at h
    · split at h
      · cases h
      · exact ((recvByte_tidy s).trans (.mem _ _)).trans (ih h)
    · cases h; exact (recvByte_tidy s).trans (smearByte_tidy _ _)

theorem recvBytes_wf {addr n j : Nat} {s : State} {r : Nat × State} (h : recvBytes addr n j s = .ok r)
    (hw : s.mem.wf) : r.2.mem.wf := by
  induction n generalizing s j with
  | zero => cases h; exact hw
  | succ n ih =>
    have hm := (recvByte_frame s).mem
    simp only [recvBytes] at h
    split at h
    · split at h
      · cases h
      · exact ih h (Memory.write_wf (by rw [hm]; exact hw) _ _)
    · cases h; exact smearByte_wf _ _ (by rw [hm]; exact hw)

/-! ### ERR (R201, R208) -/

/-- What a transport call leaves in ERR: nothing new if it succeeded, one of the two time-slot codes if it failed. -/
def Latched (ok : Bool) (s t : State) : Prop :=
  match ok with
  | true => t.err = s.err
  | false => t.err = .readTimeslotTimeoutLow ∨ t.err = .readTimeslotTimeoutHigh

theorem Latched.ok {s t : State} (h : t.err = s.err) : Latched true s t := h

theorem Latched.failed {s t : State}
    (h : t.err = .readTimeslotTimeoutLow ∨ t.err = .readTimeslotTimeoutHigh) : Latched false s t := h

theorem Latched.after {ok : Bool} {s t u : State} (h : t.err = s.err) (k : Latched ok t u) : Latched ok s u := by
  cases ok
  · exact k
  · exact Eq.trans k h

theorem EnvOnly.err {s t : State} (h : EnvOnly s t) : t.err = s.err := by
  obtain ⟨_, _, _, _, rfl⟩ := h; rfl

theorem EnvOnly.cfg {s t : State} (h : EnvOnly s t) : t.cfg = s.cfg := by
  obtain ⟨_, _, _, _, rfl⟩ := h; rfl

theorem EnvOnly.line {s t : State} (h : EnvOnly s t) : t.line = s.line := by
  obtain ⟨_, _, _, _, rfl⟩ := h; rfl

theorem sendBit_latched (v : Bool) (s : State) : Latched (sendBit v s).1 s (sendBit v s).2 := by
  have hw := (waitTimeSlot_frame s).err
  by_cases h : (waitTimeSlot s).1 = .ok
  · rw [sendBit_of_ok h]
    cases v
    · exact Latched.ok ((driveZero_err _).trans hw)
    · exact Latched.ok hw
  · rw [sendBit_of_timeout h]
    exact Latched.failed (latchSlotError_err h _)

theorem recvBit_latched (s : State) : Latched (recvBit s).1.1 s (recvBit s).2 := by
  have hw := (waitTimeSlot_frame s).err
  by_cases h : (waitTimeSlot s).1 = .ok
  · rw [recvBit_of_ok h]
    exact Latched.ok (((sampleLine_frame _).err.trans (delay_frame _ _).err).trans hw)
  · rw [recvBit_of_timeout h]
    exact Latched.failed (latchSlotError_err h _)

theorem sendBits_latched (n : Nat) (s : State) : Latched (sendBits n s).1 s (sendBits n s).2 := by
  induction n generalizing s with
  | zero => rfl
  | succ n ih =>
    have hb := sendBit_latched (s.tshift.getLsbD 0) s
    simp only [sendBits]
    split
    · next h => rw [h] at hb; exact Latched.after hb (ih (State.setByteRegs _ _ _))
    · next h => rw [Bool.eq_false_iff.mpr h] at hb; exact hb

theorem recvBits_latched (n : Nat) (s : State) : Latched (recvBits n s).1 s (recvBits n s).2 := by
  induction n generalizing s with
  | zero => rfl
  | succ n ih =>
    have hb := recvBit_latched s
    simp only [recvBits]
    split
    · next h => rw [h] at hb; exact Latched.after hb (ih (State.setByteRegs _ _ _))
    · next h => rw [Bool.eq_false_iff.mpr h] at hb; exact hb

theorem sendByte_latched (b : Byte) (s : State) : Latched (sendByte b s).1 s (sendByte b s).2 :=
  Latched.after rfl (sendBits_latched 8 (s.setByteRegs b 0))

theorem recvByte_latched (s : State) : Latched (recvByte s).1.1 s (recvByte s).2 := by
  have h := Latched.after rfl (recvBits_latched 8 (s.setByteRegs 0 0)) (s := s)
  unfold recvByte
  simp only
  split
  · next hb => rw [hb] at h; exact h
  · next hb => rw [Bool.eq_false_iff.mpr hb] at h; exact h

/-! ### Served slots (R209) -/

theorem accesses_append (s : State) (es : List Event) (t : State) (h : t.trace = es ++ s.trace) :
    t.accesses = s.accesses ++ es.reverse.filterMap Event.access? := by
  simp [State.accesses, h]

/-- A slot wait whose slot the master starts (R200). -/
theorem waitTimeSlot_served {s : State} {start : List Draw} {as : List Access} (rest : List Draw)
    (h : SlotStart s.cfg start as) (hb : s.bus = start ++ rest) (hl : s.line = ⟨false, false⟩) :
    (waitTimeSlot s).1 = .ok ∧ (waitTimeSlot s).2.bus = rest ∧ (waitTimeSlot s).2.line = ⟨false, false⟩ ∧
    (waitTimeSlot s).2.accesses = s.accesses ++ as := by
  obtain ⟨n, lows, high, m, highs, fall, rfl, hw1, hw2, rfl⟩ := h
  have h1 : waitLine true (now s).1 s.cfg.tSlotLowMax (now s).2 = (true, afterWait true n lows high
      (m :: (held true highs ++ ⟨fall, false⟩ :: rest)) s) :=
    waitLine_within true _ (by rw [hb]; simp) (by rw [hl]) hw1
  generalize hu : afterWait true n lows high (m :: (held true highs ++ ⟨fall, false⟩ :: rest)) s = u at h1
  have h2 : waitLine false (now u).1 s.cfg.tSlotHighMax (now u).2 = (true, afterWait false m highs fall rest u) :=
    waitLine_within false _ (by rw [← hu]; rfl) (by rw [← hu]; simp [hl]) hw2
  have hw : waitTimeSlot s = (.ok, afterWait false m highs fall rest u) := by
    unfold waitTimeSlot
    dsimp only
    rw [h1]
    dsimp only
    rw [h2]
    rfl
  rw [hw]
  refine ⟨rfl, rfl, by rw [← hu]; simp [hl], ?_⟩
  rw [afterWait_accesses, ← hu, afterWait_accesses]
  simp

@[simp] theorem driveZero_accesses (s : State) :
    (driveZero s).accesses = s.accesses ++ [.driveLow, .release] := by
  obtain ⟨b, e, h, -⟩ := driveZero_trace s
  rw [accesses_append s [_, _] _ h]
  simp [Event.access?]

@[simp] theorem delay_accesses (t : Stamp) (s : State) : (delay t s).accesses = s.accesses := rfl
@[simp] theorem setByteRegs_accesses (s : State) (a b : Byte) : (s.setByteRegs a b).accesses = s.accesses := rfl

@[simp] theorem sampleLine_accesses (s : State) :
    (sampleLine s).2.accesses = s.accesses ++ [.sample (lineLevel s)] := by
  rw [sampleLine_eq, accesses_append s [_] _ rfl]
  simp [Event.access?]

/-- A served send: the ok bit, the slot used up, and the low drive exactly for a 0 (R202). -/
theorem sendBit_served {v : Bool} {s : State} {script : List Draw} {as : List Access} (rest : List Draw)
    (h : SendSlot s.cfg v script as) (hb : s.bus = script ++ rest) (hl : s.line = ⟨false, false⟩) :
    (sendBit v s).1 = true ∧ (sendBit v s).2.bus = rest ∧ (sendBit v s).2.line = ⟨false, false⟩ ∧
    (sendBit v s).2.accesses = s.accesses ++ as := by
  obtain ⟨start, waits, hs, hv⟩ := h
  cases v
  · obtain ⟨drive, low, up, rfl, rfl⟩ := hv
    obtain ⟨h1, h2, h3, h4⟩ := waitTimeSlot_served (drive :: low :: up :: rest) hs (by rw [hb]; simp) hl
    rw [sendBit_of_ok h1]
    simp [h2, h4]
  · obtain ⟨rfl, rfl⟩ := hv
    obtain ⟨h1, h2, h3, h4⟩ := waitTimeSlot_served rest hs hb hl
    rw [sendBit_of_ok h1]
    simp [h2, h3, h4]

/-- A served receive: the ok bit and the master's bit (R203). -/
theorem recvBit_served {v : Bool} {s : State} {script : List Draw} {as : List Access} (rest : List Draw)
    (h : RecvSlot s.cfg v script as) (hb : s.bus = script ++ rest) (hl : s.line = ⟨false, false⟩) :
    (recvBit s).1 = (true, v) ∧ (recvBit s).2.bus = rest ∧ (recvBit s).2.line = ⟨false, false⟩ ∧
    (recvBit s).2.accesses = s.accesses ++ as := by
  obtain ⟨start, waits, settle, read, hs, rfl, rfl⟩ := h
  obtain ⟨h1, h2, h3, h4⟩ := waitTimeSlot_served (settle :: ⟨read, v⟩ :: rest) hs (by rw [hb]; simp) hl
  have hv : lineLevel (delay s.cfg.tReadSample (waitTimeSlot s).2) = v := by
    simp [lineLevel, delay_eq, h2, h3, drawOf]
  rw [recvBit_of_ok h1, hv]
  exact ⟨rfl, by simp [sampleLine_eq, delay_eq, h2], by simp [sampleLine_eq, delay_eq, h3],
    by simp [h4, hv]⟩

theorem sendBit_tshift (v : Bool) (s : State) : (sendBit v s).2.tshift = s.tshift := (sendBit_frame v s).tshift
theorem sendBit_tbit (v : Bool) (s : State) : (sendBit v s).2.tbit = s.tbit := (sendBit_frame v s).tbit
theorem recvBit_tshift (s : State) : (recvBit s).2.tshift = s.tshift := (recvBit_frame s).tshift
theorem recvBit_tbit (s : State) : (recvBit s).2.tbit = s.tbit := (recvBit_frame s).tbit

/-- The n low bits of a byte, lowest first. -/
def lowBits (n : Nat) (b : Byte) : List Bool := (List.range n).map b.getLsbD

theorem lowBits_succ (n : Nat) (b : Byte) : lowBits (n + 1) b = b.getLsbD 0 :: lowBits n (b >>> 1) := by
  unfold lowBits
  rw [List.range_succ_eq_map, List.map_cons, List.map_map]
  congr 1
  refine List.map_congr_left fun j _ => ?_
  rw [BitVec.getLsbD_ushiftRight, Nat.add_comm]
  rfl

theorem Slots.append {slot : Bool → List Draw → List Access → Prop} (xs ys : List Bool) (script : List Draw)
    (as : List Access) : Slots slot (xs ++ ys) script as ↔
      ∃ d1 a1 d2 a2, Slots slot xs d1 a1 ∧ Slots slot ys d2 a2 ∧ script = d1 ++ d2 ∧ as = a1 ++ a2 := by
  induction xs generalizing script as with
  | nil =>
    constructor
    · intro h; exact ⟨[], [], script, as, ⟨rfl, rfl⟩, h, rfl, rfl⟩
    · rintro ⟨_, _, _, _, ⟨rfl, rfl⟩, h, rfl, rfl⟩; exact h
  | cons x xs ih =>
    constructor
    · rintro ⟨d1, a1, d2, a2, h1, h2, rfl, rfl⟩
      obtain ⟨e1, b1, e2, b2, h3, h4, rfl, rfl⟩ := (ih _ _).mp h2
      exact ⟨d1 ++ e1, a1 ++ b1, e2, b2, ⟨d1, a1, e1, b1, h1, h3, rfl, rfl⟩, h4, by simp, by simp⟩
    · rintro ⟨_, _, e2, b2, ⟨d1, a1, e1, b1, h1, h3, rfl, rfl⟩, h4, rfl, rfl⟩
      exact ⟨d1, a1, e1 ++ e2, b1 ++ b2, h1, (ih _ _).mpr ⟨e1, b1, e2, b2, h3, h4, rfl, rfl⟩, by simp, by simp⟩

theorem bytesBits_cons (b : Byte) (bytes : List Byte) : bytesBits (b :: bytes) = byteBits b ++ bytesBits bytes := by
  simp [bytesBits]

/-- Served sends of the n low bits of TSHIFT. -/
theorem sendBits_served (n : Nat) {s : State} {script : List Draw} {as : List Access} (rest : List Draw)
    (h : Slots (SendSlot s.cfg) (lowBits n s.tshift) script as) (hb : s.bus = script ++ rest)
    (hl : s.line = ⟨false, false⟩) :
    (sendBits n s).1 = true ∧ (sendBits n s).2.bus = rest ∧ (sendBits n s).2.line = ⟨false, false⟩ ∧
    (sendBits n s).2.accesses = s.accesses ++ as := by
  induction n generalizing s script as with
  | zero => obtain ⟨rfl, rfl⟩ := h; exact ⟨rfl, hb, hl, by simp [sendBits]⟩
  | succ n ih =>
    rw [lowBits_succ] at h
    obtain ⟨d1, a1, d2, a2, hd, hr, rfl, rfl⟩ := h
    obtain ⟨h1, h2, h3, h4⟩ := sendBit_served (d2 ++ rest) hd (by rw [hb, List.append_assoc]) hl
    have hsh := sendBit_tshift (s.tshift.getLsbD 0) s
    have hcf := (sendBit_frame (s.tshift.getLsbD 0) s).transport.cfg
    simp only [sendBits, h1, if_true]
    obtain ⟨i1, i2, i3, i4⟩ := ih (s := (sendBit (s.tshift.getLsbD 0) s).2.setByteRegs
        ((sendBit (s.tshift.getLsbD 0) s).2.tshift >>> 1) ((sendBit (s.tshift.getLsbD 0) s).2.tbit + 1))
      (by rw [setByteRegs_cfg, setByteRegs_tshift, hsh, hcf]; exact hr) h2 h3
    refine ⟨i1, i2, i3, i4.trans ?_⟩
    rw [setByteRegs_accesses, h4, List.append_assoc]

/-- A served SEND_BYTE: the eight bits of the byte, LSB first (R204, 20_memory R84). -/
theorem sendByte_served {b : Byte} {s : State} {script : List Draw} {as : List Access} (rest : List Draw)
    (h : Slots (SendSlot s.cfg) (byteBits b) script as) (hb : s.bus = script ++ rest)
    (hl : s.line = ⟨false, false⟩) :
    (sendByte b s).1 = true ∧ (sendByte b s).2.bus = rest ∧ (sendByte b s).2.line = ⟨false, false⟩ ∧
    (sendByte b s).2.accesses = s.accesses ++ as :=
  sendBits_served 8 (s := s.setByteRegs b 0) rest h hb hl

/-- TSHIFT holds the bits of `b` received so far, and TBIT counts them (R205). -/
def Assembling (b : Byte) (j : Nat) (s : State) : Prop :=
  s.tbit = BitVec.ofNat 8 j ∧ ∀ i, s.tshift.getLsbD i = (decide (i < j) && b.getLsbD i)

theorem assembleBit_getLsbD (sh bit : Byte) (v : Bool) (i : Nat) :
    (assembleBit sh bit v).getLsbD i = (sh.getLsbD i || (decide (i < 8) && (decide (i = bit.toNat) && v))) := by
  unfold assembleBit
  rw [BitVec.getLsbD_or, BitVec.getLsbD_shiftLeft]
  congr 1
  cases v
  · simp
  · by_cases h : i = bit.toNat
    · subst h; simp
    · by_cases h2 : i < bit.toNat
      · simp [h, h2]
      · have : i - bit.toNat ≠ 0 := by omega
        simp [h, h2, BitVec.getLsbD_one, this]

theorem Assembling.step {b : Byte} {j : Nat} {s : State} (h : Assembling b j s) (hj : j < 8) :
    Assembling b (j + 1) (s.setByteRegs (assembleBit s.tshift s.tbit (b.getLsbD j)) (s.tbit + 1)) := by
  obtain ⟨h1, h2⟩ := h
  refine ⟨?_, fun i => ?_⟩
  · rw [setByteRegs_tbit, h1, BitVec.ofNat_add]; rfl
  · rw [setByteRegs_tshift, assembleBit_getLsbD, h2, h1, BitVec.toNat_ofNat, Nat.mod_eq_of_lt (by omega)]
    by_cases hi : i = j
    · subst hi; simp [hj]
    · have : (i < j + 1) = (i < j) := by rw [eq_iff_iff]; omega
      simp [hi, this]

/-- Served receives of the bits of `b` from bit 8 − n on. -/
theorem recvBits_served (b : Byte) (n : Nat) {s : State} {script : List Draw} {as : List Access} (rest : List Draw)
    (hn : n ≤ 8) (h : Slots (RecvSlot s.cfg) (((List.range 8).drop (8 - n)).map b.getLsbD) script as)
    (hb : s.bus = script ++ rest) (hl : s.line = ⟨false, false⟩) (ha : Assembling b (8 - n) s) :
    (recvBits n s).1 = true ∧ (recvBits n s).2.bus = rest ∧ (recvBits n s).2.line = ⟨false, false⟩ ∧
    (recvBits n s).2.accesses = s.accesses ++ as ∧ Assembling b 8 (recvBits n s).2 := by
  induction n generalizing s script as with
  | zero => obtain ⟨rfl, rfl⟩ := h; exact ⟨rfl, hb, hl, (List.append_nil _).symm, ha⟩
  | succ n ih =>
    have hr : (List.range 8).drop (8 - (n + 1)) = (8 - (n + 1)) :: (List.range 8).drop (8 - n) := by
      rw [List.drop_eq_getElem_cons (by simp; omega)]
      simp only [List.getElem_range]
      congr 2; omega
    rw [hr, List.map_cons] at h
    obtain ⟨d1, a1, d2, a2, hd, hs, rfl, rfl⟩ := h
    obtain ⟨h1, h2, h3, h4⟩ := recvBit_served (d2 ++ rest) hd (by rw [hb, List.append_assoc]) hl
    have hf := recvBit_frame s
    have hst := ha.step (by omega)
    rw [show 8 - (n + 1) + 1 = 8 - n by omega] at hst
    simp only [recvBits, h1, if_true]
    obtain ⟨i1, i2, i3, i4, i5⟩ := ih (s := (recvBit s).2.setByteRegs
        (assembleBit (recvBit s).2.tshift (recvBit s).2.tbit (b.getLsbD (8 - (n + 1)))) ((recvBit s).2.tbit + 1))
      (by omega) (by rw [setByteRegs_cfg, hf.transport.cfg]; exact hs) h2 h3
      (by rw [hf.tshift, hf.tbit]; exact hst)
    refine ⟨i1, i2, i3, i4.trans ?_, i5⟩
    rw [setByteRegs_accesses, h4, List.append_assoc]

/-- A served RECV_BYTE gives the byte the master sent, LSB first (R205, 30_encoding R111). -/
theorem recvByte_served {b : Byte} {s : State} {script : List Draw} {as : List Access} (rest : List Draw)
    (h : Slots (RecvSlot s.cfg) (byteBits b) script as) (hb : s.bus = script ++ rest)
    (hl : s.line = ⟨false, false⟩) :
    (recvByte s).1 = (true, b) ∧ (recvByte s).2.bus = rest ∧ (recvByte s).2.line = ⟨false, false⟩ ∧
    (recvByte s).2.accesses = s.accesses ++ as ∧
    (recvByte s).2.tshift = b ∧ (recvByte s).2.tbit = 8 := by
  obtain ⟨h1, h2, h3, h4, h5, h6⟩ := recvBits_served b 8 (s := s.setByteRegs 0 0) rest (Nat.le_refl _) h hb hl
    ⟨rfl, fun i => by simp⟩
  have hsh : (recvBits 8 (s.setByteRegs 0 0)).2.tshift = b := by
    apply BitVec.eq_of_getLsbD_eq
    intro i hi
    rw [h6 i]; simp [hi]
  have hr : recvByte s = ((true, (recvBits 8 (s.setByteRegs 0 0)).2.tshift), (recvBits 8 (s.setByteRegs 0 0)).2) := by
    unfold recvByte; dsimp only; rw [if_pos h1]
  rw [hr]
  exact ⟨by rw [hsh], h2, h3, h4, hsh, h5⟩

/-- Whenever RECV_BYTE succeeds, the byte is in TSHIFT and TBIT is 8 (10_state R40). -/
theorem recvBits_tbit (n : Nat) (s : State) (h : (recvBits n s).1 = true) :
    (recvBits n s).2.tbit = s.tbit + BitVec.ofNat 8 n := by
  induction n generalizing s with
  | zero => simp [recvBits]
  | succ n ih =>
    simp only [recvBits] at h ⊢
    split at h
    · next hb =>
      rw [if_pos hb, ih _ h, setByteRegs_tbit, recvBit_tbit, BitVec.add_assoc, BitVec.ofNat_add, BitVec.add_comm 1]
      rfl
    · cases h

theorem recvByte_ok {s : State} (h : (recvByte s).1.1 = true) :
    (recvByte s).1.2 = (recvByte s).2.tshift ∧ (recvByte s).2.tbit = 8 := by
  by_cases hb : (recvBits 8 (s.setByteRegs 0 0)).1 = true
  · have hr : recvByte s =
        ((true, (recvBits 8 (s.setByteRegs 0 0)).2.tshift), (recvBits 8 (s.setByteRegs 0 0)).2) := by
      unfold recvByte; dsimp only; rw [if_pos hb]
    rw [hr]
    exact ⟨rfl, by rw [recvBits_tbit 8 _ hb]; rfl⟩
  · have hr : (recvByte s).1.1 = false := by
      unfold recvByte; dsimp only; rw [if_neg hb]
    rw [hr] at h; cases h

/-! ### Slots that do not come (R200, R201) -/

theorem sampleLine_onlySamples (s : State) : ∃ as, (sampleLine s).2.accesses = s.accesses ++ as ∧ OnlySamples as :=
  ⟨[.sample (lineLevel s)], sampleLine_accesses s, by intro a ha; simp at ha; exact ⟨_, ha⟩⟩

theorem OnlySamples.append {as bs : List Access} (h : OnlySamples as) (k : OnlySamples bs) : OnlySamples (as ++ bs) := by
  intro a ha
  rcases List.mem_append.mp ha with ha | ha
  · exact h a ha
  · exact k a ha

theorem waitLoop_onlySamples (want : Bool) (t0 b : Stamp) (n : Nat) (s : State) :
    ∃ as, (waitLoop want t0 b n s).2.accesses = s.accesses ++ as ∧ OnlySamples as := by
  induction n generalizing s with
  | zero => exact ⟨[], by rw [List.append_nil]; rfl, by intro a ha; cases ha⟩
  | succ n ih =>
    obtain ⟨as, h1, h2⟩ := sampleLine_onlySamples s
    simp only [waitLoop]
    split
    · exact ⟨as, h1, h2⟩
    · split
      · exact ⟨as, h1, h2⟩
      · obtain ⟨bs, h3, h4⟩ := ih (now (sampleLine s).2).2
        refine ⟨as ++ bs, h3.trans ?_, h2.append h4⟩
        rw [← List.append_assoc, ← h1]; rfl

/-- A slot wait samples the line and does nothing else on it (R200). -/
theorem waitTimeSlot_onlySamples (s : State) :
    ∃ as, (waitTimeSlot s).2.accesses = s.accesses ++ as ∧ OnlySamples as := by
  have hn : ∀ u : State, (now u).2.accesses = u.accesses := fun _ => rfl
  obtain ⟨as, h1, h2⟩ := waitLoop_onlySamples true (now s).1 s.cfg.tSlotLowMax ((now s).2.bus.length + 1) (now s).2
  rw [hn] at h1
  unfold waitTimeSlot
  dsimp only
  unfold waitLine at *
  generalize waitLoop true (now s).1 s.cfg.tSlotLowMax ((now s).2.bus.length + 1) (now s).2 = w at h1 ⊢
  split
  · obtain ⟨bs, h3, h4⟩ := waitLoop_onlySamples false (now w.2).1 s.cfg.tSlotHighMax ((now w.2).2.bus.length + 1) (now w.2).2
    rw [hn] at h3
    exact ⟨as ++ bs, by dsimp only; rw [h3, h1, List.append_assoc], h2.append h4⟩
  · exact ⟨as, h1, h2⟩

theorem setErr_accesses (e : ErrKind) (s : State) : (s.setErr e).accesses = s.accesses := rfl

/-- A slot wait on a stuck line fails with the code of the half that failed (R201). -/
theorem waitTimeSlot_stuck {s : State} {e : ErrKind} (h : StuckTail s.cfg s.bus e) (hl : s.line.dir = false) :
    ((waitTimeSlot s).1 = .timeoutLow ∧ e = .readTimeslotTimeoutLow) ∨
    ((waitTimeSlot s).1 = .timeoutHigh ∧ e = .readTimeslotTimeoutHigh) := by
  rcases h with ⟨n, ps, rest, hb, hne, ht, he⟩ | ⟨n, lows, high, m, ps, rest, hb, hw, hne, ht, he⟩
  · left
    have h1 := waitLine_held true s.cfg.tSlotLowMax n ps rest s hb hl hne ht
    refine ⟨?_, he⟩
    unfold waitTimeSlot
    dsimp only
    rw [if_neg (by rw [h1]; simp)]
  · right
    have h1 := waitLine_within true s.cfg.tSlotLowMax hb hl hw
    have h2 := waitLine_held false s.cfg.tSlotHighMax m ps rest
      (afterWait true n lows high (m :: (held true ps ++ rest)) s) rfl hl hne ht
    refine ⟨?_, he⟩
    unfold waitTimeSlot
    dsimp only
    rw [h1]
    dsimp only
    rw [if_pos rfl]
    dsimp only
    rw [if_neg (by rw [h2]; simp)]

theorem sendBit_stuck {v : Bool} {s : State} {e : ErrKind} (h : StuckTail s.cfg s.bus e) (hl : s.line.dir = false) :
    (sendBit v s).1 = false ∧ (sendBit v s).2.err = e ∧
    ∃ as, (sendBit v s).2.accesses = s.accesses ++ as ∧ OnlySamples as := by
  have hs := waitTimeSlot_onlySamples s
  rcases waitTimeSlot_stuck h hl with ⟨hw, rfl⟩ | ⟨hw, rfl⟩ <;>
    rw [sendBit_of_timeout (by rw [hw]; simp), hw] <;> exact ⟨rfl, rfl, hs⟩

theorem recvBit_stuck {s : State} {e : ErrKind} (h : StuckTail s.cfg s.bus e) (hl : s.line.dir = false) :
    (recvBit s).1.1 = false ∧ (recvBit s).2.err = e ∧
    ∃ as, (recvBit s).2.accesses = s.accesses ++ as ∧ OnlySamples as := by
  have hs := waitTimeSlot_onlySamples s
  rcases waitTimeSlot_stuck h hl with ⟨hw, rfl⟩ | ⟨hw, rfl⟩ <;>
    rw [recvBit_of_timeout (by rw [hw]; simp), hw] <;> exact ⟨rfl, rfl, hs⟩

/-- A byte whose first m bits are served and whose next slot does not come (R204). -/
theorem sendBits_partial (n m : Nat) (hm : m < n) {s : State} {script tail : List Draw} {sent : List Access} {e : ErrKind}
    (h : Slots (SendSlot s.cfg) (lowBits m s.tshift) script sent) (hb : s.bus = script ++ tail)
    (hl : s.line = ⟨false, false⟩) (ht : StuckTail s.cfg tail e) :
    (sendBits n s).1 = false ∧ (sendBits n s).2.err = e ∧ (sendBits n s).2.tbit = s.tbit + BitVec.ofNat 8 m ∧
    (sendBits n s).2.tshift = s.tshift >>> m ∧
    ∃ as, (sendBits n s).2.accesses = s.accesses ++ sent ++ as ∧ OnlySamples as := by
  induction m generalizing n s script sent with
  | zero =>
    obtain ⟨n, rfl⟩ := Nat.exists_eq_succ_of_ne_zero (by omega : n ≠ 0)
    obtain ⟨rfl, rfl⟩ := h
    have hb' : s.bus = tail := hb
    obtain ⟨h1, h2, as, h3, h4⟩ := sendBit_stuck (v := s.tshift.getLsbD 0) (s := s) (by rw [hb']; exact ht) (by rw [hl])
    simp only [sendBits]
    rw [if_neg (by rw [h1]; simp)]
    refine ⟨rfl, h2, by simp [sendBit_tbit], by simp [sendBit_tshift], as, ?_, h4⟩
    rw [h3]; simp
  | succ m ih =>
    obtain ⟨n, rfl⟩ := Nat.exists_eq_succ_of_ne_zero (by omega : n ≠ 0)
    rw [lowBits_succ] at h
    obtain ⟨d1, a1, d2, a2, hd, hr, rfl, rfl⟩ := h
    obtain ⟨h1, h2, h3, h4⟩ := sendBit_served (d2 ++ tail) hd (by rw [hb, List.append_assoc]) hl
    have hsh := sendBit_tshift (s.tshift.getLsbD 0) s
    have hbt := sendBit_tbit (s.tshift.getLsbD 0) s
    have hcf := (sendBit_frame (s.tshift.getLsbD 0) s).transport.cfg
    simp only [sendBits, h1, if_true]
    obtain ⟨i1, i2, i3, i4, as, i5, i6⟩ := ih n (by omega) (s := (sendBit (s.tshift.getLsbD 0) s).2.setByteRegs
        ((sendBit (s.tshift.getLsbD 0) s).2.tshift >>> 1) ((sendBit (s.tshift.getLsbD 0) s).2.tbit + 1))
      (by rw [setByteRegs_cfg, setByteRegs_tshift, hsh, hcf]; exact hr) h2 h3
      (by rw [setByteRegs_cfg, hcf]; exact ht)
    refine ⟨i1, i2, ?_, ?_, as, ?_, i6⟩
    · rw [i3, setByteRegs_tbit, hbt, BitVec.add_assoc, BitVec.ofNat_add, BitVec.add_comm 1]; rfl
    · rw [i4, setByteRegs_tshift, hsh, ← BitVec.shiftRight_add, Nat.add_comm]
    · rw [i5, setByteRegs_accesses, h4]; simp

/-- Received bits and then a slot that does not come (R205). -/
theorem recvBits_partial (n : Nat) (bits : List Bool) (hm : bits.length < n) {s : State} {script tail : List Draw}
    {got : List Access} {e : ErrKind} (h : Slots (RecvSlot s.cfg) bits script got) (hb : s.bus = script ++ tail)
    (hl : s.line = ⟨false, false⟩) (ht : StuckTail s.cfg tail e) :
    (recvBits n s).1 = false ∧ (recvBits n s).2.err = e ∧
    ∃ as, (recvBits n s).2.accesses = s.accesses ++ got ++ as ∧ OnlySamples as := by
  induction bits generalizing n s script got with
  | nil =>
    obtain ⟨n, rfl⟩ := Nat.exists_eq_succ_of_ne_zero (by simp at hm; omega : n ≠ 0)
    obtain ⟨rfl, rfl⟩ := h
    have hb' : s.bus = tail := hb
    obtain ⟨h1, h2, as, h3, h4⟩ := recvBit_stuck (s := s) (by rw [hb']; exact ht) (by rw [hl])
    simp only [recvBits]
    rw [if_neg (by rw [h1]; simp)]
    exact ⟨rfl, h2, as, by rw [h3]; simp, h4⟩
  | cons v bits ih =>
    obtain ⟨n, rfl⟩ := Nat.exists_eq_succ_of_ne_zero (by simp at hm; omega : n ≠ 0)
    obtain ⟨d1, a1, d2, a2, hd, hr, rfl, rfl⟩ := h
    obtain ⟨h1, h2, h3, h4⟩ := recvBit_served (d2 ++ tail) hd (by rw [hb, List.append_assoc]) hl
    have hcf := (recvBit_frame s).transport.cfg
    simp only [recvBits, h1, if_true]
    obtain ⟨i1, i2, as, i3, i4⟩ := ih n (by simp at hm; omega) (s := (recvBit s).2.setByteRegs
        (assembleBit (recvBit s).2.tshift (recvBit s).2.tbit v) ((recvBit s).2.tbit + 1))
      (by rw [setByteRegs_cfg, hcf]; exact hr) h2 h3 (by rw [setByteRegs_cfg, hcf]; exact ht)
    exact ⟨i1, i2, as, by rw [i3, setByteRegs_accesses, h4]; simp, i4⟩

theorem lowBits_byteBits (b : Byte) (m : Nat) (h : m ≤ 8) : lowBits m b = (byteBits b).take m := by
  unfold lowBits byteBits
  rw [← List.map_take, List.take_range, Nat.min_eq_left h]

/-- A failed RECV_BYTE, for whatever reason its loop failed. -/
theorem recvByte_of_failed {s : State} (h : (recvBits 8 (s.setByteRegs 0 0)).1 = false) :
    recvByte s = ((false, (drawByte (recvBits 8 (s.setByteRegs 0 0)).2).1), (drawByte (recvBits 8 (s.setByteRegs 0 0)).2).2) := by
  unfold recvByte; dsimp only; rw [if_neg (by rw [h]; simp)]

/-- RECV_BYTE of which fewer than eight slots come (R205). -/
theorem recvByte_stuck {bits : List Bool} {s : State} {script tail : List Draw} {got : List Access} {e : ErrKind}
    (hm : bits.length < 8) (h : Slots (RecvSlot s.cfg) bits script got) (hb : s.bus = script ++ tail)
    (hl : s.line = ⟨false, false⟩) (ht : StuckTail s.cfg tail e) :
    (recvByte s).1.1 = false ∧ (recvByte s).2.err = e ∧
    ∃ as, (recvByte s).2.accesses = s.accesses ++ got ++ as ∧ OnlySamples as := by
  obtain ⟨h1, h2, h3⟩ := recvBits_partial 8 bits hm (s := s.setByteRegs 0 0) h hb hl ht
  rw [recvByte_of_failed h1]
  exact ⟨rfl, h2, h3⟩

/-! ### Buffers (R206, R207) -/

/-- SEND_BUF served for n bytes from byte j on: it goes on with the bytes after them (R206). -/
theorem sendBytes_served (addr n j : Nat) (s : State) (bytes : List Byte) {script : List Draw} {as : List Access}
    (rest : List Draw) (hn : bytes.length = n) (hm : ∀ i < n, s.mem.read (addr + j + i) = bytes[i]?)
    (h : Slots (SendSlot s.cfg) (bytesBits bytes) script as) (hb : s.bus = script ++ rest)
    (hl : s.line = ⟨false, false⟩) :
    ∃ t, (∀ r, sendBytes addr (n + r) j s = sendBytes addr r (j + n) t) ∧ TransportOnly s t ∧ t.bus = rest ∧ t.line = ⟨false, false⟩ ∧ t.err = s.err ∧
      t.accesses = s.accesses ++ as := by
  induction n generalizing j s bytes script as with
  | zero =>
    obtain rfl := List.length_eq_zero_iff.mp hn
    obtain ⟨rfl, rfl⟩ := h
    exact ⟨s, fun r => by rw [Nat.zero_add]; rfl, .refl s, hb, hl, rfl, by simp⟩
  | succ n ih =>
    obtain ⟨b, bytes, rfl⟩ := List.exists_cons_of_length_eq_add_one hn
    rw [bytesBits_cons, Slots.append] at h
    obtain ⟨d1, a1, d2, a2, hd, hs, rfl, rfl⟩ := h
    obtain ⟨h1, h2, h3, h4⟩ := sendByte_served (d2 ++ rest) hd (by rw [hb, List.append_assoc]) hl
    have hf := sendByte_frame b s
    have he := sendByte_latched b s
    rw [h1] at he
    have hr : s.mem.read (addr + j) = some b := by simpa using hm 0 (by omega)
    obtain ⟨t, i1, i0, i2, i3, i4, i5⟩ := ih (j + 1) (sendByte b s).2 bytes
      (by simpa using hn)
      (fun i hi => by
        rw [hf.mem, show addr + (j + 1) + i = addr + j + (i + 1) by omega, hm (i + 1) (by omega)]; rfl)
      (by rw [hf.cfg]; exact hs) h2 h3
    refine ⟨t, fun r => ?_, hf.trans i0, i2, i3, i4.trans he, ?_⟩
    · rw [show n + 1 + r = (n + r) + 1 by omega, show j + (n + 1) = j + 1 + n by omega, ← i1 r]
      simp only [sendBytes, hr, h1, if_true]
    rw [i5, h4, List.append_assoc]

/-- RECV_BUF served for n bytes from byte j on: it goes on with the bytes after them (R207). -/
theorem recvBytes_served (addr n j : Nat) (s : State) (bytes : List Byte) {script : List Draw} {as : List Access}
    (rest : List Draw) (hn : bytes.length = n) (hm : ∀ i < n, (s.mem.read (addr + j + i)).isSome)
    (h : Slots (RecvSlot s.cfg) (bytesBits bytes) script as) (hb : s.bus = script ++ rest)
    (hl : s.line = ⟨false, false⟩) :
    ∃ t, (∀ r, recvBytes addr (n + r) j s = recvBytes addr r (j + n) t) ∧ BufferOnly s t ∧ t.bus = rest ∧ t.line = ⟨false, false⟩ ∧ t.err = s.err ∧
      t.accesses = s.accesses ++ as ∧
      ∀ a, t.mem.read a = if addr + j ≤ a ∧ a < addr + j + n then bytes[a - (addr + j)]? else s.mem.read a := by
  induction n generalizing j s bytes script as with
  | zero =>
    obtain rfl := List.length_eq_zero_iff.mp hn
    obtain ⟨rfl, rfl⟩ := h
    exact ⟨s, fun r => by rw [Nat.zero_add]; rfl, (TransportOnly.refl s).buffer, hb, hl, rfl, by simp, fun a => by rw [if_neg (by omega)]⟩
  | succ n ih =>
    obtain ⟨b, bytes, rfl⟩ := List.exists_cons_of_length_eq_add_one hn
    rw [bytesBits_cons, Slots.append] at h
    obtain ⟨d1, a1, d2, a2, hd, hs, rfl, rfl⟩ := h
    obtain ⟨h1, h2, h3, h4, -, -⟩ := recvByte_served (d2 ++ rest) hd (by rw [hb, List.append_assoc]) hl
    have hf := recvByte_frame s
    have he := recvByte_latched s
    rw [h1] at he
    obtain ⟨old, hold⟩ := Option.isSome_iff_exists.mp (hm 0 (by omega))
    rw [Nat.add_zero] at hold
    have hr : (recvByte s).2.mem.read (addr + j) = some old := by rw [hf.mem]; exact hold
    have hw : ∀ a, ((recvByte s).2.mem.write (addr + j) b).read a =
        if a = addr + j then some b else s.mem.read a := by
      intro a
      rw [Memory.read_write, hf.mem]
      split
      · next h => rw [h, hold]; rfl
      · rfl
    obtain ⟨t, i1, i0, i2, i3, i4, i5, i6⟩ := ih (j + 1) ((recvByte s).2.setMem ((recvByte s).2.mem.write (addr + j) b))
      bytes (by simpa using hn)
      (fun i hi => by
        rw [setMem_mem, hw, if_neg (by omega), show addr + (j + 1) + i = addr + j + (i + 1) by omega]
        exact hm (i + 1) (by omega))
      (by rw [setMem_cfg, hf.cfg]; exact hs) h2 h3
    refine ⟨t, fun r => ?_, (recvByte_store_frame s _).trans i0, i2, i3, i4.trans he, ?_, fun a => ?_⟩
    · rw [show n + 1 + r = (n + r) + 1 by omega, show j + (n + 1) = j + 1 + n by omega, ← i1 r]
      simp only [recvBytes, h1, if_true, hr]
    · rw [i5]
      show (recvByte s).2.accesses ++ _ = _
      rw [h4, List.append_assoc]
    · rw [i6 a, setMem_mem, hw]
      by_cases ha : a = addr + j
      · rw [if_neg (by omega), if_pos ha, if_pos (by omega), ha, Nat.sub_self]; rfl
      · rw [if_neg ha]
        by_cases h : addr + (j + 1) ≤ a ∧ a < addr + (j + 1) + n
        · rw [if_pos h, if_pos (by omega), show a - (addr + j) = (a - (addr + (j + 1))) + 1 by omega]; rfl
        · rw [if_neg h, if_neg (by omega)]

end Sys2Proof.Machine
end

