-- ==== Sys2Proof/Laws/Buffers.lean ====
section
/-! SUPPORT. What the operations on a caller's buffer can do (20_memory R85): when they complete, where they are refused,
and what a successful receive leaves of the free values. -/

namespace Sys2Proof.Machine

/-! ### Reading a range -/

theorem readRange_ok (m : Memory) (n a : Nat) (h : ∀ j < n, (m.read (a + j)).isSome) :
    ∃ bs, m.readRange a n = .ok bs ∧ bs.length = n ∧ ∀ j < n, m.read (a + j) = bs[j]? := by
  induction n generalizing a with
  | zero => exact ⟨[], rfl, rfl, by simp⟩
  | succ n ih =>
    obtain ⟨b, hb⟩ := Option.isSome_iff_exists.mp (h 0 (by omega))
    rw [Nat.add_zero] at hb
    have e : ∀ j, a + (j + 1) = a + 1 + j := fun j => by omega
    obtain ⟨bs, h1, h2, h3⟩ := ih (a + 1) fun j hj => by rw [← e]; exact h _ (by omega)
    refine ⟨b :: bs, by unfold Memory.readRange; rw [hb]; dsimp only; rw [h1]; rfl, by simp [h2], fun j hj => ?_⟩
    cases j with
    | zero => simpa using hb
    | succ j => rw [e, h3 j (by omega)]; simp

theorem readRange_error {m : Memory} {n a x : Nat} (h : m.readRange a n = .error x) :
    ∃ j < n, x = a + j ∧ m.read (a + j) = none := by
  induction n generalizing a with
  | zero => cases h
  | succ n ih =>
    have e : ∀ j, a + (j + 1) = a + 1 + j := fun j => by omega
    unfold Memory.readRange at h
    split at h
    · next hn => cases h; exact ⟨0, by omega, rfl, hn⟩
    · cases hr : m.readRange (a + 1) n with
      | ok l => rw [hr] at h; cases h
      | error y =>
        rw [hr] at h; cases h
        obtain ⟨j, h1, h2, h3⟩ := ih hr
        exact ⟨j + 1, by omega, by omega, by rw [e]; exact h3⟩

/-- The first address of the range outside every buffer is the one refused. -/
theorem readRange_first {m : Memory} {n a j : Nat} (hj : j < n) (hn : m.read (a + j) = none)
    (hs : ∀ i < j, (m.read (a + i)).isSome) : m.readRange a n = .error (a + j) := by
  induction n generalizing a j with
  | zero => omega
  | succ n ih =>
    have e : ∀ i, a + (i + 1) = a + 1 + i := fun i => by omega
    unfold Memory.readRange
    cases j with
    | zero => rw [Nat.add_zero] at hn; rw [hn]; rfl
    | succ j =>
      obtain ⟨b, hb⟩ := Option.isSome_iff_exists.mp (hs 0 (by omega))
      rw [Nat.add_zero] at hb
      rw [hb]
      dsimp only
      have hx := ih (a := a + 1) (j := j) (by omega) (by rwa [← e]) fun i hi => by rw [← e]; exact hs _ (by omega)
      rw [hx, e j]
      rfl

/-! ### SEND_BUF and RECV_BUF -/

theorem sendBytes_total (addr n j : Nat) (s : State) (h : ∀ i < n, (s.mem.read (addr + j + i)).isSome) :
    ∃ r, sendBytes addr n j s = .ok r := by
  induction n generalizing j s with
  | zero => exact ⟨_, rfl⟩
  | succ n ih =>
    obtain ⟨b, hb⟩ := Option.isSome_iff_exists.mp (h 0 (by omega))
    rw [Nat.add_zero] at hb
    unfold sendBytes
    rw [hb]
    dsimp only
    split
    · refine ih _ _ fun i hi => ?_
      rw [(sendByte_frame b s).mem, show addr + (j + 1) + i = addr + j + (i + 1) by omega]
      exact h _ (by omega)
    · exact ⟨_, rfl⟩

theorem sendBytes_error {addr n j : Nat} {s : State} {x : Nat} (h : sendBytes addr n j s = .error x) :
    ∃ i < n, x = addr + j + i ∧ s.mem.read x = none := by
  induction n generalizing j s with
  | zero => cases h
  | succ n ih =>
    unfold sendBytes at h
    split at h
    · next hn => cases h; exact ⟨0, by omega, rfl, hn⟩
    · next b hb =>
      dsimp only at h
      split at h
      · obtain ⟨i, h1, h2, h3⟩ := ih h
        rw [(sendByte_frame b s).mem] at h3
        exact ⟨i + 1, by omega, by omega, h3⟩
      · cases h

theorem recvBytes_total (addr n j : Nat) (s : State) (h : ∀ i < n, (s.mem.read (addr + j + i)).isSome) :
    ∃ r, recvBytes addr n j s = .ok r := by
  induction n generalizing j s with
  | zero => exact ⟨_, rfl⟩
  | succ n ih =>
    obtain ⟨b, hb⟩ := Option.isSome_iff_exists.mp (h 0 (by omega))
    rw [Nat.add_zero] at hb
    have hm := (recvByte_frame s).mem
    unfold recvBytes
    dsimp only
    split
    · rw [hm, hb]
      dsimp only
      refine ih _ _ fun i hi => ?_
      have h' := h (i + 1) (by omega)
      simp only [setMem_mem, Memory.read_write]
      rw [show addr + (j + 1) + i = addr + j + (i + 1) by omega]
      split <;> simpa [hm] using h'
    · exact ⟨_, rfl⟩

theorem recvBytes_error {addr n j : Nat} {s : State} {x : Nat} (h : recvBytes addr n j s = .error x) :
    ∃ i < n, x = addr + j + i ∧ s.mem.read x = none := by
  induction n generalizing j s with
  | zero => cases h
  | succ n ih =>
    have hm := (recvByte_frame s).mem
    unfold recvBytes at h
    dsimp only at h
    split at h
    · split at h
      · next hn => cases h; rw [hm] at hn; exact ⟨0, by omega, rfl, hn⟩
      · obtain ⟨i, h1, h2, h3⟩ := ih h
        refine ⟨i + 1, by omega, by omega, ?_⟩
        simp only [setMem_mem, hm, Memory.read_write] at h3
        rwa [if_neg (by omega)] at h3
    · cases h

/-- RECV_BUF writes only addresses of its range, and makes no address readable or unreadable (R207). -/
theorem recvBytes_mem {addr n j : Nat} {s : State} {r : Nat × State} (h : recvBytes addr n j s = .ok r) :
    (∀ x, x < addr + j ∨ addr + j + n ≤ x → r.2.mem.read x = s.mem.read x) ∧
    ∀ x, (r.2.mem.read x).isSome = (s.mem.read x).isSome := by
  induction n generalizing j s with
  | zero => cases h; exact ⟨fun _ _ => rfl, fun _ => rfl⟩
  | succ n ih =>
    have hm := (recvByte_frame s).mem
    unfold recvBytes at h
    dsimp only at h
    split at h
    · split at h
      · cases h
      · obtain ⟨i1, i2⟩ := ih h
        refine ⟨fun x hx => ?_, fun x => ?_⟩
        · rw [i1 x (by omega)]
          simp only [setMem_mem, hm, Memory.read_write]
          rw [if_neg (by omega)]
        · rw [i2 x]
          simp only [setMem_mem, hm, Memory.read_write]
          split <;> simp
    · cases h
      refine ⟨fun x hx => by rw [smearByte_read _ _ _ (by omega), hm], fun x => ?_⟩
      unfold smearByte
      dsimp only
      split
      · simp only [setMem_mem, drawBit, drawByte, setDraws_mem, hm, Memory.read_write]
        split <;> simp
      · simp [drawBit, drawByte, hm]

/-- SEND_BUF counts only bytes of a buffer, and no more than it was asked for (R85, R206). -/
theorem sendBytes_counted {addr n j : Nat} {s : State} {r : Nat × State} (h : sendBytes addr n j s = .ok r) :
    r.1 ≤ j + n ∧ ∀ i, j ≤ i → i < r.1 → (s.mem.read (addr + i)).isSome := by
  induction n generalizing j s with
  | zero => cases h; exact ⟨Nat.le_refl _, fun i h1 h2 => absurd h2 (Nat.not_lt.mpr h1)⟩
  | succ n ih =>
    unfold sendBytes at h
    split at h
    · cases h
    · next b hb =>
      dsimp only at h
      split at h
      · obtain ⟨h1, h2⟩ := ih h
        rw [(sendByte_frame b s).mem] at h2
        refine ⟨by omega, fun i h3 h4 => ?_⟩
        rcases Nat.eq_or_lt_of_le h3 with rfl | h3
        · rw [hb]; rfl
        · exact h2 i h3 h4
      · cases h; exact ⟨by dsimp only; omega, fun i h1 h2 => absurd h2 (Nat.not_lt.mpr h1)⟩

/-- RECV_BUF counts only bytes of a buffer, and no more than it was asked for (R85, R207). -/
theorem recvBytes_counted {addr n j : Nat} {s : State} {r : Nat × State} (h : recvBytes addr n j s = .ok r) :
    r.1 ≤ j + n ∧ ∀ i, j ≤ i → i < r.1 → (s.mem.read (addr + i)).isSome := by
  induction n generalizing j s with
  | zero => cases h; exact ⟨Nat.le_refl _, fun i h1 h2 => absurd h2 (Nat.not_lt.mpr h1)⟩
  | succ n ih =>
    have hm := (recvByte_frame s).mem
    unfold recvBytes at h
    dsimp only at h
    split at h
    · split at h
      · cases h
      · next b hb =>
        obtain ⟨h1, h2⟩ := ih h
        rw [hm] at hb
        refine ⟨by omega, fun i h3 h4 => ?_⟩
        rcases Nat.eq_or_lt_of_le h3 with rfl | h3
        · rw [hb]; rfl
        · have := h2 i h3 h4
          simp only [setMem_mem, hm, Memory.read_write] at this
          rwa [if_neg (by omega)] at this
    · cases h; exact ⟨by dsimp only; omega, fun i h1 h2 => absurd h2 (Nat.not_lt.mpr h1)⟩

/-! ### A successful receive draws no free value -/

theorem recvBit_draws {s : State} (h : (recvBit s).1.1 = true) : (recvBit s).2.draws = s.draws := by
  cases hw : (waitTimeSlot s).1 with
  | ok =>
    rw [recvBit_of_ok hw]
    obtain ⟨_, _, _, _, e⟩ := waitTimeSlot_frame s
    simp [sampleLine_eq, delay_eq, e]
  | timeoutLow => rw [recvBit_of_timeout (by rw [hw]; decide)] at h; cases h
  | timeoutHigh => rw [recvBit_of_timeout (by rw [hw]; decide)] at h; cases h

theorem recvBits_draws {n : Nat} {s : State} (h : (recvBits n s).1 = true) : (recvBits n s).2.draws = s.draws := by
  induction n generalizing s with
  | zero => rfl
  | succ n ih =>
    unfold recvBits at h ⊢
    dsimp only at h ⊢
    split at h
    · next hr => rw [if_pos hr, ih h]; exact recvBit_draws hr
    · cases h

theorem recvByte_draws {s : State} (h : (recvByte s).1.1 = true) : (recvByte s).2.draws = s.draws := by
  unfold recvByte at h ⊢
  dsimp only at h ⊢
  split at h
  · next hr => rw [if_pos hr, recvBits_draws hr]; rfl
  · cases h

end Sys2Proof.Machine
end

