-- ==== Sys2Proof/Laws/Handshake.lean ====
section
/-! SUPPORT. What reset detection and the presence pulse can do (42_bus_handshake): their frame, their outcomes, and the
outcomes on given line scripts. -/

namespace Sys2Proof.Machine

/-! ### Frames -/

/-- `t` is `s` but for what the handshake may change. -/
def HandshakeOnly (s t : State) : Prop :=
  ∃ b τ tr m l v, t = { s with bus := b, time := τ, trace := tr, imask := m, line := l, sel := v }

theorem HandshakeOnly.refl (s : State) : HandshakeOnly s s := ⟨s.bus, s.time, s.trace, s.imask, s.line, s.sel, rfl⟩

theorem HandshakeOnly.trans {s t u : State} (h : HandshakeOnly s t) (k : HandshakeOnly t u) : HandshakeOnly s u := by
  obtain ⟨b, τ, tr, m, l, v, rfl⟩ := h
  obtain ⟨b', τ', tr', m', l', v', rfl⟩ := k
  exact ⟨b', τ', tr', m', l', v', rfl⟩

theorem EnvOnly.handshake {s t : State} (h : EnvOnly s t) : HandshakeOnly s t := by
  obtain ⟨b, τ, tr, m, rfl⟩ := h
  exact ⟨b, τ, tr, m, s.line, s.sel, rfl⟩

theorem EnvOnly.sel {s t : State} (h : EnvOnly s t) : t.sel = s.sel := by
  obtain ⟨_, _, _, _, rfl⟩ := h; rfl

theorem HandshakeOnly.cfg {s t : State} (h : HandshakeOnly s t) : t.cfg = s.cfg := by
  obtain ⟨_, _, _, _, _, _, rfl⟩ := h; rfl
theorem HandshakeOnly.err {s t : State} (h : HandshakeOnly s t) : t.err = s.err := by
  obtain ⟨_, _, _, _, _, _, rfl⟩ := h; rfl
theorem HandshakeOnly.result {s t : State} (h : HandshakeOnly s t) : t.result = s.result := by
  obtain ⟨_, _, _, _, _, _, rfl⟩ := h; rfl
theorem HandshakeOnly.running {s t : State} (h : HandshakeOnly s t) : t.running = s.running := by
  obtain ⟨_, _, _, _, _, _, rfl⟩ := h; rfl

theorem releaseLine_handshake (s : State) : HandshakeOnly s (releaseLine s) :=
  ⟨_, _, _, _, _, _, releaseLine_eq s⟩
theorem pullLine_handshake (s : State) : HandshakeOnly s (pullLine s) :=
  ⟨_, _, _, _, _, _, pullLine_eq s⟩
theorem releaseLine_dir (s : State) : (releaseLine s).line = ⟨false, s.line.out⟩ := rfl

/-! ### Outcomes of reset detection (R184) -/

/-- What the second half of ResetDetect, and so ResetDetect, can answer from `s`. -/
def ResetCases (s : State) (p : Proc ResetVerdict) : Prop :=
  (∃ t, p = .done .noReset t ∧ HandshakeOnly s t ∧ Tidy s t ∧ t.sel = s.sel) ∨
  (∃ t, p = .done .resetOk t ∧ HandshakeOnly s t ∧ Tidy s t ∧ t.sel = noneByte) ∨
  (∃ code t, p = .abort code t ∧ HandshakeOnly s t ∧ Tidy s t ∧ t.sel = s.sel ∧
    (code = .veryLongReset ∨ code = .veryShortReset))

theorem ResetCases.after {s t : State} {p : Proc ResetVerdict} (h : HandshakeOnly s t) (ht : Tidy s t)
    (hs : t.sel = s.sel) (k : ResetCases t p) : ResetCases s p := by
  rcases k with ⟨u, h1, h2, h3, h4⟩ | ⟨u, h1, h2, h3, h4⟩ | ⟨code, u, h1, h2, h3, h4, h5⟩
  · exact .inl ⟨u, h1, h.trans h2, ht.trans h3, h4.trans hs⟩
  · exact .inr (.inl ⟨u, h1, h.trans h2, ht.trans h3, h4⟩)
  · exact .inr (.inr ⟨code, u, h1, h.trans h2, ht.trans h3, h4.trans hs, h5⟩)

theorem acceptReset_cases (s : State) : ResetCases s (acceptReset s) :=
  .inr (.inl ⟨_, rfl, ⟨s.bus, s.time, s.trace, s.imask, s.line, noneByte, rfl⟩, .of_eq rfl rfl rfl, rfl⟩)

theorem measureLow_cases (high : Bool) (s : State) : ResetCases s (measureLow high s) := by
  have fr := (now_frame s).trans (waitLine_frame true (now s).1 s.cfg.tResetMax (now s).2)
  have ti := (now_tidy s).trans (waitLine_tidy true (now s).1 s.cfg.tResetMax (now s).2)
  have fn := fr.trans (now_frame _)
  have tn := ti.trans (now_tidy _)
  unfold measureLow
  dsimp only
  split
  · split
    · split
      · exact .inr (.inr ⟨_, _, rfl, fn.handshake, tn, fn.sel, .inr rfl⟩)
      · split
        · exact .inl ⟨_, rfl, fn.handshake, tn, fn.sel⟩
        · exact .after fn.handshake tn fn.sel (acceptReset_cases _)
    · exact .after fn.handshake tn fn.sel (acceptReset_cases _)
  · exact .inr (.inr ⟨_, _, rfl, fr.handshake, ti, fr.sel, .inl rfl⟩)

/-- ResetDetect (R184 to R189): no reset, a reset that clears SEL, or one of the two reset errors. -/
theorem resetDetect_cases (s : State) : ResetCases s (resetDetect s) := by
  have fe := (releaseLine_handshake s).trans (sampleLine_frame (releaseLine s)).handshake
  have te := (releaseLine_tidy s).trans (sampleLine_tidy (releaseLine s))
  have se : (sampleLine (releaseLine s)).2.sel = s.sel := (sampleLine_frame (releaseLine s)).sel
  unfold resetDetect
  dsimp only
  generalize sampleLine (releaseLine s) = e at fe te se ⊢
  split
  · have fn := now_frame e.2
    have tn := now_tidy e.2
    generalize now e.2 = n at fn tn ⊢
    have fw := fn.trans (waitLine_frame false n.1 s.cfg.tResetWait n.2)
    have tw := tn.trans (waitLine_tidy false n.1 s.cfg.tResetWait n.2)
    generalize waitLine false n.1 s.cfg.tResetWait n.2 = w at fw tw ⊢
    split
    · exact .after (fe.trans fw.handshake) (te.trans tw) (fw.sel.trans se) (measureLow_cases _ _)
    · exact .inl ⟨_, rfl, fe.trans fw.handshake, te.trans tw, fw.sel.trans se⟩
  · exact .after fe te se (measureLow_cases _ _)

/-! ### Outcomes of the presence pulse (R190, R191) -/

/-- The line of the presence pulse, driven low and released again. -/
def presencePulse (s : State) : State :=
  releaseLine (delay s.cfg.tPresenceLowStd (pullLine (delay s.cfg.tPresenceHighStd s)))

theorem presencePulse_frame (s : State) : HandshakeOnly s (presencePulse s) :=
  (((delay_frame _ s).handshake.trans (pullLine_handshake _)).trans (delay_frame _ _).handshake).trans
    (releaseLine_handshake _)

theorem presencePulse_trace (s : State) : ∃ a b : Nat,
    (presencePulse s).trace = .line a true .release :: .line b true .driveLow :: s.trace :=
  ⟨_, _, by simp [presencePulse, releaseLine_eq, delay_eq, pullLine_eq]; exact ⟨rfl, rfl⟩⟩

theorem presencePulse_tidy (s : State) : Tidy s (presencePulse s) := by
  obtain ⟨a, b, h⟩ := presencePulse_trace s
  exact ⟨⟨⟨[_, _], h, by simp⟩, fun _ => rfl, fun _ => rfl⟩,
    (gotos_append (es := [_, _]) h).trans (List.append_nil _)⟩

theorem presencePulse_bus (s : State) : (presencePulse s).bus = s.bus.tail.tail.tail.tail := by
  simp [presencePulse, releaseLine_eq, delay_eq, pullLine_eq]

theorem presencePulse_line (s : State) : (presencePulse s).line = ⟨false, false⟩ := rfl

theorem presencePulse_sel (s : State) : (presencePulse s).sel = s.sel := by
  simp [presencePulse, releaseLine_eq, delay_eq, pullLine_eq]

theorem presence_eq (s : State) : presence s =
    if (waitLine true (now (presencePulse s)).1 s.cfg.tPresenceHighMax (now (presencePulse s)).2).1
    then .done () (waitLine true (now (presencePulse s)).1 s.cfg.tPresenceHighMax (now (presencePulse s)).2).2
    else .abort .veryLongReset
      (waitLine true (now (presencePulse s)).1 s.cfg.tPresenceHighMax (now (presencePulse s)).2).2 := by
  unfold presence presencePulse; rfl

theorem presence_cases (s : State) :
    (∃ t, presence s = .done () t ∧ HandshakeOnly s t ∧ Tidy s t ∧ t.sel = s.sel) ∨
    (∃ t, presence s = .abort .veryLongReset t ∧ HandshakeOnly s t ∧ Tidy s t ∧ t.sel = s.sel) := by
  have fp := presencePulse_frame s
  have tp := presencePulse_tidy s
  have sp := presencePulse_sel s
  rw [presence_eq]
  generalize presencePulse s = u at fp tp sp ⊢
  have fw := (now_frame u).trans (waitLine_frame true (now u).1 s.cfg.tPresenceHighMax (now u).2)
  have tw := (now_tidy u).trans (waitLine_tidy true (now u).1 s.cfg.tPresenceHighMax (now u).2)
  generalize waitLine true (now u).1 s.cfg.tPresenceHighMax (now u).2 = w at fw tw ⊢
  split
  · exact .inl ⟨_, rfl, fp.trans fw.handshake, tp.trans tw, fw.sel.trans sp⟩
  · exact .inr ⟨_, rfl, fp.trans fw.handshake, tp.trans tw, fw.sel.trans sp⟩

end Sys2Proof.Machine
end

