-- ==== Sys2Proof/Laws/Tree.lean ====
section
/-! SUPPORT. The decision tree builder (41_decision_tree): what BuildSub allocates and what its nodes mean
(R164, R165, R166, R171). -/

namespace Sys2Proof.Machine

/-! ### Groups and classes -/

theorem mem_group {bit : Nat → Nat → Bool} {p : Nat} {v : Bool} {S : List Nat} {i : Nat} :
    i ∈ group bit p v S ↔ i ∈ S ∧ bit i p = v := by
  simp [group]

theorem group_length_le (bit : Nat → Nat → Bool) (p : Nat) (v : Bool) (S : List Nat) :
    (group bit p v S).length ≤ S.length := List.length_filter_le _ _

theorem group_lengths (bit : Nat → Nat → Bool) (p : Nat) (S : List Nat) :
    (group bit p false S).length + (group bit p true S).length = S.length := by
  induction S with
  | nil => rfl
  | cons i S ih =>
    unfold group at *
    cases h : bit i p <;> simp [h] at ih ⊢ <;> omega

/-- If one group is empty the other is everything. -/
theorem group_eq_self {bit : Nat → Nat → Bool} {p : Nat} {v : Bool} {S : List Nat}
    (h : group bit p (!v) S = []) : group bit p v S = S := by
  unfold group at *
  rw [List.filter_eq_self]
  intro i hi
  have := List.filter_eq_nil_iff.mp h i hi
  revert this
  cases bit i p <;> cases v <;> simp

/-- The last `left` bits of the identifier in slot i, from position 64 − left on. -/
def keyBits (bit : Nat → Nat → Bool) : Nat → Nat → List Bool
  | 0, _ => []
  | left + 1, i => bit i (63 - left) :: keyBits bit left i

/-- How many different identifiers, from position 64 − left on, the slots of `S` hold: K' of R165. -/
def classes (bit : Nat → Nat → Bool) (left : Nat) (S : List Nat) : Nat :=
  (S.toFinset.image (keyBits bit left)).card

theorem classes_le (bit : Nat → Nat → Bool) (left : Nat) (S : List Nat) : classes bit left S ≤ S.length :=
  Finset.card_image_le.trans (List.toFinset_card_le S)

theorem classes_pos {bit : Nat → Nat → Bool} {left : Nat} {S : List Nat} (h : S ≠ []) :
    1 ≤ classes bit left S := by
  obtain ⟨i, hi⟩ := List.exists_mem_of_ne_nil S h
  exact Finset.card_pos.mpr ⟨_, Finset.mem_image_of_mem _ (List.mem_toFinset.mpr hi)⟩

theorem classes_zero {bit : Nat → Nat → Bool} {S : List Nat} (h : S ≠ []) : classes bit 0 S = 1 := by
  refine Nat.le_antisymm ?_ (classes_pos h)
  refine Finset.card_le_one.mpr ?_
  intro a ha b hb
  obtain ⟨_, _, rfl⟩ := Finset.mem_image.mp ha
  obtain ⟨_, _, rfl⟩ := Finset.mem_image.mp hb
  rfl

/-- A divergence point splits the classes (R165). -/
theorem classes_split (bit : Nat → Nat → Bool) (left : Nat) (S : List Nat) :
    classes bit (left + 1) S =
      classes bit left (group bit (63 - left) true S) + classes bit left (group bit (63 - left) false S) := by
  have hS : S.toFinset.image (keyBits bit (left + 1)) =
      ((group bit (63 - left) true S).toFinset.image (keyBits bit left)).image (true :: ·) ∪
      ((group bit (63 - left) false S).toFinset.image (keyBits bit left)).image (false :: ·) := by
    ext l
    simp only [Finset.mem_image, Finset.mem_union, List.mem_toFinset, mem_group]
    constructor
    · rintro ⟨i, hi, rfl⟩
      cases h : bit i (63 - left)
      · exact .inr ⟨_, ⟨i, ⟨hi, h⟩, rfl⟩, by simp [keyBits, h]⟩
      · exact .inl ⟨_, ⟨i, ⟨hi, h⟩, rfl⟩, by simp [keyBits, h]⟩
    · rintro (⟨_, ⟨i, ⟨hi, h⟩, rfl⟩, rfl⟩ | ⟨_, ⟨i, ⟨hi, h⟩, rfl⟩, rfl⟩) <;>
        exact ⟨i, hi, by simp [keyBits, h]⟩
  have hd : Disjoint
      (((group bit (63 - left) true S).toFinset.image (keyBits bit left)).image (true :: ·))
      (((group bit (63 - left) false S).toFinset.image (keyBits bit left)).image (false :: ·)) := by
    rw [Finset.disjoint_left]
    intro l h1 h2
    obtain ⟨_, _, rfl⟩ := Finset.mem_image.mp h1
    obtain ⟨_, _, h⟩ := Finset.mem_image.mp h2
    simp at h
  unfold classes
  rw [hS, Finset.card_union_of_disjoint hd,
    Finset.card_image_of_injective _ (fun a b h => (List.cons.inj h).2),
    Finset.card_image_of_injective _ (fun a b h => (List.cons.inj h).2)]

/-- A position where all agree adds no class (R163 step 3). -/
theorem classes_agree {bit : Nat → Nat → Bool} {left : Nat} {S : List Nat}
    (h : ¬(group bit (63 - left) false S ≠ [] ∧ group bit (63 - left) true S ≠ [])) :
    classes bit (left + 1) S = classes bit left S := by
  rw [classes_split]
  by_cases h0 : group bit (63 - left) false S = []
  · rw [h0, group_eq_self (v := true) h0]; simp [classes]
  · have h1 : group bit (63 - left) true S = [] := by
      by_contra h1; exact h ⟨h0, h1⟩
    rw [h1, group_eq_self (v := false) h1]; simp [classes]

/-! ### What a node represents -/

/-- Node `n` of `nodes` is what BuildSub(64 − left, S) allocates (R163, R171): where the slots of S diverge, a node at
that position with both subtrees; where they agree, whatever the next position needs; at the end, a leaf. -/
def Represents (nodes : List Node) (bit : Nat → Nat → Bool) : Nat → List Nat → Byte → Prop
  | 0, S, n => nodes[n.toNat]? = some (Node.leaf (minSlot S))
  | left + 1, S, n =>
    if group bit (63 - left) false S ≠ [] ∧ group bit (63 - left) true S ≠ [] then
      ∃ zero one, nodes[n.toNat]? = some ⟨BitVec.ofNat 8 (63 - left), minSlot S, zero, one⟩ ∧
        zero ≠ noChild ∧ one ≠ noChild ∧
        Represents nodes bit left (group bit (63 - left) false S) zero ∧
        Represents nodes bit left (group bit (63 - left) true S) one
    else Represents nodes bit left S n

/-- The node's representative is the lowest slot, and its position is not below 64 − left. -/
theorem Represents.node {nodes : List Node} {bit : Nat → Nat → Bool} {left : Nat} {S : List Nat} {n : Byte}
    (h : Represents nodes bit left S n) (hl : left ≤ 64) :
    ∃ node, nodes[n.toNat]? = some node ∧ node.rep = minSlot S ∧ 64 - left ≤ node.pos.toNat := by
  induction left generalizing S with
  | zero => exact ⟨_, h, rfl, Nat.le_of_ble_eq_true rfl⟩
  | succ left ih =>
    unfold Represents at h
    split at h
    · obtain ⟨zero, one, hn, -⟩ := h
      exact ⟨_, hn, rfl, by simp only [BitVec.toNat_ofNat]; omega⟩
    · obtain ⟨node, h1, h2, h3⟩ := ih h (by omega)
      exact ⟨node, h1, h2, by omega⟩

/-! ### The build -/

theorem Arena.put_length (a : Arena) (n : Byte) (node : Node) : (a.put n node).nodes.length = a.nodes.length := by
  simp [Arena.put]

/-- All that BuildSub does (R163 to R166, R171): it numbers its nodes from the bump index on, in pre-order, allocates
2·K' − 1 of them, leaves every other entry alone, and the entries it allocated represent `S`. -/
theorem buildSub_spec (bit : Nat → Nat → Bool) (left : Nat) (S : List Nat) (a : Arena) (hS : S ≠ [])
    (hroom : a.next.toNat + (2 * S.length - 1) ≤ a.nodes.length) (hsize : a.nodes.length ≤ 253) :
    (buildSub bit left S a).1 = a.next ∧
    (buildSub bit left S a).2.nodes.length = a.nodes.length ∧
    (buildSub bit left S a).2.next.toNat = a.next.toNat + (2 * classes bit left S - 1) ∧
    (∀ i, i < a.next.toNat ∨ (buildSub bit left S a).2.next.toNat ≤ i →
      (buildSub bit left S a).2.nodes[i]? = a.nodes[i]?) ∧
    (∀ nodes : List Node,
      (∀ i, a.next.toNat ≤ i → i < (buildSub bit left S a).2.next.toNat →
        nodes[i]? = (buildSub bit left S a).2.nodes[i]?) →
      Represents nodes bit left S a.next) := by
  have hlen : 1 ≤ S.length := List.length_pos_iff.mpr hS
  induction left generalizing S a with
  | zero =>
    have hnext : (a.next + 1).toNat = a.next.toNat + 1 := by
      rw [BitVec.toNat_add]; simp; omega
    refine ⟨rfl, by simp [buildSub, Arena.put], ?_, ?_, ?_⟩
    · simp only [buildSub, classes_zero hS]; exact hnext
    · intro i hi
      simp only [buildSub, hnext] at hi
      simp only [buildSub, Arena.put]
      rw [List.getElem?_set_ne (by omega)]
    · intro nodes hn
      simp only [buildSub] at hn
      rw [Represents, hn _ (Nat.le_refl _) (by rw [hnext]; omega)]
      simp only [Arena.put]
      rw [List.getElem?_set_self (by omega)]
  | succ left ih =>
    by_cases hd : group bit (63 - left) false S ≠ [] ∧ group bit (63 - left) true S ≠ []
    · obtain ⟨hz, ho⟩ := hd
      have hlz : 1 ≤ (group bit (63 - left) false S).length := List.length_pos_iff.mpr hz
      have hlo : 1 ≤ (group bit (63 - left) true S).length := List.length_pos_iff.mpr ho
      have hsum := group_lengths bit (63 - left) S
      have hcz := classes_le bit left (group bit (63 - left) false S)
      have hco := classes_le bit left (group bit (63 - left) true S)
      have hpz := classes_pos (bit := bit) (left := left) hz
      have hpo := classes_pos (bit := bit) (left := left) ho
      have hnext : (a.next + 1).toNat = a.next.toNat + 1 := by
        rw [BitVec.toNat_add]; simp; omega
      -- the one-subtree
      have h1 := ih (group bit (63 - left) true S) ⟨a.nodes, a.next + 1⟩ ho
        (by simp only [hnext]; omega) hsize hlo
      simp only at h1
      generalize hone : buildSub bit left (group bit (63 - left) true S) ⟨a.nodes, a.next + 1⟩ = one at h1
      obtain ⟨e1, l1, n1, f1, r1⟩ := h1
      -- the zero-subtree
      have h2 := ih (group bit (63 - left) false S) one.2 hz (by rw [n1, l1, hnext]; omega) (by omega) hlz
      generalize hzero : buildSub bit left (group bit (63 - left) false S) one.2 = zero at h2
      obtain ⟨e2, l2, n2, f2, r2⟩ := h2
      have hb : buildSub bit (left + 1) S a =
          (a.next, zero.2.put a.next ⟨BitVec.ofNat 8 (63 - left), minSlot S, zero.1, one.1⟩) := by
        simp only [buildSub, if_pos (And.intro hz ho), hone, hzero]
      rw [hb]
      have hc := classes_split bit left S
      refine ⟨rfl, by rw [Arena.put_length, l2, l1], ?_, ?_, ?_⟩
      · show zero.2.next.toNat = _
        rw [n2, n1, hnext, hc]; omega
      · intro i hi
        have hi' : i < a.next.toNat ∨ zero.2.next.toNat ≤ i := hi
        simp only [Arena.put]
        rw [List.getElem?_set_ne (by omega), f2 i (by omega), f1 i (by omega)]
      · intro nodes hn
        have hn' : ∀ i, a.next.toNat ≤ i → i < zero.2.next.toNat → nodes[i]? =
            (zero.2.put a.next ⟨BitVec.ofNat 8 (63 - left), minSlot S, zero.1, one.1⟩).nodes[i]? := hn
        unfold Represents
        rw [if_pos (And.intro hz ho)]
        refine ⟨zero.1, one.1, ?_, ?_, ?_, ?_, ?_⟩
        · rw [hn' _ (Nat.le_refl _) (by omega)]
          simp only [Arena.put]
          rw [List.getElem?_set_self (by omega)]
        · rw [e2]; intro h
          have := congrArg BitVec.toNat h
          simp [noChild, n1] at this; omega
        · rw [e1]; intro h
          have := congrArg BitVec.toNat h
          simp only [hnext, noChild] at this
          simp at this; omega
        · rw [e2]
          refine r2 nodes fun i hi1 hi2 => ?_
          rw [hn' i (by omega) hi2]
          simp only [Arena.put]
          rw [List.getElem?_set_ne (by omega)]
        · rw [e1]
          refine r1 nodes fun i hi1 hi2 => ?_
          rw [hn' i (by omega) (by omega)]
          simp only [Arena.put]
          rw [List.getElem?_set_ne (by omega), f2 i (by omega)]
    · have hb : buildSub bit (left + 1) S a = buildSub bit left S a := by
        simp only [buildSub, if_neg hd]
      have h := ih S a hS hroom hsize hlen
      rw [hb, classes_agree hd]
      refine ⟨h.1, h.2.1, h.2.2.1, h.2.2.2.1, fun nodes hn => ?_⟩
      unfold Represents
      rw [if_neg hd]
      exact h.2.2.2.2 nodes hn

/-- The build from a cleared arena: the root is node 0, 2·K' − 1 entries are allocated, the others are EMPTY, and the
tree represents the occupied slots (R164, R165, R162). -/
theorem buildTree_spec (size : Nat) (S : List Nat) (bit : Nat → Nat → Bool) (hS : S ≠ [])
    (hroom : 2 * S.length - 1 ≤ size) (hsize : size ≤ 253) :
    (buildTree size S bit).1 = 0 ∧
    (buildTree size S bit).2.nodes.length = size ∧
    (buildTree size S bit).2.next.toNat = 2 * classes bit 64 S - 1 ∧
    (∀ i, (buildTree size S bit).2.next.toNat ≤ i → i < size →
      (buildTree size S bit).2.nodes[i]? = some Node.empty) ∧
    Represents (buildTree size S bit).2.nodes bit 64 S 0 := by
  obtain ⟨x, S', rfl⟩ := List.exists_cons_of_ne_nil hS
  have h := buildSub_spec bit 64 (x :: S') (Arena.clear size) hS
    (by simp only [Arena.clear, List.length_replicate]; simpa using hroom)
    (by simp only [Arena.clear, List.length_replicate]; exact hsize)
  unfold buildTree
  simp only
  refine ⟨h.1, by rw [h.2.1]; simp [Arena.clear], by rw [h.2.2.1]; simp [Arena.clear], fun i hi hs => ?_, ?_⟩
  · rw [h.2.2.2.1 i (.inr hi)]
    simp [Arena.clear, hs]
  · exact h.2.2.2.2 _ fun i _ _ => rfl

/-- The build depends on the identifier bits of the occupied slots only (R169). -/
theorem buildSub_congr {bit bit' : Nat → Nat → Bool} (left : Nat) (S : List Nat) (a : Arena)
    (h : ∀ i ∈ S, ∀ p < 64, bit i p = bit' i p) : buildSub bit left S a = buildSub bit' left S a := by
  induction left generalizing S a with
  | zero => rfl
  | succ left ih =>
    have hg : ∀ v, group bit (63 - left) v S = group bit' (63 - left) v S := fun v =>
      List.filter_congr fun i hi => by rw [h i hi _ (by omega)]
    have hm : ∀ v i, i ∈ group bit' (63 - left) v S → i ∈ S := fun v i hi => (mem_group.mp hi).1
    simp only [buildSub, hg]
    split
    · rw [ih _ ⟨a.nodes, a.next + 1⟩ fun i hi => h i (hm _ _ hi)]
      rw [ih _ _ fun i hi => h i (hm _ _ hi)]
    · exact ih S a h

end Sys2Proof.Machine
end

