-- ==== Sys2Proof/Laws/Search.lean ====
section
/-! SUPPORT. The search walk (44_search): at every position the walk's registers stand for the set of devices still in
the search (R232, R233, R238). -/

namespace Sys2Proof.Machine

/-- The walk at position p, after the answers `ds`, over the table and the tree of `s`: WNODE represents the devices
still in the search, WREP is the lowest of them and WTRIG is WNODE's position (10_state R39). -/
structure WalkAt (s : State) (ds : Nat → Bool) (p : Nat) (t : State) : Prop where
  slots : t.slots = s.slots
  devices : t.devices = s.devices
  cfg : t.cfg = s.cfg
  tree : t.tree = s.tree
  wpos : t.wpos.toNat = p
  active : s.activeAt ds p ≠ []
  represents : Represents s.tree s.slotBit (64 - p) (s.activeAt ds p) t.wnode
  wrep : t.wrep = minSlot (s.activeAt ds p)
  wtrig : t.wtrig = (s.nodeAt t.wnode).pos

theorem activeAt_zero (s : State) (ds : Nat → Bool) : s.activeAt ds 0 = s.occupied := by
  simp [State.activeAt]

/-- The devices that go on are the group of the master's answer (R238). -/
theorem activeAt_succ (s : State) (ds : Nat → Bool) (p : Nat) :
    s.activeAt ds (p + 1) = group s.slotBit p (ds p) (s.activeAt ds p) := by
  unfold State.activeAt group
  rw [List.filter_filter]
  refine List.filter_congr fun i _ => ?_
  rw [List.range_succ, List.all_append]
  simp [Bool.and_comm]

theorem mem_activeAt {s : State} {ds : Nat → Bool} {p i : Nat} :
    i ∈ s.activeAt ds p ↔ i ∈ s.occupied ∧ ∀ q < p, s.slotBit i q = ds q := by
  simp [State.activeAt]

theorem activeAt_congr {s : State} {ds ds' : Nat → Bool} {p : Nat} (h : ∀ q < p, ds q = ds' q) :
    s.activeAt ds p = s.activeAt ds' p := by
  unfold State.activeAt
  refine List.filter_congr fun i _ => ?_
  rw [Bool.eq_iff_iff]
  simp only [List.all_eq_true, List.mem_range]
  exact forall₂_congr fun q hq => by rw [h q hq]

theorem minSlot_mem {S : List Nat} (h : S ≠ []) (hb : ∀ i ∈ S, i < 256) : (minSlot S).toNat ∈ S := by
  obtain ⟨i, S', rfl⟩ := List.exists_cons_of_ne_nil h
  have : i < 256 := hb i (by simp)
  simp [minSlot, Nat.mod_eq_of_lt this]

theorem occupied_lt {s : State} {i : Nat} (h : i ∈ s.occupied) : i < s.cfg.nMax := (mem_occupied.mp h).1

theorem activeAt_lt {s : State} (hN : s.cfg.nMax ≤ 127) {ds : Nat → Bool} {p i : Nat}
    (h : i ∈ s.activeAt ds p) : i < 256 := by
  have := occupied_lt (mem_activeAt.mp h).1; omega

namespace WalkAt

variable {s t : State} {ds : Nat → Bool} {p : Nat}

theorem slotBit (h : WalkAt s ds p t) : t.slotBit = s.slotBit := slotBit_congr h.slots h.devices

theorem nodeAt (h : WalkAt s ds p t) : t.nodeAt = s.nodeAt := by
  funext n; unfold State.nodeAt; rw [h.tree]

/-- The walk's registers alone decide where the walk is. -/
theorem of_regs {u : State} (h : WalkAt s ds p t) (h1 : u.slots = t.slots) (h2 : u.devices = t.devices)
    (h3 : u.cfg = t.cfg) (h4 : u.tree = t.tree) (h5 : u.wpos = t.wpos) (h6 : u.wnode = t.wnode)
    (h7 : u.wrep = t.wrep) (h8 : u.wtrig = t.wtrig) : WalkAt s ds p u :=
  ⟨h1.trans h.slots, h2.trans h.devices, h3.trans h.cfg, h4.trans h.tree, h5 ▸ h.wpos, h.active,
    h6 ▸ h.represents, h7.trans h.wrep, by rw [h8, h6]; exact h.wtrig⟩

/-- Only the answers before p matter. -/
theorem congr {ds' : Nat → Bool} (h : WalkAt s ds p t) (hd : ∀ q < p, ds q = ds' q) : WalkAt s ds' p t := by
  have he := activeAt_congr (s := s) hd
  exact ⟨h.slots, h.devices, h.cfg, h.tree, h.wpos, he ▸ h.active, he ▸ h.represents, he ▸ h.wrep, h.wtrig⟩

/-- The devices still in the search diverge at p. -/
abbrev Diverges (s : State) (ds : Nat → Bool) (p : Nat) : Prop :=
  group s.slotBit p false (s.activeAt ds p) ≠ [] ∧ group s.slotBit p true (s.activeAt ds p) ≠ []

theorem wpos_eq (h : WalkAt s ds p t) : t.wpos = BitVec.ofNat 8 p := by
  apply BitVec.eq_of_toNat_eq
  have := h.wpos; have := t.wpos.isLt
  rw [BitVec.toNat_ofNat, Nat.mod_eq_of_lt (by omega)]; assumption

/-- At a divergence point WNODE is the node of this position, with a child for each group (R232, R237). -/
theorem diverging (h : WalkAt s ds p t) (hp : p < 64) (hd : Diverges s ds p) :
    t.wpos = t.wtrig ∧ ∃ zero one, s.nodeAt t.wnode = ⟨BitVec.ofNat 8 p, minSlot (s.activeAt ds p), zero, one⟩ ∧
      zero ≠ noChild ∧ one ≠ noChild ∧
      Represents s.tree s.slotBit (63 - p) (group s.slotBit p false (s.activeAt ds p)) zero ∧
      Represents s.tree s.slotBit (63 - p) (group s.slotBit p true (s.activeAt ds p)) one := by
  have hr := h.represents
  rw [show 64 - p = (63 - p) + 1 by omega] at hr
  unfold Represents at hr
  rw [show 63 - (63 - p) = p by omega, if_pos hd] at hr
  obtain ⟨zero, one, hn, hz, ho, rz, ro⟩ := hr
  have hnode : s.nodeAt t.wnode = ⟨BitVec.ofNat 8 p, minSlot (s.activeAt ds p), zero, one⟩ := by
    unfold State.nodeAt; rw [hn]; rfl
  exact ⟨by rw [h.wtrig, hnode, h.wpos_eq], zero, one, hnode, hz, ho, rz, ro⟩

/-- Where the devices agree WNODE lies at a later position (R233). -/
theorem agreeing (h : WalkAt s ds p t) (hp : p < 64) (hd : ¬Diverges s ds p) :
    t.wpos ≠ t.wtrig ∧ Represents s.tree s.slotBit (63 - p) (s.activeAt ds p) t.wnode := by
  have hr := h.represents
  rw [show 64 - p = (63 - p) + 1 by omega] at hr
  unfold Represents at hr
  rw [show 63 - (63 - p) = p by omega, if_neg hd] at hr
  refine ⟨fun he => ?_, hr⟩
  obtain ⟨node, hn, -, hpos⟩ := hr.node (by omega)
  have hw := h.wtrig
  unfold State.nodeAt at hw
  rw [hn] at hw
  have h1 := congrArg BitVec.toNat he
  rw [hw, h.wpos] at h1
  have h2 : node.pos.toNat = p := h1.symm
  omega

/-- Where the devices agree, every one of them has the representative's bit. -/
theorem agree_bit (h : WalkAt s ds p t) (hN : s.cfg.nMax ≤ 127) (hd : ¬Diverges s ds p) :
    ∀ i ∈ s.activeAt ds p, s.slotBit i p = walkBit t := by
  have hm := minSlot_mem h.active fun i => activeAt_lt hN
  intro i hi
  have hw : walkBit t = s.slotBit (minSlot (s.activeAt ds p)).toNat p := by
    unfold walkBit; rw [h.slotBit, h.wrep, h.wpos]
  rw [hw]
  by_contra hne
  apply hd
  have hg : ∀ j v, j ∈ s.activeAt ds p → s.slotBit j p = v → group s.slotBit p v (s.activeAt ds p) ≠ [] :=
    fun j v hj hv => List.ne_nil_of_mem (mem_group.mpr ⟨hj, hv⟩)
  cases hb : s.slotBit i p
  · exact ⟨hg _ _ hi hb, hg _ _ hm (by rw [hb] at hne; simpa using Ne.symm hne)⟩
  · exact ⟨hg _ _ hm (by rw [hb] at hne; simpa using Ne.symm hne), hg _ _ hi hb⟩

/-- The pair the walk sends is the pair the devices still in the search would put on the wired-AND line (R238). -/
theorem pair (h : WalkAt s ds p t) (hN : s.cfg.nMax ≤ 127) (hp : p < 64) :
    walkPair t = s.wiredPair (s.activeAt ds p) p := by
  by_cases hd : Diverges s ds p
  · rw [walkPair, if_pos (h.diverging hp hd).1]
    obtain ⟨hz, ho⟩ := hd
    obtain ⟨i, hi⟩ := List.exists_mem_of_ne_nil _ hz
    obtain ⟨j, hj⟩ := List.exists_mem_of_ne_nil _ ho
    rw [mem_group] at hi hj
    unfold State.wiredPair
    rw [Prod.mk.injEq]
    exact ⟨(List.all_eq_false.mpr ⟨i, hi.1, by simp [hi.2]⟩).symm,
      (List.all_eq_false.mpr ⟨j, hj.1, by simp [hj.2]⟩).symm⟩
  · rw [walkPair, if_neg (h.agreeing hp hd).1]
    have hb := h.agree_bit hN hd
    obtain ⟨i, hi⟩ := List.exists_mem_of_ne_nil _ h.active
    unfold State.wiredPair
    rw [Prod.mk.injEq]
    constructor
    · cases hw : walkBit t
      · exact (List.all_eq_false.mpr ⟨i, hi, by rw [hb i hi, hw]; simp⟩).symm
      · exact (List.all_eq_true.mpr fun j hj => by rw [hb j hj, hw]).symm
    · cases hw : walkBit t
      · exact (List.all_eq_true.mpr fun j hj => by rw [hb j hj, hw]; rfl).symm
      · exact (List.all_eq_false.mpr ⟨i, hi, by rw [hb i hi, hw]; simp⟩).symm

/-- The master's answer moves the walk on exactly when a device has that bit, and the walk then stands for the devices
that have it (R232, R233, R234). -/
theorem take (h : WalkAt s ds p t) (hN : s.cfg.nMax ≤ 127) (hp : p < 64) :
    (s.activeAt ds (p + 1) = [] ∧ walkTake (ds p) t = none) ∨
    ∃ u, walkTake (ds p) t = some u ∧ WalkAt s ds (p + 1) u := by
  have hpos : (t.wpos + 1).toNat = p + 1 := by
    rw [BitVec.toNat_add, h.wpos]; simp; omega
  by_cases hd : Diverges s ds p
  · right
    obtain ⟨he, zero, one, hn, hz, ho, rz, ro⟩ := h.diverging hp hd
    refine ⟨_, by rw [walkTake, if_pos he], ?_⟩
    have key : ∀ c : Byte, c ≠ noChild → Represents s.tree s.slotBit (63 - p) (s.activeAt ds (p + 1)) c →
        s.activeAt ds (p + 1) ≠ [] → WalkAt s ds (p + 1) (walkDescend c t) := by
      intro c hc hr ha
      rw [walkDescend, if_neg hc]
      refine ⟨h.slots, h.devices, h.cfg, h.tree, hpos, ha, ?_, ?_, ?_⟩
      · rw [show 64 - (p + 1) = 63 - p by omega]; exact hr
      · obtain ⟨node, h1, h2, -⟩ := hr.node (by omega)
        rw [setWalk_wrep, h.nodeAt]
        unfold State.nodeAt
        rw [h1]; exact h2
      · rw [setWalk_wtrig, h.nodeAt]; rfl
    rw [h.nodeAt, hn]
    rw [activeAt_succ] at key
    cases hdp : ds p <;> rw [hdp] at key
    · exact key zero hz rz hd.1
    · exact key one ho ro hd.2
  · obtain ⟨hne, hr⟩ := h.agreeing hp hd
    have hb := h.agree_bit hN hd
    rw [walkTake, if_neg hne]
    by_cases hv : ds p = walkBit t
    · right
      refine ⟨_, if_pos hv, ?_⟩
      have ha : s.activeAt ds (p + 1) = s.activeAt ds p := by
        rw [activeAt_succ, group, List.filter_eq_self]
        intro i hi; rw [hb i hi, hv]; simp
      refine ⟨h.slots, h.devices, h.cfg, h.tree, hpos, ha ▸ h.active, ?_, ?_, h.wtrig⟩
      · rw [show 64 - (p + 1) = 63 - p by omega, ha]; exact hr
      · rw [setWalk_wrep, ha]; exact h.wrep
    · left
      refine ⟨?_, if_neg hv⟩
      rw [activeAt_succ, group, List.filter_eq_nil_iff]
      intro i hi; rw [hb i hi]; simpa using fun h => hv h.symm

end WalkAt

/-- The walk starts with every attached device in the search (R230, R231). -/
theorem walkAt_start {s : State} (ds : Nat → Bool) (ht : s.TreeCurrent) (hc : s.cfg.Valid) (ho : s.occupied ≠ []) :
    WalkAt s ds 0 (walkStart s) := by
  have hlen : s.occupied.length ≤ s.cfg.nMax := by
    have := List.length_filter_le (fun i => (s.slotAt i).isSome) (List.range s.cfg.nMax)
    rwa [List.length_range] at this
  have hv := hc.2.1
  have hspec := buildTree_spec s.cfg.treeSize s.occupied s.slotBit ho
    (by unfold Config.treeSize; omega) (by unfold Config.treeSize; omega)
  have htree : s.tree = (buildTree s.cfg.treeSize s.occupied s.slotBit).2.nodes := by
    rw [← ht]
  have hr := hspec.2.2.2.2
  rw [← htree] at hr
  obtain ⟨node, h1, h2, -⟩ := hr.node (Nat.le_refl _)
  have hn : s.nodeAt 0 = node := by unfold State.nodeAt; rw [h1]; rfl
  refine ⟨rfl, rfl, rfl, rfl, rfl, by rw [activeAt_zero]; exact ho, by rw [activeAt_zero]; exact hr, ?_, rfl⟩
  rw [activeAt_zero, ← h2, ← hn]; rfl

/-- As long as some attached device has the bits the master answers, the walk goes on (R238). -/
theorem walkAt_follow {s t : State} {ds : Nat → Bool} {p : Nat} (n : Nat) (h : WalkAt s ds p t)
    (hN : s.cfg.nMax ≤ 127) (hp : p + n ≤ 64) (ha : s.activeAt ds (p + n) ≠ []) :
    ∃ u, walkFollow ds n t = some u ∧ WalkAt s ds (p + n) u := by
  induction n generalizing p t with
  | zero => exact ⟨t, rfl, h⟩
  | succ n ih =>
    rcases h.take hN (by omega) with ⟨he, -⟩ | ⟨u, hu, hw⟩
    · exfalso
      apply ha
      rw [List.eq_nil_iff_forall_not_mem]
      intro i hi
      have hi' := mem_activeAt.mp hi
      have : i ∈ s.activeAt ds (p + 1) := mem_activeAt.mpr ⟨hi'.1, fun q hq => hi'.2 q (by omega)⟩
      rw [he] at this; cases this
    · obtain ⟨v, hv, hv'⟩ := ih hw (by omega) (by rw [show p + 1 + n = p + (n + 1) by omega]; exact ha)
      refine ⟨v, ?_, by rw [show p + (n + 1) = p + 1 + n by omega]; exact hv'⟩
      rw [walkFollow, h.wpos, hu]; exact hv

/-! ### The walk on the machine -/

theorem WalkAt.bitOnly {s t u : State} {ds : Nat → Bool} {p : Nat} (h : WalkAt s ds p t) (hu : BitOnly t u) :
    WalkAt s ds p u := by
  have k := hu.transport
  exact h.of_regs k.slots k.devices k.cfg k.tree k.wpos k.wnode k.wrep k.wtrig

/-- `t` is `s` but for what the transport and the walk may change. -/
def WalkOnly (s t : State) : Prop := ∃ u p n r g, BitOnly s u ∧ t = u.setWalk p n r g

theorem BitOnly.walk {s t : State} (h : BitOnly s t) : WalkOnly s t :=
  ⟨t, t.wpos, t.wnode, t.wrep, t.wtrig, h, rfl⟩

theorem WalkOnly.trans {s t u : State} (h : WalkOnly s t) (k : WalkOnly t u) : WalkOnly s u := by
  obtain ⟨_, p, n, r, g, ⟨b, τ, tr, m, l, e, d, rfl⟩, rfl⟩ := h
  obtain ⟨_, p', n', r', g', ⟨b', τ', tr', m', l', e', d', rfl⟩, rfl⟩ := k
  exact ⟨_, p', n', r', g', ⟨b', τ', tr', m', l', e', d', rfl⟩, rfl⟩

theorem walkTake_frame {d : Bool} {s t : State} (h : walkTake d s = some t) :
    ∃ p n r g, t = s.setWalk p n r g := by
  unfold walkTake walkDescend at h
  split at h
  · generalize (if d = true then _ else _) = c at h
    by_cases hc : c = noChild
    · rw [if_pos hc] at h; cases h; exact ⟨_, _, _, _, rfl⟩
    · rw [if_neg hc] at h; cases h; exact ⟨_, _, _, _, rfl⟩
  · split at h
    · cases h; exact ⟨_, _, _, _, rfl⟩
    · cases h

/-- What one step of the walk can do (R231): answer and move; mismatch (R234); a failed slot (R235). -/
theorem walkStep_cases (s : State) :
    (∃ d u t, walkStep s = .done () t ∧ walkTake d u = some t ∧ BitOnly s u ∧ Tidy s u ∧ u.err = s.err) ∨
    (∃ d u, walkStep s = .abort .searchMismatch u ∧ walkTake d u = none ∧ BitOnly s u ∧ Tidy s u ∧ u.err = s.err) ∨
    (∃ u, walkStep s = .abort u.err u ∧ BitOnly s u ∧ Tidy s u ∧
      (u.err = .readTimeslotTimeoutLow ∨ u.err = .readTimeslotTimeoutHigh)) := by
  unfold walkStep
  dsimp only
  have fa := sendBit_frame (walkPair s).1 s
  have ta := sendBit_tidy (walkPair s).1 s
  have la := sendBit_latched (walkPair s).1 s
  generalize sendBit (walkPair s).1 s = a at fa ta la
  obtain ⟨oka, a⟩ := a
  cases oka
  · exact .inr (.inr ⟨a, rfl, fa, ta, la⟩)
  have fc := fa.trans (sendBit_frame (walkPair s).2 a)
  have tc := ta.trans (sendBit_tidy (walkPair s).2 a)
  have lc := Latched.after la (sendBit_latched (walkPair s).2 a)
  simp only [if_true]
  generalize sendBit (walkPair s).2 a = c at fc tc lc
  obtain ⟨okc, c⟩ := c
  cases okc
  · exact .inr (.inr ⟨c, rfl, fc, tc, lc⟩)
  have fd := fc.trans (recvBit_frame c)
  have td := tc.trans (recvBit_tidy c)
  have ld := Latched.after lc (recvBit_latched c)
  simp only [if_true]
  generalize recvBit c = d at fd td ld
  obtain ⟨⟨okd, v⟩, d⟩ := d
  cases okd
  · exact .inr (.inr ⟨d, rfl, fd, td, ld⟩)
  simp only [if_true]
  cases hw : walkTake v d with
  | some t => exact .inl ⟨v, d, t, rfl, hw, fd, td, ld⟩
  | none => exact .inr (.inl ⟨v, d, rfl, hw, fd, td, ld⟩)

/-- How a walk over the table and tree of `s` from position p can end: at position p + n with the devices that have the
received bits; or with an abort that has left SEL alone (R234, R235). -/
theorem walkSteps_cases {s t : State} {ds : Nat → Bool} {p : Nat} (n : Nat) (h : WalkAt s ds p t)
    (hN : s.cfg.nMax ≤ 127) (hp : p + n ≤ 64) :
    (∃ ds' u, walkSteps n t = .done () u ∧ WalkAt s ds' (p + n) u ∧ WalkOnly t u ∧ Tidy t u ∧ u.err = t.err) ∨
    (∃ code u, walkSteps n t = .abort code u ∧ WalkOnly t u ∧ Tidy t u ∧
      ((code = .searchMismatch ∧ u.err = t.err) ∨
       (code = u.err ∧ (u.err = .readTimeslotTimeoutLow ∨ u.err = .readTimeslotTimeoutHigh)))) := by
  induction n generalizing p t ds with
  | zero => exact .inl ⟨ds, t, rfl, h, (BitOnly.refl t).walk, .refl t, rfl⟩
  | succ n ih =>
    rcases walkStep_cases t with ⟨d, u, v, hs, hk, hb, ht, he⟩ | ⟨d, u, hs, -, hb, ht, he⟩ | ⟨u, hs, hb, ht, he⟩
    · have hu : WalkAt s (fun q => if q = p then d else ds q) p u :=
        (h.bitOnly hb).congr fun q hq => by rw [if_neg (by omega)]
      rcases hu.take hN (by omega) with ⟨-, hnone⟩ | ⟨w, hw, hat⟩
      · rw [if_pos rfl, hk] at hnone; cases hnone
      · rw [if_pos rfl, hk] at hw; cases hw
        obtain ⟨_, _, _, _, hv⟩ := walkTake_frame hk
        have hwo : WalkOnly t v := ⟨u, _, _, _, _, hb, hv⟩
        have hti : Tidy t v := ht.trans (hv ▸ .of_eq rfl rfl rfl)
        have hev : v.err = t.err := by rw [hv]; exact he
        simp only [walkSteps, hs, Proc.andThen]
        rcases ih hat (by omega) with ⟨ds', x, h1, h2, h3, h4, h5⟩ | ⟨code, x, h1, h3, h4, h5⟩
        · exact .inl ⟨ds', x, h1, by rw [show p + (n + 1) = p + 1 + n by omega]; exact h2, hwo.trans h3,
            hti.trans h4, h5.trans hev⟩
        · exact .inr ⟨code, x, h1, hwo.trans h3, hti.trans h4, by rw [hev] at h5; exact h5⟩
    · exact .inr ⟨_, u, by simp only [walkSteps, hs, Proc.andThen], hb.walk, ht, .inl ⟨rfl, he⟩⟩
    · exact .inr ⟨_, u, by simp only [walkSteps, hs, Proc.andThen], hb.walk, ht, .inr ⟨rfl, he⟩⟩

/-- One served step: the pair goes out, the answer comes in, and the walk moves as the answer says (R231, R209). -/
theorem walkStep_served {s : State} {d : Bool} {script : List Draw} {as : List Access} (rest : List Draw)
    (h : TripletSlots s.cfg (walkPair s) d script as) (hb : s.bus = script ++ rest) (hl : s.line = ⟨false, false⟩)
    (ht : ∀ u, BitOnly s u → ∃ v, walkTake d u = some v) :
    ∃ u v, walkStep s = .done () v ∧ walkTake d u = some v ∧ BitOnly s u ∧ u.bus = rest ∧
      u.line = ⟨false, false⟩ ∧ u.err = s.err ∧
      u.accesses = s.accesses ++ as := by
  obtain ⟨s1, _, s2, _, s3, _, hs1, hs2, hs3, rfl, rfl⟩ := h
  have fa := sendBit_frame (walkPair s).1 s
  have fb := fa.trans (sendBit_frame (walkPair s).2 _)
  obtain ⟨a1, a2, a3, a4⟩ := sendBit_served (s2 ++ s3 ++ rest) hs1 (by rw [hb]; simp) hl
  obtain ⟨c1, c2, c3, c4⟩ := sendBit_served (s3 ++ rest) (fa.transport.cfg.symm ▸ hs2) (by rw [a2]; simp) a3
  obtain ⟨d1, d2, d3, d4⟩ := recvBit_served rest (fb.transport.cfg.symm ▸ hs3) c2 c3
  have la := sendBit_latched (walkPair s).1 s
  rw [a1] at la
  have fc := fa.trans (sendBit_frame (walkPair s).2 _)
  have lc := Latched.after la (sendBit_latched (walkPair s).2 _)
  rw [c1] at lc
  have fd := fc.trans (recvBit_frame _)
  have ld := Latched.after lc (recvBit_latched _)
  rw [d1] at ld
  obtain ⟨v, hv⟩ := ht _ fd
  refine ⟨_, v, ?_, hv, fd, d2, d3, ld, ?_⟩
  · unfold walkStep
    dsimp only
    rw [if_pos a1, if_pos c1, d1]
    dsimp only
    rw [if_pos rfl, hv]
  · rw [d4, c4, a4]; simp only [List.append_assoc]

/-- A step of which the first, second or third slot does not come (R235): the bits whose slots came are sent, and nothing
more. -/
theorem walkStep_stuck {s : State} {m : Nat} {script tail : List Draw} {sent : List Access} {e : ErrKind} (hm : m ≤ 2)
    (h : Slots (SendSlot s.cfg) ([(walkPair s).1, (walkPair s).2].take m) script sent) (hb : s.bus = script ++ tail)
    (hl : s.line = ⟨false, false⟩) (ht : StuckTail s.cfg tail e) :
    ∃ u waits, walkStep s = .abort e u ∧ BitOnly s u ∧ u.err = e ∧ u.accesses = s.accesses ++ sent ++ waits ∧
      OnlySamples waits := by
  have fa := sendBit_frame (walkPair s).1 s
  have fb := fa.trans (sendBit_frame (walkPair s).2 _)
  unfold walkStep
  dsimp only
  rcases m with _ | _ | _ | m
  · obtain ⟨rfl, rfl⟩ := h
    obtain ⟨a1, a2, as, a3, a4⟩ := sendBit_stuck (v := (walkPair s).1) (s := s) (e := e) (by rw [hb]; exact ht) (by rw [hl])
    exact ⟨_, as, by rw [if_neg (by rw [a1]; simp), a2], fa, a2, by rw [a3, List.append_nil], a4⟩
  · obtain ⟨d1, w1, _, _, s1, ⟨rfl, rfl⟩, rfl, rfl⟩ := h
    obtain ⟨a1, a2, a3, a4⟩ := sendBit_served tail s1 (by rw [hb, List.append_nil]) hl
    obtain ⟨b1, b2, as, b3, b4⟩ := sendBit_stuck (v := (walkPair s).2) (s := (sendBit (walkPair s).1 s).2) (e := e)
      (by rw [a2, fa.transport.cfg]; exact ht) (by rw [a3])
    exact ⟨_, as, by rw [if_pos a1, if_neg (by rw [b1]; simp), b2], fb, b2, by rw [b3, a4, List.append_nil], b4⟩
  · obtain ⟨d1, w1, _, _, s1, ⟨d2, w2, _, _, s2, ⟨rfl, rfl⟩, rfl, rfl⟩, rfl, rfl⟩ := h
    obtain ⟨a1, a2, a3, a4⟩ := sendBit_served (d2 ++ tail) s1 (by rw [hb]; simp) hl
    obtain ⟨b1, b2, b3, b4⟩ := sendBit_served tail (fa.transport.cfg.symm ▸ s2) a2 a3
    obtain ⟨c1, c2, as, c3, c4⟩ := recvBit_stuck (s := (sendBit (walkPair s).2 (sendBit (walkPair s).1 s).2).2) (e := e)
      (by rw [b2, fb.transport.cfg]; exact ht) (by rw [b3])
    exact ⟨_, as, by rw [if_pos a1, if_pos b1, if_neg (by rw [c1]; simp), c2], fb.trans (recvBit_frame _), c2,
      by rw [c3, b4, a4]; simp, c4⟩
  · omega

/-- The search of the machine, served as a set of real devices would be served: every step goes through as long as some
attached device has the answered bits, and the line carries what those devices would put on it (R238). -/
theorem walkSteps_served {s t : State} {ds : Nat → Bool} {p : Nat} (n : Nat) {script : List Draw} {as : List Access}
    (rest : List Draw) (h : WalkAt s ds p t) (hN : s.cfg.nMax ≤ 127) (hp : p + n ≤ 64)
    (ha : s.activeAt ds (p + n) ≠ []) (hs : s.SearchSlots ds n p script as) (hb : t.bus = script ++ rest)
    (hl : t.line = ⟨false, false⟩) :
    ∃ u, walkSteps n t = .done () u ∧ WalkAt s ds (p + n) u ∧ u.bus = rest ∧ u.line = ⟨false, false⟩ ∧
      u.err = t.err ∧ u.accesses = t.accesses ++ as := by
  induction n generalizing p t script as with
  | zero => obtain ⟨rfl, rfl⟩ := hs; exact ⟨t, rfl, h, hb, hl, rfl, (List.append_nil _).symm⟩
  | succ n ih =>
    obtain ⟨d1, a1, d2, a2, hd, hr, rfl, rfl⟩ := hs
    rw [← h.pair hN (by omega), ← h.cfg] at hd
    have hnext : s.activeAt ds (p + 1) ≠ [] := by
      intro he
      apply ha
      rw [List.eq_nil_iff_forall_not_mem]
      intro i hi
      have hi' := mem_activeAt.mp hi
      have : i ∈ s.activeAt ds (p + 1) := mem_activeAt.mpr ⟨hi'.1, fun q hq => hi'.2 q (by omega)⟩
      rw [he] at this; cases this
    have htake : ∀ u, BitOnly t u → ∃ v, walkTake (ds p) u = some v ∧ WalkAt s ds (p + 1) v := by
      intro u hu
      rcases (h.bitOnly hu).take hN (by omega) with ⟨he, -⟩ | hv
      · exact absurd he hnext
      · exact hv
    obtain ⟨u, v, h1, h2, h3, h4, h5, h6, h7⟩ := walkStep_served (d2 ++ rest) hd (by rw [hb, List.append_assoc]) hl
      fun u hu => (htake u hu).imp fun _ h => h.1
    obtain ⟨v', hv', hat⟩ := htake u h3
    rw [h2] at hv'; cases hv'
    obtain ⟨_, _, _, _, hv⟩ := walkTake_frame h2
    have hacc : v.accesses = u.accesses := by rw [hv]; rfl
    obtain ⟨w, w1, w2, w3, w4, w5, w6⟩ := ih hat (by omega)
      (by rw [show p + 1 + n = p + (n + 1) by omega]; exact ha) hr (by rw [hv]; exact h4) (by rw [hv]; exact h5)
    refine ⟨w, by simp only [walkSteps, h1, Proc.andThen]; exact w1,
      by rw [show p + (n + 1) = p + 1 + n by omega]; exact w2, w3, w4, ?_, ?_⟩
    · rw [w5, hv]; exact h6
    · rw [w6, hacc, h7, List.append_assoc]

/-- SearchWalk served with the answers `ds`: it completes and selects the lowest device that has all 64 of them
(R236, R168). -/
theorem searchWalk_served {s : State} (ds : Nat → Bool) {script : List Draw} {as : List Access} (rest : List Draw)
    (ht : s.TreeCurrent) (hc : s.cfg.Valid) (ha : s.activeAt ds 64 ≠ [])
    (hs : s.SearchSlots ds 64 0 script as) (hb : s.bus = script ++ rest) (hl : s.line = ⟨false, false⟩) :
    ∃ u, searchWalk s = .done () (u.setSel (minSlot (s.activeAt ds 64))) ∧ WalkAt s ds 64 u ∧ u.bus = rest ∧
      u.line = ⟨false, false⟩ ∧ u.err = s.err ∧ u.accesses = s.accesses ++ as := by
  have ho : s.occupied ≠ [] := by
    obtain ⟨i, hi⟩ := List.exists_mem_of_ne_nil _ ha
    exact List.ne_nil_of_mem (mem_activeAt.mp hi).1
  obtain ⟨u, h1, h2, h3, h4, h5, h6⟩ :=
    walkSteps_served 64 rest (walkAt_start ds ht hc ho) hc.2.1 (by omega) ha hs hb hl
  refine ⟨u, ?_, h2, h3, h4, h5, h6⟩
  simp only [searchWalk, h1, Proc.andThen]
  rw [h2.wrep]

end Sys2Proof.Machine
end

