-- ==== Sys2Proof/Laws/Hub.lean ====
section
/-! SUPPORT. What the dispatcher can do (45_dispatcher): the frames and the outcomes of POLL, RUN, SEARCH_ROM and
MATCH_ROM. -/

namespace Sys2Proof.Machine

/-! ### Frames -/

/-- `t` is `s` but for what POLL may change. -/
def PollOnly (s t : State) : Prop :=
  ∃ b τ tr m l e d sh n v st r, t = { s with
    bus := b, time := τ, trace := tr, imask := m, line := l, err := e, draws := d, tshift := sh, tbit := n,
    sel := v, fsm := st, result := r }

theorem PollOnly.trans {s t u : State} (h : PollOnly s t) (k : PollOnly t u) : PollOnly s u := by
  obtain ⟨b, τ, tr, m, l, e, d, sh, n, v, st, r, rfl⟩ := h
  obtain ⟨b', τ', tr', m', l', e', d', sh', n', v', st', r', rfl⟩ := k
  exact ⟨b', τ', tr', m', l', e', d', sh', n', v', st', r', rfl⟩

theorem TransportOnly.poll {s t : State} (h : TransportOnly s t) : PollOnly s t := by
  obtain ⟨b, τ, tr, m, l, e, d, sh, n, rfl⟩ := h
  exact ⟨b, τ, tr, m, l, e, d, sh, n, s.sel, s.fsm, s.result, rfl⟩

theorem HandshakeOnly.poll {s t : State} (h : HandshakeOnly s t) : PollOnly s t := by
  obtain ⟨b, τ, tr, m, l, v, rfl⟩ := h
  exact ⟨b, τ, tr, m, l, s.err, s.draws, s.tshift, s.tbit, v, s.fsm, s.result, rfl⟩

theorem goto_poll (st : Fsm) (s : State) : PollOnly s (goto st s) :=
  ⟨s.bus, s.time, _, s.imask, s.line, s.err, s.draws, s.tshift, s.tbit, s.sel, st, s.result, rfl⟩

theorem setErr_poll (e : ErrKind) (s : State) : PollOnly s (s.setErr e) :=
  ⟨s.bus, s.time, s.trace, s.imask, s.line, e, s.draws, s.tshift, s.tbit, s.sel, s.fsm, s.result, rfl⟩

theorem setSel_poll (v : Byte) (s : State) : PollOnly s (s.setSel v) :=
  ⟨s.bus, s.time, s.trace, s.imask, s.line, s.err, s.draws, s.tshift, s.tbit, v, s.fsm, s.result, rfl⟩

theorem setSel_orderly (v : Byte) (s : State) : Orderly s (s.setSel v) := .of_eq rfl rfl rfl

theorem returnPoll_poll (oc : PollOutcome) (reinit : Bool) (s : State) : PollOnly s (returnPoll oc reinit s) := by
  unfold returnPoll
  split
  · exact (TransportOnly.refl s).poll
  · exact ⟨s.bus, s.time, s.trace, s.imask, s.line, s.err, s.draws, s.tshift, s.tbit, s.sel, s.fsm, _, rfl⟩

theorem finishPoll_poll (oc : PollOutcome) (reinit : Bool) (s : State) : PollOnly s (finishPoll oc reinit s) :=
  (goto_poll .idle s).trans (returnPoll_poll _ _ _)

theorem setMask_poll (m : Bool) (s : State) : PollOnly s (s.setMask m) :=
  ⟨s.bus, s.time, s.trace, m, s.line, s.err, s.draws, s.tshift, s.tbit, s.sel, s.fsm, s.result, rfl⟩

theorem raiseAbort_poll (code : ErrKind) (reinit : Bool) (s : State) : PollOnly s (raiseAbort code reinit s) := by
  rw [raiseAbort_eq]
  exact (((setErr_poll _ s).trans (releaseLine_frame _).transport.poll).trans (setMask_poll _ _)).trans
    (finishPoll_poll _ _ _)

theorem PollOnly.cfg {s t : State} (h : PollOnly s t) : t.cfg = s.cfg := by
  obtain ⟨_, _, _, _, _, _, _, _, _, _, _, _, rfl⟩ := h; rfl
theorem PollOnly.count {s t : State} (h : PollOnly s t) : t.count = s.count := by
  obtain ⟨_, _, _, _, _, _, _, _, _, _, _, _, rfl⟩ := h; rfl
theorem PollOnly.running {s t : State} (h : PollOnly s t) : t.running = s.running := by
  obtain ⟨_, _, _, _, _, _, _, _, _, _, _, _, rfl⟩ := h; rfl
theorem PollOnly.slots {s t : State} (h : PollOnly s t) : t.slots = s.slots := by
  obtain ⟨_, _, _, _, _, _, _, _, _, _, _, _, rfl⟩ := h; rfl

@[simp] theorem pollResult_err (s : State) (e : ErrKind) (b : Byte) : (s.setErr e).pollResult b = s.pollResult b := rfl

/-- The end of a transaction in one equation (R250, R254). -/
theorem finishPoll_eq (oc : PollOutcome) (reinit : Bool) (s : State) : finishPoll oc reinit s = { s with
    fsm := .idle, trace := .goto .idle :: s.trace, result := s.pollResult (pollByte oc reinit) } := by
  unfold finishPoll returnPoll State.pollResult
  cases h : s.running <;> simp [goto, record, State.setFsm, State.setTrace, State.ret, h]

theorem finishPoll_pollResult {s t : State} (h : t.running = s.running) (hr : t.result = s.result)
    (oc : PollOutcome) (reinit : Bool) :
    (finishPoll oc reinit t).result = s.pollResult (pollByte oc reinit) := by
  rw [finishPoll_result, State.pollResult, h, hr]

theorem raiseAbort_result {s t : State} (h : t.running = s.running) (hr : t.result = s.result)
    (code : ErrKind) (reinit : Bool) :
    (raiseAbort code reinit t).result = s.pollResult (pollByte .aborted reinit) := by
  rw [raiseAbort_eq]
  exact finishPoll_pollResult (by simpa [releaseLine_eq] using h) (by simpa [releaseLine_eq] using hr) _ _

@[simp] theorem raiseAbort_err (code : ErrKind) (reinit : Bool) (s : State) :
    (raiseAbort code reinit s).err = if writesErr s.cfg code then code else s.err := by
  simp [raiseAbort_eq, releaseLine_eq]
@[simp] theorem raiseAbort_sel (code : ErrKind) (reinit : Bool) (s : State) :
    (raiseAbort code reinit s).sel = s.sel := by
  simp [raiseAbort_eq, releaseLine_eq]
@[simp] theorem raiseAbort_fsm (code : ErrKind) (reinit : Bool) (s : State) :
    (raiseAbort code reinit s).fsm = .idle := by
  simp [raiseAbort_eq]
@[simp] theorem raiseAbort_running (code : ErrKind) (reinit : Bool) (s : State) :
    (raiseAbort code reinit s).running = s.running := by
  simp [raiseAbort_eq, releaseLine_eq]

/-- A code that is always written: all but the two uncoded conditions (R302). -/
theorem writesErr_of {c : Config} {code : ErrKind} (h : code ≠ .searchMismatch ∧ code ≠ .noAddressMatch) :
    writesErr c code = true := by
  cases code <;> simp_all [writesErr]

/-! ### POLL (R251) -/

theorem receiveCommand_cases (s : State) :
    (∃ t, receiveCommand s = .done () t ∧ PollOnly s t ∧ Orderly s t ∧ t.gotos = s.gotos ++ [.commandReceive] ∧
      t.err = s.err ∧ t.sel = s.sel ∧ t.result = s.result ∧ t.fsm = .commandReceive ∧ t.tbit = 8) ∨
    (∃ t, receiveCommand s = .abort t.err t ∧ PollOnly s t ∧ Orderly s t ∧
      t.gotos = s.gotos ++ [.commandReceive] ∧ t.sel = s.sel ∧ t.result = s.result ∧
      (t.err = .readTimeslotTimeoutLow ∨ t.err = .readTimeslotTimeoutHigh)) := by
  have fr := recvByte_frame (goto .commandReceive s)
  have ti := recvByte_tidy (goto .commandReceive s)
  have la := recvByte_latched (goto .commandReceive s)
  have ok := @recvByte_ok (goto .commandReceive s)
  have fg := (goto_poll .commandReceive s).trans fr.poll
  have og := (goto_orderly .commandReceive s).trans ti.toOrderly
  have gg := ti.gotos.trans (goto_gotos .commandReceive s)
  unfold receiveCommand
  dsimp only
  generalize recvByte (goto .commandReceive s) = r at fr ti la ok fg og gg ⊢
  obtain ⟨⟨_ | _, b⟩, t⟩ := r
  · exact .inr ⟨t, rfl, fg, og, gg, fr.sel, fr.result, la⟩
  · exact .inl ⟨t, rfl, fg, og, gg, la, fr.sel, fr.result, fr.fsm, (ok rfl).2⟩

/-- How far an opened transaction that aborts has gone (`sts`), with which code, and with which SEL after `sel`: in reset
detection SEL is left alone (R189), after it SEL is none. -/
def AbortedIn (sts : List Fsm) (code : ErrKind) (sel sel' : Byte) : Prop :=
  (sts = [.resetWait] ∧ (code = .veryLongReset ∨ code = .veryShortReset) ∧ sel' = sel) ∨
  (sts = [.resetWait, .presence] ∧ code = .veryLongReset ∧ sel' = noneByte) ∨
  (sts = [.resetWait, .presence, .commandReceive] ∧
    (code = .readTimeslotTimeoutLow ∨ code = .readTimeslotTimeoutHigh) ∧ sel' = noneByte)

theorem AbortedIn.writesErr {sts : List Fsm} {code : ErrKind} {sel sel' : Byte} (h : AbortedIn sts code sel sel')
    (c : Config) : writesErr c code = true :=
  writesErr_of (by rcases h with ⟨-, rfl | rfl, -⟩ | ⟨-, rfl, -⟩ | ⟨-, rfl | rfl, -⟩ <;> simp)

theorem openTransaction_cases (s : State) :
    (∃ t, openTransaction s = .done .noReset t ∧ PollOnly s t ∧ Orderly s t ∧ t.gotos = s.gotos ++ [.resetWait] ∧
      t.err = s.err ∧ t.sel = s.sel ∧ t.result = s.result) ∨
    (∃ t, openTransaction s = .done .resetOk t ∧ PollOnly s t ∧ Orderly s t ∧
      t.gotos = s.gotos ++ [.resetWait, .presence, .commandReceive] ∧
      t.err = s.err ∧ t.sel = noneByte ∧ t.result = s.result ∧ t.fsm = .commandReceive ∧ t.tbit = 8) ∨
    (∃ code t sts, openTransaction s = .abort code t ∧ PollOnly s t ∧ Orderly s t ∧ t.gotos = s.gotos ++ sts ∧
      AbortedIn sts code s.sel t.sel ∧ t.result = s.result) := by
  unfold openTransaction
  have f0 := goto_poll .resetWait s
  have o0 := goto_orderly .resetWait s
  rcases resetDetect_cases (goto .resetWait s) with ⟨t, h, f, ti, hs⟩ | ⟨t, h, f, ti, hs⟩ | ⟨code, t, h, f, ti, hs, hc⟩
  · exact .inl ⟨t, by rw [h]; rfl, f0.trans f.poll, o0.trans ti.toOrderly, ti.gotos.trans (goto_gotos _ _), f.err, hs,
      f.result⟩
  · have f1 := (f0.trans f.poll).trans (goto_poll .presence t)
    have o1 := (o0.trans ti.toOrderly).trans (goto_orderly .presence t)
    have g1 : (goto .presence t).gotos = s.gotos ++ [.resetWait, .presence] := by
      rw [goto_gotos, ti.gotos, goto_gotos]; simp
    rcases presence_cases (goto .presence t) with ⟨u, k, fu, tu, su⟩ | ⟨u, k, fu, tu, su⟩
    · have f2 := f1.trans fu.poll
      have o2 := o1.trans tu.toOrderly
      rcases receiveCommand_cases u with ⟨v, q, fv, ov, gv, ev, sv, rv, stv, bv⟩ | ⟨v, q, fv, ov, gv, sv, rv, ev⟩
      · exact .inr (.inl ⟨v, by simp only [h, k, q, Proc.andThen], f2.trans fv, o2.trans ov,
          by rw [gv, tu.gotos, g1]; simp, by rw [ev, fu.err]; exact f.err, by rw [sv, su]; exact hs,
          by rw [rv, fu.result]; exact f.result, stv, bv⟩)
      · exact .inr (.inr ⟨v.err, v, _, by simp only [h, k, q, Proc.andThen], f2.trans fv, o2.trans ov,
          by rw [gv, tu.gotos, g1, List.append_assoc]; rfl, .inr (.inr ⟨rfl, ev, by rw [sv, su]; exact hs⟩),
          by rw [rv, fu.result]; exact f.result⟩)
    · exact .inr (.inr ⟨_, u, _, by simp only [h, k, Proc.andThen], f1.trans fu.poll, o1.trans tu.toOrderly,
        by rw [tu.gotos, g1], .inr (.inl ⟨rfl, rfl, by rw [su]; exact hs⟩), by rw [fu.result]; exact f.result⟩)
  · exact .inr (.inr ⟨code, t, _, by rw [h]; rfl, f0.trans f.poll, o0.trans ti.toOrderly,
      ti.gotos.trans (goto_gotos _ _), .inl ⟨rfl, hc, hs⟩, f.result⟩)

/-- How a POLL with a device attached ends (R251, R253, R254): no reset, a command byte received, or an abort. -/
theorem pollBody_cases (s : State) (hc : s.count ≠ 0) :
    PollOnly s (pollBody s) ∧ Orderly s (pollBody s) ∧
    (((pollBody s).fsm = .idle ∧ (pollBody s).err = .noError ∧ (pollBody s).sel = s.sel ∧
        (pollBody s).result = s.pollResult 0x01 ∧ (pollBody s).gotos = s.gotos ++ [.resetWait, .idle]) ∨
     ((pollBody s).fsm = .commandReceive ∧ (pollBody s).err = .noError ∧ (pollBody s).sel = noneByte ∧
        (pollBody s).tbit = 8 ∧ (pollBody s).result = s.result ∧
        (pollBody s).gotos = s.gotos ++ [.resetWait, .presence, .commandReceive]) ∨
     ((pollBody s).fsm = .idle ∧ (pollBody s).result = s.pollResult 0x02 ∧
        ∃ sts, AbortedIn sts (pollBody s).err s.sel (pollBody s).sel ∧
          (pollBody s).gotos = s.gotos ++ sts ++ [.idle])) := by
  have f0 := setErr_poll .noError s
  have o0 : Orderly s (s.setErr .noError) := .of_eq rfl rfl rfl
  rcases openTransaction_cases (s.setErr .noError) with ⟨t, h, f, o, g, e, v, r⟩ | ⟨t, h, f, o, g, e, v, r, st, bt⟩ |
    ⟨code, t, sts, h, f, o, g, p, r⟩
  · have hp : pollBody s = finishPoll .noReset false t := by
      unfold pollBody; dsimp only; rw [if_neg hc, h]
    rw [hp]
    refine ⟨(f0.trans f).trans (finishPoll_poll _ _ _), (o0.trans o).trans (finishPoll_orderly _ _ _), .inl ⟨?_, ?_, ?_, ?_, ?_⟩⟩
    · simp
    · simpa using e
    · simpa using v
    · exact finishPoll_pollResult (s := s.setErr .noError) f.running r _ _
    · rw [finishPoll_gotos, g]
      show (s.gotos ++ [.resetWait]) ++ [.idle] = _
      simp
  · have hp : pollBody s = t := by
      unfold pollBody; dsimp only; rw [if_neg hc, h]
    rw [hp]
    exact ⟨f0.trans f, o0.trans o, .inr (.inl ⟨st, e, v, bt, r, g⟩)⟩
  · have hp : pollBody s = raiseAbort code false t := by
      unfold pollBody; dsimp only; rw [if_neg hc, h]
    rw [hp]
    refine ⟨(f0.trans f).trans (raiseAbort_poll _ _ _), (o0.trans o).trans (raiseAbort_orderly _ _ _),
      .inr (.inr ⟨?_, ?_, sts, ?_, ?_⟩)⟩
    · simp
    · exact raiseAbort_result (s := s.setErr .noError) f.running r _ _
    · rw [raiseAbort_err, if_pos (p.writesErr _), raiseAbort_sel]; exact p
    · rw [raiseAbort_gotos, g]; rfl

/-- A POLL that changes SEL has gone through Presence: it has accepted a bus reset (R189, R250). -/
theorem pollBody_sel (s : State) (h : (pollBody s).sel ≠ s.sel) :
    (pollBody s).sel = noneByte ∧ ∃ es, (pollBody s).trace = es ++ s.trace ∧ Event.goto .presence ∈ es := by
  by_cases hc : s.count = 0
  · refine absurd ?_ h
    unfold pollBody returnPoll; dsimp only; rw [if_pos hc]; split <;> rfl
  · obtain ⟨-, o, k⟩ := pollBody_cases s hc
    have key : ∀ sts, (pollBody s).gotos = s.gotos ++ sts → Fsm.presence ∈ sts →
        ∃ es, (pollBody s).trace = es ++ s.trace ∧ Event.goto .presence ∈ es := by
      intro sts hg hp
      obtain ⟨es, he, -⟩ := o.trace
      exact ⟨es, he, goto_mem_of_gotos he hg hp⟩
    rcases k with ⟨-, -, v, -⟩ | ⟨-, -, v, -, -, g⟩ | ⟨-, -, sts, ⟨-, -, v⟩ | ⟨rfl, -, v⟩ | ⟨rfl, -, v⟩, g⟩
    · exact absurd v h
    · exact ⟨v, key _ g (by simp)⟩
    · exact absurd v h
    · exact ⟨v, key _ (by rw [g, List.append_assoc]) (by simp)⟩
    · exact ⟨v, key _ (by rw [g, List.append_assoc]) (by simp)⟩

theorem pollBody_noDevices (s : State) (hc : s.count = 0) :
    pollBody s = returnPoll .noDevices false (s.setErr .noError) := by
  unfold pollBody; dsimp only; rw [if_pos (by exact hc)]

/-! ### SEARCH_ROM (R257) -/

/-- `t` is `s` but for what SEARCH_ROM may change. -/
def SearchOnly (s t : State) : Prop := ∃ u p n r g, PollOnly s u ∧ t = u.setWalk p n r g

theorem PollOnly.search {s t : State} (h : PollOnly s t) : SearchOnly s t := ⟨t, t.wpos, t.wnode, t.wrep, t.wtrig, h, rfl⟩

theorem WalkOnly.search {s t : State} (h : WalkOnly s t) : SearchOnly s t := by
  obtain ⟨u, p, n, r, g, hu, rfl⟩ := h
  exact ⟨u, p, n, r, g, hu.transport.poll, rfl⟩

theorem SearchOnly.trans {s t u : State} (h : SearchOnly s t) (k : SearchOnly t u) : SearchOnly s u := by
  obtain ⟨_, p, n, r, g, ⟨b, τ, tr, m, l, e, d, sh, c, v, st, rs, rfl⟩, rfl⟩ := h
  obtain ⟨_, p', n', r', g', ⟨b', τ', tr', m', l', e', d', sh', c', v', st', rs', rfl⟩, rfl⟩ := k
  exact ⟨_, p', n', r', g', ⟨b', τ', tr', m', l', e', d', sh', c', v', st', rs', rfl⟩, rfl⟩

theorem walkStart_search (s : State) : SearchOnly s (walkStart s) :=
  ⟨s, _, _, _, _, (TransportOnly.refl s).poll, rfl⟩

theorem WalkOnly.sel {s t : State} (h : WalkOnly s t) : t.sel = s.sel := by
  obtain ⟨_, _, _, _, _, ⟨_, _, _, _, _, _, _, rfl⟩, rfl⟩ := h; rfl
theorem WalkOnly.cfg {s t : State} (h : WalkOnly s t) : t.cfg = s.cfg := by
  obtain ⟨_, _, _, _, _, ⟨_, _, _, _, _, _, _, rfl⟩, rfl⟩ := h; rfl
theorem WalkOnly.result {s t : State} (h : WalkOnly s t) : t.result = s.result := by
  obtain ⟨_, _, _, _, _, ⟨_, _, _, _, _, _, _, rfl⟩, rfl⟩ := h; rfl
theorem WalkOnly.running {s t : State} (h : WalkOnly s t) : t.running = s.running := by
  obtain ⟨_, _, _, _, _, ⟨_, _, _, _, _, _, _, rfl⟩, rfl⟩ := h; rfl

/-- How a search ends over any tree: it selects WREP, or it aborts and leaves SEL alone (R257, R305). -/
theorem execSearchRom_cases (s : State) : ∃ t, execSearchRom s = .next t ∧ SearchOnly s t ∧ Orderly s t ∧
    t.fsm = .idle ∧ t.gotos = s.gotos ++ [.search, .idle] ∧
    ((∃ u, walkSteps 64 (walkStart (goto .search s)) = .done () u ∧ t.sel = u.wrep ∧ t.err = u.err ∧
        t.result = u.pollResult 0x83) ∨
     (∃ code u, walkSteps 64 (walkStart (goto .search s)) = .abort code u ∧ t.sel = u.sel ∧
        t.err = (if writesErr u.cfg code then code else u.err) ∧ t.result = u.pollResult 0x82)) := by
  have key : ∀ n u, ∃ v, (walkSteps n u = .done () v ∨ ∃ code, walkSteps n u = .abort code v) ∧ WalkOnly u v ∧ Tidy u v := by
    intro n
    induction n with
    | zero => exact fun u => ⟨u, .inl rfl, (BitOnly.refl u).walk, .refl u⟩
    | succ n ih =>
      intro u
      rcases walkStep_cases u with ⟨d, w, t, hs, hk, hb, ht, -⟩ | ⟨d, w, hs, -, hb, ht, -⟩ | ⟨w, hs, hb, ht, -⟩
      · obtain ⟨_, _, _, _, hv⟩ := walkTake_frame hk
        obtain ⟨v, h1, h2, h3⟩ := ih t
        refine ⟨v, by simp only [walkSteps, hs, Proc.andThen]; exact h1, WalkOnly.trans ⟨w, _, _, _, _, hb, hv⟩ h2, ?_⟩
        exact (ht.trans (hv ▸ .of_eq rfl rfl rfl)).trans h3
      · exact ⟨w, .inr ⟨.searchMismatch, by simp only [walkSteps, hs, Proc.andThen]⟩, hb.walk, ht⟩
      · exact ⟨w, .inr ⟨w.err, by simp only [walkSteps, hs, Proc.andThen]⟩, hb.walk, ht⟩
  obtain ⟨v, hv, hf, ht⟩ := key 64 (walkStart (goto .search s))
  have f0 := ((goto_poll .search s).search.trans (walkStart_search _)).trans hf.search
  have t0 : Tidy (goto .search s) (walkStart (goto .search s)) := .of_eq rfl rfl rfl
  have o0 := (goto_orderly .search s).trans (t0.trans ht).toOrderly
  have g0 : v.gotos = s.gotos ++ [.search] := (t0.trans ht).gotos.trans (goto_gotos _ _)
  rcases hv with hv | ⟨code, hv⟩
  · refine ⟨finishPoll .searchDone true (v.setSel v.wrep), ?_, ?_, ?_, ?_, ?_, .inl ⟨v, hv, ?_, ?_, ?_⟩⟩
    · unfold execSearchRom searchWalk; rw [hv]; rfl
    · exact (f0.trans (setSel_poll _ v).search).trans (finishPoll_poll _ _ _).search
    · exact (o0.trans (setSel_orderly _ v)).trans (finishPoll_orderly _ _ _)
    · simp
    · rw [finishPoll_gotos]; show v.gotos ++ _ = _; rw [g0]; simp
    · simp
    · simp
    · exact finishPoll_pollResult (s := v) (t := v.setSel v.wrep) rfl rfl _ _
  · refine ⟨raiseAbort code true v, ?_, ?_, ?_, ?_, ?_, .inr ⟨code, v, hv, ?_, ?_, ?_⟩⟩
    · unfold execSearchRom searchWalk; rw [hv]; rfl
    · exact f0.trans (raiseAbort_poll _ _ _).search
    · exact o0.trans (raiseAbort_orderly _ _ _)
    · simp
    · rw [raiseAbort_gotos, g0]; simp
    · simp
    · simp
    · exact raiseAbort_result (s := v) rfl rfl _ _

/-! ### MATCH_ROM (R258) -/

/-- `t` is `s` but for what receiving an address may change. -/
def AddressOnly (s t : State) : Prop := ∃ u a, TransportOnly s u ∧ t = u.setMaddr a

theorem TransportOnly.address {s t : State} (h : TransportOnly s t) : AddressOnly s t := ⟨t, t.maddr, h, rfl⟩

theorem AddressOnly.trans {s t u : State} (h : AddressOnly s t) (k : AddressOnly t u) : AddressOnly s u := by
  obtain ⟨_, a, ⟨b, τ, tr, m, l, e, d, sh, n, rfl⟩, rfl⟩ := h
  obtain ⟨_, a', ⟨b', τ', tr', m', l', e', d', sh', n', rfl⟩, rfl⟩ := k
  exact ⟨_, a', ⟨b', τ', tr', m', l', e', d', sh', n', rfl⟩, rfl⟩

theorem AddressOnly.cfg {s t : State} (h : AddressOnly s t) : t.cfg = s.cfg := by
  obtain ⟨_, _, ⟨_, _, _, _, _, _, _, _, _, rfl⟩, rfl⟩ := h; rfl
theorem AddressOnly.sel {s t : State} (h : AddressOnly s t) : t.sel = s.sel := by
  obtain ⟨_, _, ⟨_, _, _, _, _, _, _, _, _, rfl⟩, rfl⟩ := h; rfl
theorem AddressOnly.slots {s t : State} (h : AddressOnly s t) : t.slots = s.slots := by
  obtain ⟨_, _, ⟨_, _, _, _, _, _, _, _, _, rfl⟩, rfl⟩ := h; rfl
theorem AddressOnly.devices {s t : State} (h : AddressOnly s t) : t.devices = s.devices := by
  obtain ⟨_, _, ⟨_, _, _, _, _, _, _, _, _, rfl⟩, rfl⟩ := h; rfl
theorem AddressOnly.result {s t : State} (h : AddressOnly s t) : t.result = s.result := by
  obtain ⟨_, _, ⟨_, _, _, _, _, _, _, _, _, rfl⟩, rfl⟩ := h; rfl
theorem AddressOnly.running {s t : State} (h : AddressOnly s t) : t.running = s.running := by
  obtain ⟨_, _, ⟨_, _, _, _, _, _, _, _, _, rfl⟩, rfl⟩ := h; rfl

theorem setMaddr_tidy (a : Vector Byte 8) (s : State) : Tidy s (s.setMaddr a) := .of_eq rfl rfl rfl
theorem setMaddr_address (a : Vector Byte 8) (s : State) : AddressOnly s (s.setMaddr a) :=
  ⟨s, a, .refl s, rfl⟩

theorem smearMaddr_address (k : Nat) (s : State) : AddressOnly s (smearMaddr k s) :=
  ⟨s.setDraws (s.draws + 8), _, ⟨s.bus, s.time, s.trace, s.imask, s.line, s.err, s.draws + 8, s.tshift, s.tbit, rfl⟩, rfl⟩

theorem smearMaddr_tidy (k : Nat) (s : State) : Tidy s (smearMaddr k s) := .of_eq rfl rfl rfl

/-- A failed address byte leaves the bytes before it in MADDR (R258). -/
theorem smearMaddr_maddr (k : Nat) (s : State) (j : Nat) (hj : j < k) (h8 : j < 8) :
    (smearMaddr k s).maddr[j] = s.maddr[j] := by
  simp [smearMaddr, hj]

/-- How the reception of an address ends: whole, or at the first failed byte (R258). -/
theorem receiveAddress_cases (n k : Nat) (s : State) :
    (∃ t, receiveAddress n k s = .done () t ∧ AddressOnly s t ∧ Tidy s t ∧ t.err = s.err) ∨
    (∃ t, receiveAddress n k s = .abort t.err t ∧ AddressOnly s t ∧ Tidy s t ∧
      (t.err = .readTimeslotTimeoutLow ∨ t.err = .readTimeslotTimeoutHigh)) := by
  induction n generalizing k s with
  | zero => exact .inl ⟨s, rfl, (TransportOnly.refl s).address, .refl s, rfl⟩
  | succ n ih =>
    have fr := recvByte_frame s
    have ti := recvByte_tidy s
    have la := recvByte_latched s
    simp only [receiveAddress]
    generalize recvByte s = r at fr ti la ⊢
    obtain ⟨⟨_ | _, b⟩, t⟩ := r
    · exact .inr ⟨smearMaddr k t, rfl, fr.address.trans (smearMaddr_address k t), ti.trans (smearMaddr_tidy k t), la⟩
    · simp only [if_true]
      rcases ih (k + 1) (t.setMaddr (t.maddr.setIfInBounds k b)) with ⟨u, h1, h2, h3, h4⟩ | ⟨u, h1, h2, h3, h4⟩
      · exact .inl ⟨u, h1, (fr.address.trans (setMaddr_address _ t)).trans h2,
          (ti.trans (setMaddr_tidy _ t)).trans h3, h4.trans la⟩
      · exact .inr ⟨u, h1, (fr.address.trans (setMaddr_address _ t)).trans h2,
          (ti.trans (setMaddr_tidy _ t)).trans h3, h4⟩

/-- Served reception of the address bytes from byte k on (30_encoding R112). -/
theorem receiveAddress_served (n k : Nat) (s : State) (bytes : List Byte) {script : List Draw} {as : List Access}
    (rest : List Draw) (hn : bytes.length = n) (h : Slots (RecvSlot s.cfg) (bytesBits bytes) script as)
    (hb : s.bus = script ++ rest) (hl : s.line = ⟨false, false⟩) :
    ∃ t, receiveAddress n k s = .done () t ∧ t.bus = rest ∧ t.line = ⟨false, false⟩ ∧
      t.accesses = s.accesses ++ as ∧
      (∀ j, t.maddr[j]? = if k ≤ j ∧ j < k + n ∧ j < 8 then bytes[j - k]? else s.maddr[j]?) := by
  induction n generalizing k s bytes script as with
  | zero =>
    obtain rfl := List.length_eq_zero_iff.mp hn
    obtain ⟨rfl, rfl⟩ := h
    refine ⟨s, rfl, hb, hl, by simp, fun j => ?_⟩
    rw [if_neg (by omega)]
  | succ n ih =>
    obtain ⟨b, bytes, rfl⟩ := List.exists_cons_of_length_eq_add_one hn
    rw [bytesBits_cons, Slots.append] at h
    obtain ⟨d1, a1, d2, a2, hd, hs, rfl, rfl⟩ := h
    obtain ⟨h1, h2, h3, h4, -, -⟩ := recvByte_served (d2 ++ rest) hd (by rw [hb, List.append_assoc]) hl
    have hm := (recvByte_frame s).maddr
    simp only [receiveAddress, h1, if_true]
    obtain ⟨t, i1, i2, i3, i4, i5⟩ := ih (k + 1) ((recvByte s).2.setMaddr ((recvByte s).2.maddr.setIfInBounds k b))
      bytes (by simpa using hn) (by rw [setMaddr_cfg, (recvByte_frame s).cfg]; exact hs) h2 h3
    refine ⟨t, i1, i2, i3, ?_, fun j => ?_⟩
    · rw [i4]
      show (recvByte s).2.accesses ++ _ = _
      rw [h4, List.append_assoc]
    · rw [i5 j, setMaddr_maddr, hm]
      by_cases hj : k + 1 ≤ j ∧ j < k + 1 + n ∧ j < 8
      · rw [if_pos hj, if_pos (by omega)]
        rw [show j - k = (j - (k + 1)) + 1 by omega, List.getElem?_cons_succ]
      · rw [if_neg hj]
        by_cases hjk : j = k
        · subst hjk
          by_cases h8 : j < 8
          · rw [if_pos (by omega)]; simp [h8]
          · rw [if_neg (by omega)]; simp [h8]
        · rw [if_neg (by omega)]
          rw [Vector.getElem?_setIfInBounds_ne (by omega)]

/-- An address of which `bytes` and some bits are served and the next slot does not come (R258): the bytes are in MADDR, and
the core samples no more than that slot wait. -/
theorem receiveAddress_partial (bytes : List Byte) (n k : Nat) (s : State) (bits : List Bool) {script tail : List Draw}
    {as : List Access} {e : ErrKind} (hn : bytes.length < n) (hk : k + n ≤ 8) (hv : bits.length < 8)
    (h : Slots (RecvSlot s.cfg) (bytesBits bytes ++ bits) script as) (ht : StuckTail s.cfg tail e)
    (hb : s.bus = script ++ tail) (hl : s.line = ⟨false, false⟩) :
    ∃ t waits, receiveAddress n k s = .abort e t ∧ t.err = e ∧ t.accesses = s.accesses ++ as ++ waits ∧
      OnlySamples waits ∧
      ∀ j < k + bytes.length, t.maddr[j]? = if k ≤ j then bytes[j - k]? else s.maddr[j]? := by
  induction bytes generalizing n k s script as with
  | nil =>
    obtain ⟨n, rfl⟩ := Nat.exists_eq_succ_of_ne_zero (by simp at hn; omega : n ≠ 0)
    obtain ⟨h1, h2, waits, h3, h4⟩ := recvByte_stuck hv h hb hl ht
    refine ⟨smearMaddr k (recvByte s).2, waits, ?_, h2, h3, h4, fun j hj => ?_⟩
    · simp only [receiveAddress]; rw [if_neg (by rw [h1]; simp), h2]
    · have hjk : j < k := by simpa using hj
      have h8 : j < 8 := by omega
      rw [if_neg (by omega), Vector.getElem?_eq_getElem h8, smearMaddr_maddr k _ j hjk h8, (recvByte_frame s).maddr,
        Vector.getElem?_eq_getElem h8]
  | cons b bytes ih =>
    obtain ⟨n, rfl⟩ := Nat.exists_eq_succ_of_ne_zero (by simp at hn; omega : n ≠ 0)
    rw [bytesBits_cons, List.append_assoc, Slots.append] at h
    obtain ⟨d1, a1, d2, a2, hd, hs, rfl, rfl⟩ := h
    obtain ⟨h1, h2, h3, h4, -, -⟩ := recvByte_served (d2 ++ tail) hd (by rw [hb, List.append_assoc]) hl
    have hf := recvByte_frame s
    simp only [receiveAddress, h1, if_true]
    obtain ⟨t, waits, i1, i2, i3, i4, i5⟩ := ih n (k + 1)
      ((recvByte s).2.setMaddr ((recvByte s).2.maddr.setIfInBounds k b)) (by simpa using hn) (by omega)
      (by rw [setMaddr_cfg, hf.cfg]; exact hs) (by rw [setMaddr_cfg, hf.cfg]; exact ht) h2 h3
    refine ⟨t, waits, i1, i2, ?_, i4, fun j hj => ?_⟩
    · rw [i3]
      show (recvByte s).2.accesses ++ _ ++ _ = _
      rw [h4]; simp only [List.append_assoc]
    · rw [i5 j (by simp only [List.length_cons] at hj; omega), setMaddr_maddr, hf.maddr]
      rcases Nat.lt_trichotomy j k with hjk | rfl | hjk
      · rw [if_neg (by omega), if_neg (by omega), Vector.getElem?_setIfInBounds_ne (by omega)]
      · rw [if_neg (by omega), if_pos (Nat.le_refl _), Nat.sub_self]
        simp [show j < 8 by omega]
      · rw [if_pos (by omega), if_pos (by omega), show j - k = (j - (k + 1)) + 1 by omega, List.getElem?_cons_succ]

theorem matchedSlot_eq_some {s : State} {i : Nat} (h : s.matchedSlot = some i) :
    i < s.cfg.nMax ∧ s.matchesAddress i = true := by
  unfold State.matchedSlot at h
  exact ⟨List.mem_range.mp (List.mem_of_find?_eq_some h), List.find?_some h⟩

theorem matchesAddress_occupied {s : State} {i : Nat} (h : s.matchesAddress i = true) : s.Occupied i := by
  unfold State.matchesAddress at h
  rw [Bool.and_eq_true] at h
  exact h.1

/-- `t` is `s` but for what MATCH_ROM may change. -/
def MatchOnly (s t : State) : Prop := ∃ u a, PollOnly s u ∧ t = u.setMaddr a

theorem PollOnly.matchOnly {s t : State} (h : PollOnly s t) : MatchOnly s t := ⟨t, t.maddr, h, rfl⟩

theorem AddressOnly.matchOnly {s t : State} (h : AddressOnly s t) : MatchOnly s t := by
  obtain ⟨u, a, hu, rfl⟩ := h; exact ⟨u, a, hu.poll, rfl⟩

theorem MatchOnly.trans {s t u : State} (h : MatchOnly s t) (k : MatchOnly t u) : MatchOnly s u := by
  obtain ⟨_, a, ⟨b, τ, tr, m, l, e, d, sh, n, v, st, r, rfl⟩, rfl⟩ := h
  obtain ⟨_, a', ⟨b', τ', tr', m', l', e', d', sh', n', v', st', r', rfl⟩, rfl⟩ := k
  exact ⟨_, a', ⟨b', τ', tr', m', l', e', d', sh', n', v', st', r', rfl⟩, rfl⟩

/-- How MATCH_ROM ends (R258): a match starts the duty; no match and a failed address byte abort. -/
theorem execMatchRom_cases (s : State) : ∃ t, execMatchRom s = .next t ∧ MatchOnly s t ∧ Orderly s t ∧
    ((∃ u i, receiveAddress 8 0 (goto .matchRom s) = .done () u ∧ u.matchedSlot = some i ∧
        t = goto .duty (u.setSel (BitVec.ofNat 8 i)) ∧ u.err = s.err ∧ AddressOnly (goto .matchRom s) u ∧
        u.gotos = s.gotos ++ [.matchRom]) ∨
     (∃ code u, t = raiseAbort code false u ∧ u.sel = s.sel ∧ u.result = s.result ∧ u.running = s.running ∧
        u.cfg = s.cfg ∧ u.gotos = s.gotos ++ [.matchRom] ∧
        ((code = .noAddressMatch ∧ u.err = s.err ∧ u.matchedSlot = none ∧
            receiveAddress 8 0 (goto .matchRom s) = .done () u) ∨
         (code = u.err ∧ (u.err = .readTimeslotTimeoutLow ∨ u.err = .readTimeslotTimeoutHigh))))) := by
  have f0 := (goto_poll .matchRom s).matchOnly
  have o0 := goto_orderly .matchRom s
  unfold execMatchRom
  rcases receiveAddress_cases 8 0 (goto .matchRom s) with ⟨u, h, f, ti, e⟩ | ⟨u, h, f, ti, e⟩
  · have g : u.gotos = s.gotos ++ [.matchRom] := ti.gotos.trans (goto_gotos _ _)
    rw [h]
    dsimp only
    cases hm : u.matchedSlot with
    | none =>
      exact ⟨_, rfl, (f0.trans f.matchOnly).trans (raiseAbort_poll _ _ _).matchOnly,
        (o0.trans ti.toOrderly).trans (raiseAbort_orderly _ _ _),
        .inr ⟨_, u, rfl, f.sel, f.result, f.running, f.cfg, g, .inl ⟨rfl, e, hm, rfl⟩⟩⟩
    | some i =>
      exact ⟨_, rfl, ((f0.trans f.matchOnly).trans (setSel_poll _ u).matchOnly).trans (goto_poll _ _).matchOnly,
        ((o0.trans ti.toOrderly).trans (setSel_orderly _ u)).trans (goto_orderly _ _),
        .inl ⟨u, i, rfl, hm, rfl, e, f, g⟩⟩
  · have g : u.gotos = s.gotos ++ [.matchRom] := ti.gotos.trans (goto_gotos _ _)
    rw [h]
    exact ⟨_, rfl, (f0.trans f.matchOnly).trans (raiseAbort_poll _ _ _).matchOnly,
        (o0.trans ti.toOrderly).trans (raiseAbort_orderly _ _ _),
        .inr ⟨_, u, rfl, f.sel, f.result, f.running, f.cfg, g, .inr ⟨rfl, e⟩⟩⟩

end Sys2Proof.Machine
end

