-- ==== Sys2Proof/Laws/PerInstr.lean ====
section
/-! SUPPORT. One law for each instruction, as syntax: the shape of its encoding (30_encoding R114, R118). -/

namespace Sys2Proof.Laws.OpByte

/-- On the bus stream an instruction is one command byte; on the host stream it is an op code of R118 and its operand
fields. -/
def Statement (i : Instr) : Prop :=
  match i.stream with
  | .bus => ∃ cmd : Byte, encode i = [cmd.toNat]
  | .host => ∃ op args, encode i = op :: args ∧ op ∈ hostOps

theorem searchRom : Statement .searchRom := ⟨0xF0, rfl⟩
theorem matchRom : Statement .matchRom := ⟨0x55, rfl⟩
theorem skipRom : Statement .skipRom := ⟨0xCC, rfl⟩
theorem readRom : Statement .readRom := ⟨0x33, rfl⟩
theorem readRomLegacy : Statement .readRomLegacy := ⟨0x0F, rfl⟩
theorem unrecognized (cmd : Byte) : Statement (.unrecognized cmd) := ⟨cmd, rfl⟩
theorem attach (h : Handle) : Statement (.attach h) := ⟨_, _, rfl, by decide⟩
theorem detachDev (h : Handle) : Statement (.detachDev h) := ⟨_, _, rfl, by decide⟩
theorem detachSlot (i : Byte) : Statement (.detachSlot i) := ⟨_, _, rfl, by decide⟩
theorem poll : Statement .poll := ⟨_, _, rfl, by decide⟩
theorem run : Statement .run := ⟨_, _, rfl, by decide⟩
theorem getError : Statement .getError := ⟨_, _, rfl, by decide⟩
theorem getSelected : Statement .getSelected := ⟨_, _, rfl, by decide⟩
theorem getCount : Statement .getCount := ⟨_, _, rfl, by decide⟩
theorem getSlot (i : Byte) : Statement (.getSlot i) := ⟨_, _, rfl, by decide⟩
theorem sendBit (v : Bool) : Statement (.sendBit v) := ⟨_, _, rfl, by decide⟩
theorem recvBit : Statement .recvBit := ⟨_, _, rfl, by decide⟩
theorem sendByte (b : Byte) : Statement (.sendByte b) := ⟨_, _, rfl, by decide⟩
theorem recvByte : Statement .recvByte := ⟨_, _, rfl, by decide⟩
theorem sendBuf (addr : Nat) (len : Half) : Statement (.sendBuf addr len) := ⟨_, _, rfl, by decide⟩
theorem recvBuf (addr : Nat) (len : Half) : Statement (.recvBuf addr len) := ⟨_, _, rfl, by decide⟩
theorem crc8 (addr : Nat) (len : Half) : Statement (.crc8 addr len) := ⟨_, _, rfl, by decide⟩
theorem crc16 (addr : Nat) (len : Half) : Statement (.crc16 addr len) := ⟨_, _, rfl, by decide⟩
theorem makeId (fam : Byte) (ser : Vector Byte 6) : Statement (.makeId fam ser) := ⟨_, _, rfl, by decide⟩

end Sys2Proof.Laws.OpByte
end

