-- ==== Sys2Proof/Laws/SlotTable.lean ====
section
/-! SUPPORT. What the slot-table operations do to the table, to COUNT and to the tree (46_slot_table), and what the fetch
does to the duties (45_dispatcher R262). -/

namespace Sys2Proof.Machine

/-! ### The build (41_decision_tree R160, R162) -/

theorem build_eq (s : State) : build s = s.setTree (buildTree s.cfg.treeSize s.occupied s.slotBit).1
    (buildTree s.cfg.treeSize s.occupied s.slotBit).2.nodes
    (buildTree s.cfg.treeSize s.occupied s.slotBit).2.next := rfl


theorem buildTree_congr {size : Nat} {S : List Nat} {bit bit' : Nat → Nat → Bool}
    (h : ∀ i ∈ S, ∀ p < 64, bit i p = bit' i p) : buildTree size S bit = buildTree size S bit' := by
  cases S with
  | nil => rfl
  | cons x S => exact buildSub_congr 64 (x :: S) (Arena.clear size) h

/-- The tree is current right after a build (R96). -/
theorem build_treeCurrent (s : State) : (build s).TreeCurrent := by
  have ho : (build s).occupied = s.occupied := occupied_congr rfl rfl
  have hb : (build s).slotBit = s.slotBit := slotBit_congr rfl rfl
  unfold State.TreeCurrent
  rw [ho, hb]; rfl

/-- TreeCurrent depends on these fields only. -/
theorem TreeCurrent.congr {s t : State} (h : s.TreeCurrent) (h1 : t.slots = s.slots) (h2 : t.cfg = s.cfg)
    (h3 : t.devices = s.devices) (h4 : t.treeRoot = s.treeRoot) (h5 : t.tree = s.tree)
    (h6 : t.treeNext = s.treeNext) : t.TreeCurrent := by
  unfold State.TreeCurrent
  rw [occupied_congr h1 h2, slotBit_congr h1 h3, h2, h4, h5, h6]; exact h

/-! ### The lowest slot (46_slot_table R281, R282) -/

/-- The first index a search of a range finds is the lowest that qualifies. -/
theorem find_range_first {n i : Nat} {p : Nat → Bool} (hi : i < n) (hp : p i = true) (hj : ∀ j < i, p j = false) :
    (List.range n).find? p = some i := by
  rw [List.find?_range_eq_some]
  exact ⟨hp, List.mem_range.mpr hi, fun j h => by simp [hj j h]⟩

theorem slotOf_first {s : State} {h : Handle} {i : Nat} (hi : i < s.cfg.nMax) (h1 : s.slotAt i = some h)
    (h2 : ∀ j < i, s.slotAt j ≠ some h) : s.slotOf h = some i :=
  find_range_first hi (by simp [h1]) fun j hj => by simpa using h2 j hj

theorem freeSlot_first {s : State} {i : Nat} (hi : i < s.cfg.nMax) (h1 : s.slotAt i = none)
    (h2 : ∀ j < i, s.slotAt j ≠ none) : s.freeSlot = some i :=
  find_range_first hi (by simp [h1]) fun j hj => by simpa using Option.isSome_iff_ne_none.mpr (h2 j hj)

/-! ### COUNT (10_state R36) -/

theorem occupied_length_le (s : State) : s.occupied.length ≤ s.cfg.nMax := by
  have := List.length_filter_le (fun i => (s.slotAt i).isSome) (List.range s.cfg.nMax)
  rwa [List.length_range] at this

theorem countP_range_update (n i : Nat) (hi : i < n) (f g : Nat → Bool) (hf : f i = false) (hg : g i = true)
    (h : ∀ j, j ≠ i → f j = g j) : ((List.range n).filter g).length = ((List.range n).filter f).length + 1 := by
  induction n with
  | zero => omega
  | succ n ih =>
    rw [List.range_succ, List.filter_append, List.filter_append, List.length_append, List.length_append]
    by_cases hin : i = n
    · subst hin
      have : (List.range i).filter g = (List.range i).filter f :=
        List.filter_congr fun j hj => (h j (by have := List.mem_range.mp hj; omega)).symm
      rw [this]; simp [hf, hg]
    · rw [ih (by omega)]
      rw [List.filter_singleton, List.filter_singleton, h n (by omega)]; omega

theorem slotAt_setSlot_ne (s : State) {i j : Nat} (h : Option Handle) (hj : j ≠ i) :
    (s.setSlot i h).slotAt j = s.slotAt j := by
  unfold State.slotAt State.setSlot
  rw [List.getElem?_set_ne (Ne.symm hj)]

/-- Filling a free slot adds one occupied slot. -/
theorem occupied_fill {s : State} {i : Nat} {h : Handle} (hi : i < s.cfg.nMax) (hl : s.slots.length = s.cfg.nMax)
    (hf : s.slotAt i = none) : (s.setSlot i (some h)).occupied.length = s.occupied.length + 1 := by
  refine countP_range_update s.cfg.nMax i hi _ _ (by rw [hf]; rfl) ?_ fun j hj => ?_
  · rw [slotAt_setSlot s i i _ (by omega)]; simp
  · rw [slotAt_setSlot_ne s _ hj]

/-- Emptying an occupied slot takes one away. -/
theorem occupied_empty {s : State} {i : Nat} (hi : i < s.cfg.nMax) (hl : s.slots.length = s.cfg.nMax)
    (hf : s.Occupied i) : s.occupied.length = (s.setSlot i none).occupied.length + 1 := by
  refine countP_range_update s.cfg.nMax i hi _ _ ?_ hf fun j hj => ?_
  · rw [slotAt_setSlot s i i _ (by omega)]; simp
  · rw [slotAt_setSlot_ne s _ hj]

/-! ### The invariant across a change of the table -/

theorem count_add_toNat {c : Byte} (h : c.toNat < 127) : (c + 1).toNat = c.toNat + 1 := by
  rw [BitVec.toNat_add]; simp; omega

theorem count_sub_toNat {c : Byte} (h : 1 ≤ c.toNat) : (c - 1).toNat = c.toNat - 1 := by
  rw [BitVec.toNat_sub]; have := c.isLt; simp; omega

/-- What a fill of slot i keeps (R36, R37 (a)). -/
theorem fill_keeps {s : State} {i : Nat} {h : Handle} (inv : s.Inv) (hi : s.freeSlot = some i)
    (hn : s.slotOf h = none) :
    (s.setSlot i (some h)).SlotsDistinct ∧
    (s.count + 1).toNat = (s.setSlot i (some h)).occupied.length ∧
    (s.setSlot i (some h)).slots.length = s.cfg.nMax := by
  obtain ⟨hlt, hfree⟩ := freeSlot_eq_some hi
  have hl := inv.slotsLength
  have hnew : ∀ j, s.slotAt j ≠ some h := by
    intro j hj
    have hocc : s.Occupied j := by unfold State.Occupied; rw [hj]; rfl
    exact slotOf_eq_none hn j (hl ▸ occupied_lt_length hocc) hj
  refine ⟨?_, ?_, by simp [State.setSlot, hl]⟩
  · intro a b g ha hb
    rw [slotAt_setSlot s i a _ (by omega)] at ha
    rw [slotAt_setSlot s i b _ (by omega)] at hb
    split at ha <;> split at hb
    · next h1 h2 => rw [h1, h2]
    · cases ha; exact absurd hb (hnew b)
    · cases hb; exact absurd ha (hnew a)
    · exact inv.slotsDistinct a b g ha hb
  · have hlen := occupied_fill (h := h) hlt hl hfree
    have hle := occupied_length_le (s.setSlot i (some h))
    have hN := inv.cfgValid.2.1
    have hc := inv.countOccupied
    have : (s.setSlot i (some h)).cfg.nMax = s.cfg.nMax := rfl
    rw [count_add_toNat (by omega), hlen, hc]

/-- What emptying slot i keeps. -/
theorem empty_keeps {s : State} {i : Nat} (inv : s.Inv) (hi : i < s.cfg.nMax) (ho : s.Occupied i) :
    (s.setSlot i none).SlotsDistinct ∧
    (s.count - 1).toNat = (s.setSlot i none).occupied.length ∧
    (s.setSlot i none).slots.length = s.cfg.nMax := by
  have hl := inv.slotsLength
  refine ⟨?_, ?_, by simp [State.setSlot, hl]⟩
  · intro a b g ha hb
    rw [slotAt_setSlot s i a _ (by omega)] at ha
    rw [slotAt_setSlot s i b _ (by omega)] at hb
    split at ha <;> split at hb
    · cases ha
    · cases ha
    · cases hb
    · exact inv.slotsDistinct a b g ha hb
  · have hlen := occupied_empty hi hl ho
    have hc := inv.countOccupied
    rw [count_sub_toNat (by omega)]; omega

/-! ### The duties (R262) -/

theorem lookup_pop (ds : List (Handle × List DutyAct)) (h : Handle) :
    (ds.map fun d => if some h = some d.1 then (d.1, d.2.tail) else d).lookup h =
      (ds.lookup h).map List.tail := by
  induction ds with
  | nil => rfl
  | cons d ds ih =>
    obtain ⟨k, acts⟩ := d
    by_cases hk : h = k
    · subst hk; simp
    · have hb : (h == k) = false := by simpa using hk
      simp only [Option.some.injEq] at ih
      simp only [List.map_cons, List.lookup_cons, Option.some.injEq, hk, if_false, hb]
      exact ih

@[simp] theorem popDuty_slots (s : State) : (popDuty s).slots = s.slots := rfl
@[simp] theorem popDuty_sel (s : State) : (popDuty s).sel = s.sel := rfl

/-- Taking the running duty's act leaves the acts after it. -/
theorem popDuty_dutyActs (s : State) : (popDuty s).dutyActs = s.dutyActs.tail := by
  have hd : (popDuty s).dutyActs = ((s.slotAt s.sel.toNat).bind fun h => (popDuty s).duties.lookup h).getD [] := rfl
  rw [hd]
  unfold State.dutyActs
  cases hs : s.slotAt s.sel.toNat with
  | none => rfl
  | some h =>
    have : (popDuty s).duties = s.duties.map fun d => if some h = some d.1 then (d.1, d.2.tail) else d := by
      unfold popDuty; rw [hs]; rfl
    rw [this]
    simp only [Option.bind_some, lookup_pop]
    cases s.duties.lookup h <;> rfl

end Sys2Proof.Machine
end

