-- ==== Sys2Proof/Laws/Step.lean ====
section
/-! SUPPORT. What one step can do (00_scope R16, R17): the decoders' streams, the cases of a step, and what an
operation must keep for the invariant to hold after it. -/

namespace Sys2Proof

/-! ### Decoders (30_encoding R114, R117, R118) -/

theorem field_toNat (w op : Nat) (b : BitVec w) : field w op b.toNat = .ok b := by
  unfold field; rw [if_pos b.isLt]; simp

theorem field_eq_ok {w op n : Nat} {b : BitVec w} (h : field w op n = .ok b) : b.toNat = n := by
  unfold field at h
  split at h
  · next hn => cases h; simp [Nat.mod_eq_of_lt hn]
  · cases h

theorem map_eq_ok {α β : Type} {f : α → β} {x : Except DecodeError α} {b : β} (h : x.map f = .ok b) :
    ∃ a, x = .ok a ∧ f a = b := by
  cases x with
  | error e => cases h
  | ok a => cases h; exact ⟨a, rfl, rfl⟩

theorem fields0_eq_ok {op : Nat} {i j : Instr} {l : List Nat} (h : fields0 op i l = .ok j) : l = [] ∧ i = j := by
  cases l with
  | nil => cases h; exact ⟨rfl, rfl⟩
  | cons _ _ => cases h

theorem fieldsHandle_eq_ok {op : Nat} {mk : Handle → Instr} {l : List Nat} {j : Instr}
    (h : fieldsHandle op mk l = .ok j) : ∃ a, l = [a] ∧ mk a = j := by
  unfold fieldsHandle at h
  split at h
  · cases h; exact ⟨_, rfl, rfl⟩
  · cases h

theorem fieldsByte_eq_ok {op : Nat} {mk : Byte → Instr} {l : List Nat} {j : Instr}
    (h : fieldsByte op mk l = .ok j) : ∃ b : Byte, l = [b.toNat] ∧ mk b = j := by
  unfold fieldsByte at h
  split at h
  · obtain ⟨b, hb, hj⟩ := map_eq_ok h
    exact ⟨b, by rw [field_eq_ok hb], hj⟩
  · cases h

theorem fieldsBit_eq_ok {op : Nat} {mk : Bool → Instr} {l : List Nat} {j : Instr}
    (h : fieldsBit op mk l = .ok j) : ∃ v : Bool, l = [v.toNat] ∧ mk v = j := by
  unfold fieldsBit at h
  split at h
  · obtain ⟨b, hb, hj⟩ := map_eq_ok h
    refine ⟨_, ?_, hj⟩
    rw [← field_eq_ok hb]
    have : ∀ c : BitVec 1, [c.toNat] = [(c == 1).toNat] := by decide
    exact this b
  · cases h

theorem fieldsBuffer_eq_ok {op : Nat} {mk : Nat → Half → Instr} {l : List Nat} {j : Instr}
    (h : fieldsBuffer op mk l = .ok j) : ∃ (a : Nat) (n : Half), l = [a, n.toNat] ∧ mk a n = j := by
  unfold fieldsBuffer at h
  split at h
  · obtain ⟨n, hn, hj⟩ := map_eq_ok h
    exact ⟨_, n, by rw [field_eq_ok hn], hj⟩
  · cases h

theorem fieldsIdent_eq_ok {op : Nat} {mk : Byte → Vector Byte 6 → Instr} {l : List Nat} {j : Instr}
    (h : fieldsIdent op mk l = .ok j) :
    ∃ (fam : Byte) (ser : Vector Byte 6), l = fam.toNat :: ser.toList.map BitVec.toNat ∧ mk fam ser = j := by
  unfold fieldsIdent at h
  split at h
  · split at h
    · next hc =>
      cases h
      obtain ⟨h0, h1, h2, h3, h4, h5, h6⟩ := hc
      exact ⟨_, _, by simp [Nat.mod_eq_of_lt, *], rfl⟩
    · cases h
  · cases h

theorem decodeRom_stream (cmd : Byte) : (decodeRom cmd).stream = .bus := by
  unfold decodeRom
  repeat' split
  all_goals rfl

theorem decode_bus (b : Byte) : decode .bus [b.toNat] = .ok (decodeRom b) := by
  have hb := b.isLt
  unfold decode
  simp only [hb, if_true, BitVec.ofNat_toNat, BitVec.setWidth_eq]

theorem decode_host_stream {fs : List Nat} {i : Instr} (h : decode .host fs = .ok i) : i.stream = .host := by
  cases fs with
  | nil => cases h
  | cons op args =>
    simp only [decode, decodeHost] at h
    unfold decodeOp at h
    split at h
    all_goals first
      | (obtain ⟨-, rfl⟩ := fields0_eq_ok h; rfl)
      | (obtain ⟨_, -, rfl⟩ := fieldsHandle_eq_ok h; rfl)
      | (obtain ⟨_, -, rfl⟩ := fieldsByte_eq_ok h; rfl)
      | (obtain ⟨_, -, rfl⟩ := fieldsBit_eq_ok h; rfl)
      | (obtain ⟨_, _, -, rfl⟩ := fieldsBuffer_eq_ok h; rfl)
      | (obtain ⟨_, _, -, rfl⟩ := fieldsIdent_eq_ok h; rfl)
      | cases h

namespace Machine

/-! ### The step -/

/-- What a step that goes on has done: it waited for the host, or ran the instruction in turn, or returned from a
duty. -/
inductive StepDid (s t : State) : Prop where
  | waited (hf : s.fsm = .idle) (hr : s.running = false) (hh : s.host = []) (ht : t = s)
  | polled (hf : s.fsm = .idle) (hr : s.running = true) (ht : exec .run s = .next t)
  | request (i : Instr) (r : List Nat) (rest : List (List Nat)) (hf : s.fsm = .idle) (hr : s.running = false)
      (hh : s.host = r :: rest) (hd : decode .host r = .ok i) (ht : exec i (s.setHost rest) = .next t)
  | command (hf : s.fsm = .commandReceive) (ht : exec (decodeRom s.tshift) s = .next t)
  | called (i : Instr) (r : List Nat) (rest : List DutyAct) (hf : s.fsm = .duty) (hh : s.dutyActs = .call r :: rest)
      (hd : decode .host r = .ok i) (ht : exec i (popDuty s) = .next t)
  | returned (rest : List DutyAct) (hf : s.fsm = .duty) (hh : s.dutyActs = .ret :: rest)
      (ht : t = dutyReturn (popDuty s))

theorem step_cases {s t : State} (h : step s = .next t) : StepDid s t := by
  unfold step at h
  cases hf : s.fsm with
  | idle =>
    cases hr : s.running with
    | true => simp [fetch, hf, hr] at h; exact .polled hf hr h
    | false =>
      cases hh : s.host with
      | nil => simp [fetch, hf, hr, hh] at h; exact .waited hf hr hh h.symm
      | cons r rest =>
        cases hd : decode .host r with
        | error e => simp [fetch, hf, hr, hh, fetchRequest, hd] at h
        | ok i => simp [fetch, hf, hr, hh, fetchRequest, hd] at h; exact .request i r rest hf hr hh hd h
  | commandReceive => simp [fetch, hf] at h; exact .command hf h
  | duty =>
    cases hh : s.dutyActs with
    | nil => simp [fetch, hf, hh] at h
    | cons act rest =>
      cases act with
      | ret => simp [fetch, hf, hh] at h; exact .returned rest hf hh h.symm
      | call r =>
        cases hd : decode .host r with
        | error e => simp [fetch, hf, hh, fetchRequest, hd] at h
        | ok i => simp [fetch, hf, hh, fetchRequest, hd] at h; exact .called i r rest hf hh hd h
  | _ => simp [fetch, hf] at h

/-! ### The invariant -/

theorem Inv.setHost {s : State} (h : s.Inv) (r : List (List Nat)) : (s.setHost r).Inv :=
  ⟨h.1, h.2, h.3, h.4, h.5, h.6, h.7, h.8, h.9, h.10, h.11, h.12, h.13, h.14⟩

theorem Inv.setDuties {s : State} (h : s.Inv) (d : List (Handle × List DutyAct)) : (s.setDuties d).Inv :=
  ⟨h.1, h.2, h.3, h.4, h.5, h.6, h.7, h.8, h.9, h.10, h.11, h.12, h.13, h.14⟩

theorem Inv.setRunning {s : State} (h : s.Inv) (r : Bool) : (s.setRunning r).Inv :=
  ⟨h.1, h.2, h.3, h.4, h.5, h.6, h.7, h.8, h.9, h.10, h.11, h.12, h.13, h.14⟩

theorem Inv.ret {s : State} (h : s.Inv) (r : Result) : (s.ret r).Inv :=
  ⟨h.1, h.2, h.3, h.4, h.5, h.6, h.7, h.8, h.9, h.10, h.11, h.12, h.13, h.14⟩

/-- A state that keeps the table, the tree, the parameters and the devices of a state with the invariant has it too, if
what it selects is attached and its FSM state goes with that. -/
theorem Inv.after {s t : State} (h : s.Inv) (ho : Orderly s t) (h1 : t.cfg = s.cfg) (h2 : t.slots = s.slots)
    (h3 : t.count = s.count) (h4 : t.devices = s.devices) (h5 : t.treeRoot = s.treeRoot) (h6 : t.tree = s.tree)
    (h7 : t.treeNext = s.treeNext) (h8 : t.mem.wf) (hs : t.sel = noneByte ∨ s.Occupied t.sel.toNat)
    (hb : t.fsm = .idle ∨ (t.fsm = .commandReceive ∧ t.tbit = 8 ∧ s.count ≠ 0 ∧ t.sel = noneByte) ∨
      (t.fsm = .duty ∧ s.count ≠ 0 ∧ s.Occupied t.sel.toNat)) : t.Inv := by
  have hocc : ∀ i, t.Occupied i ↔ s.Occupied i := fun i => by unfold State.Occupied; rw [slotAt_congr h2]
  refine ⟨h1 ▸ h.cfgValid, by rw [h2, h1]; exact h.slotsLength, ?_, ?_,
    TreeCurrent.congr h.treeCurrent h2 h1 h4 h5 h6 h7, ?_, ho.line h.released, ho.imask h.unmasked, ?_, ?_, ?_, ?_, h8,
    ho.accessesMasked h.accessesMasked⟩
  · intro i j g
    rw [slotAt_congr h2, slotAt_congr h2]
    exact h.slotsDistinct i j g
  · rw [h3, occupied_congr h2 h1]; exact h.countOccupied
  · rw [hocc]; exact hs
  · rcases hb with hb | ⟨hb, hb', _⟩ | ⟨hb, _⟩
    · exact .inl hb
    · exact .inr (.inl ⟨hb, hb'⟩)
    · exact .inr (.inr hb)
  · intro hf
    rw [h3]
    rcases hb with hb | ⟨_, _, hb', _⟩ | ⟨_, hb', _⟩
    · exact absurd hb hf
    · exact hb'
    · exact hb'
  · intro hf
    rcases hb with hb | ⟨_, _, _, hb'⟩ | ⟨hb, _⟩
    · rw [hb] at hf; cases hf
    · exact hb'
    · rw [hb] at hf; cases hf
  · intro hf
    rw [hocc]
    rcases hb with hb | ⟨hb, _⟩ | ⟨_, _, hb'⟩
    · rw [hb] at hf; cases hf
    · rw [hb] at hf; cases hf
    · exact hb'

/-- The same for an operation of the host or of a duty, which leaves SEL and FSM alone as well. -/
theorem Inv.keep {s t : State} (h : s.Inv) (ho : Orderly s t) (h1 : t.cfg = s.cfg) (h2 : t.slots = s.slots)
    (h3 : t.count = s.count) (h4 : t.devices = s.devices) (h5 : t.treeRoot = s.treeRoot) (h6 : t.tree = s.tree)
    (h7 : t.treeNext = s.treeNext) (h8 : t.mem.wf) (hs : t.sel = s.sel) (hf : t.fsm = s.fsm)
    (hn : s.fsm = .idle ∨ s.fsm = .duty) : t.Inv := by
  refine Inv.after h ho h1 h2 h3 h4 h5 h6 h7 h8 (hs ▸ h.selOccupied) ?_
  rcases hn with hn | hn
  · exact .inl (hf.trans hn)
  · exact .inr (.inr ⟨hf.trans hn, h.busyHasDevice (by rw [hn]; decide), hs ▸ h.dutySelected hn⟩)

end Machine

end Sys2Proof
end

