-- ==== Sys2Proof/Laws/TreeShape.lean ====
section
/-! SUPPORT. What the build allocates (41_decision_tree R165, R167, R171): the shape of every node, how many nodes of
each kind, and where an identifier leads. -/

namespace Sys2Proof.Machine

/-- Node `n` of `nodes` is a leaf without children, or a divergence node whose children come after it, before `hi`, and
stand at later positions; its representative is in `S` and its position at least `least` (R167). -/
def Shape (nodes : List Node) (S : List Nat) (hi least n : Nat) : Prop :=
  ∃ node, nodes[n]? = some node ∧ node.rep.toNat ∈ S ∧ least ≤ node.pos.toNat ∧
    ((node.pos = 0x80 ∧ node.zero = 0xFF ∧ node.one = 0xFF) ∨
     (node.pos.toNat < 64 ∧ n < node.zero.toNat ∧ n < node.one.toNat ∧ node.zero.toNat < hi ∧ node.one.toNat < hi ∧
      ∀ c, c = node.zero ∨ c = node.one → ∃ child, nodes[c.toNat]? = some child ∧
        node.pos.toNat < child.pos.toNat))

theorem Shape.mono {nodes : List Node} {S S' : List Nat} {hi hi' least least' n : Nat}
    (h : Shape nodes S hi least n) (hS : ∀ i ∈ S, i ∈ S') (hh : hi ≤ hi') (hl : least' ≤ least) :
    Shape nodes S' hi' least' n := by
  obtain ⟨node, h1, h2, h3, h4⟩ := h
  refine ⟨node, h1, hS _ h2, by omega, ?_⟩
  rcases h4 with h4 | ⟨a, b, c, d, e, f⟩
  · exact .inl h4
  · exact .inr ⟨a, b, c, by omega, by omega, f⟩

/-- Where the slots diverge, the two subtrees BuildSub allocates and the node it writes after them. -/
theorem buildSub_diverging {bit : Nat → Nat → Bool} {left : Nat} {S : List Nat} {a : Arena}
    (hz : group bit (63 - left) false S ≠ []) (ho : group bit (63 - left) true S ≠ [])
    (hroom : a.next.toNat + (2 * S.length - 1) ≤ a.nodes.length) (hsize : a.nodes.length ≤ 253) :
    ∃ one zero : Byte × Arena,
      buildSub bit left (group bit (63 - left) true S) ⟨a.nodes, a.next + 1⟩ = one ∧
      buildSub bit left (group bit (63 - left) false S) one.2 = zero ∧
      buildSub bit (left + 1) S a =
        (a.next, zero.2.put a.next ⟨BitVec.ofNat 8 (63 - left), minSlot S, zero.1, one.1⟩) ∧
      (a.next + 1).toNat = a.next.toNat + 1 ∧ one.1 = a.next + 1 ∧ zero.1 = one.2.next ∧
      one.2.nodes.length = a.nodes.length ∧ zero.2.nodes.length = a.nodes.length ∧
      a.next.toNat + 1 + (2 * (group bit (63 - left) true S).length - 1) ≤ a.nodes.length ∧
      one.2.next.toNat + (2 * (group bit (63 - left) false S).length - 1) ≤ a.nodes.length ∧
      a.next.toNat + 1 < one.2.next.toNat ∧ one.2.next.toNat < zero.2.next.toNat ∧
      zero.2.next.toNat ≤ a.nodes.length ∧
      (∀ i, i < a.next.toNat + 1 ∨ one.2.next.toNat ≤ i → one.2.nodes[i]? = a.nodes[i]?) ∧
      (∀ i, i < one.2.next.toNat ∨ zero.2.next.toNat ≤ i → zero.2.nodes[i]? = one.2.nodes[i]?) := by
  have hlz : 1 ≤ (group bit (63 - left) false S).length := List.length_pos_iff.mpr hz
  have hlo : 1 ≤ (group bit (63 - left) true S).length := List.length_pos_iff.mpr ho
  have hsum := group_lengths bit (63 - left) S
  have hcz := classes_le bit left (group bit (63 - left) false S)
  have hco := classes_le bit left (group bit (63 - left) true S)
  have hpz := classes_pos (bit := bit) (left := left) hz
  have hpo := classes_pos (bit := bit) (left := left) ho
  have hnext : (a.next + 1).toNat = a.next.toNat + 1 := by
    rw [BitVec.toNat_add]; simp; omega
  have h1 := buildSub_spec bit left (group bit (63 - left) true S) ⟨a.nodes, a.next + 1⟩ ho
    (by simp only [hnext]; omega) hsize
  generalize hone : buildSub bit left (group bit (63 - left) true S) ⟨a.nodes, a.next + 1⟩ = one at h1
  obtain ⟨e1, l1, n1, f1, -⟩ := h1
  simp only at e1 l1 n1 f1
  have h2 := buildSub_spec bit left (group bit (63 - left) false S) one.2 hz (by rw [n1, l1, hnext]; omega)
    (by omega)
  generalize hzero : buildSub bit left (group bit (63 - left) false S) one.2 = zero at h2
  obtain ⟨e2, l2, n2, f2, -⟩ := h2
  rw [hnext] at n1 f1
  exact ⟨one, zero, rfl, hzero, by simp only [buildSub, if_pos (And.intro hz ho), hone, hzero], hnext, e1, e2, l1,
    l2.trans l1, by omega, by omega, by omega, by omega, by omega, f1, f2⟩

/-- Every node BuildSub allocates has the shape of R167, in any node list that agrees with it there. -/
theorem buildSub_shape (bit : Nat → Nat → Bool) (left : Nat) (S : List Nat) (a : Arena) (hS : S ≠ [])
    (hl : left ≤ 64) (hlt : ∀ i ∈ S, i < 256) (hroom : a.next.toNat + (2 * S.length - 1) ≤ a.nodes.length)
    (hsize : a.nodes.length ≤ 253) (nodes : List Node)
    (hag : ∀ i, a.next.toNat ≤ i → i < (buildSub bit left S a).2.next.toNat →
      nodes[i]? = (buildSub bit left S a).2.nodes[i]?) (n : Nat) (hn1 : a.next.toNat ≤ n)
    (hn2 : n < (buildSub bit left S a).2.next.toNat) :
    Shape nodes S (buildSub bit left S a).2.next.toNat (64 - left) n := by
  induction left generalizing S a n with
  | zero =>
    have hlen : 1 ≤ S.length := List.length_pos_iff.mpr hS
    have hnext : (a.next + 1).toNat = a.next.toNat + 1 := by
      rw [BitVec.toNat_add]; simp; omega
    have hn : n < (a.next + 1).toNat := hn2
    obtain rfl : n = a.next.toNat := by omega
    refine ⟨Node.leaf (minSlot S), ?_, minSlot_mem hS hlt, Nat.le_of_ble_eq_true rfl, .inl ⟨rfl, rfl, rfl⟩⟩
    rw [hag _ (Nat.le_refl _) hn2]
    simp only [buildSub, Arena.put]
    rw [List.getElem?_set_self (by omega)]
  | succ left ih =>
    by_cases hd : group bit (63 - left) false S ≠ [] ∧ group bit (63 - left) true S ≠ []
    · obtain ⟨hz, ho⟩ := hd
      have hmz : ∀ i ∈ group bit (63 - left) false S, i ∈ S := fun i hi => (mem_group.mp hi).1
      have hmo : ∀ i ∈ group bit (63 - left) true S, i ∈ S := fun i hi => (mem_group.mp hi).1
      obtain ⟨one, zero, hone, hzero, hb, hnext, e1, e2, l1, l2, r1, r2, b1, b2, b3, f1, f2⟩ :=
        buildSub_diverging hz ho hroom hsize
      have i1 := ih (group bit (63 - left) true S) ⟨a.nodes, a.next + 1⟩ ho (by omega) (fun i hi => hlt i (hmo i hi))
        (by simp only [hnext]; omega) hsize
      have i2 := ih (group bit (63 - left) false S) one.2 hz (by omega) (fun i hi => hlt i (hmz i hi)) (by omega)
        (by omega)
      rw [hone] at i1
      rw [hzero] at i2
      simp only [hnext] at i1
      rw [hb] at hag hn2 ⊢
      have hn : n < zero.2.next.toNat := hn2
      have hag' : ∀ i, a.next.toNat ≤ i → i < zero.2.next.toNat → nodes[i]? =
          (zero.2.nodes.set a.next.toNat ⟨BitVec.ofNat 8 (63 - left), minSlot S, zero.1, one.1⟩)[i]? := hag
      have j1 := i1 fun i hi1 hi2 => by
        rw [hag' i (by omega) (by omega), List.getElem?_set_ne (by omega), f2 i (by omega)]
      have j2 := i2 fun i hi1 hi2 => by
        rw [hag' i (by omega) (by omega), List.getElem?_set_ne (by omega)]
      show Shape nodes S zero.2.next.toNat (64 - (left + 1)) n
      by_cases c0 : n = a.next.toNat
      · refine ⟨⟨BitVec.ofNat 8 (63 - left), minSlot S, zero.1, one.1⟩, ?_, minSlot_mem hS hlt, by simp; omega,
          .inr ⟨by simp; omega, ?_, ?_, ?_, ?_, ?_⟩⟩
        · rw [c0, hag' _ (Nat.le_refl _) (by omega), List.getElem?_set_self (by omega)]
        · simp only [e2]; omega
        · simp only [e1]; omega
        · simp only [e2]; omega
        · simp only [e1]; omega
        · rintro c (rfl | rfl)
          · obtain ⟨x, x1, -, x3, -⟩ := j2 zero.1.toNat (by rw [e2]) (by rw [e2]; omega)
            exact ⟨x, x1, by simp; omega⟩
          · obtain ⟨x, x1, -, x3, -⟩ := j1 one.1.toNat (by rw [e1]; omega) (by rw [e1]; omega)
            exact ⟨x, x1, by simp; omega⟩
      · by_cases c1 : n < one.2.next.toNat
        · exact (j1 n (by omega) c1).mono hmo (by omega) (by omega)
        · exact (j2 n (by omega) hn).mono hmz (by omega) (by omega)
    · have hb : buildSub bit (left + 1) S a = buildSub bit left S a := by
        simp only [buildSub, if_neg hd]
      rw [hb] at hag hn2 ⊢
      exact (ih S a hS (by omega) hlt hroom hsize hag n hn1 hn2).mono (fun _ h => h) (Nat.le_refl _) (by omega)

theorem countP_set_of (p : Node → Bool) (l : List Node) (i : Nat) (x y : Node) (h : l[i]? = some x)
    (hx : p x = false) : (l.set i y).countP p = l.countP p + if p y then 1 else 0 := by
  obtain ⟨hi, hx'⟩ := List.getElem?_eq_some_iff.mp h
  rw [List.countP_set hi, hx', hx]
  simp

/-- BuildSub adds K' leaves and K' − 1 divergence nodes (R165). -/
theorem buildSub_counts (bit : Nat → Nat → Bool) (left : Nat) (S : List Nat) (a : Arena) (hS : S ≠ [])
    (hl : left ≤ 64) (hroom : a.next.toNat + (2 * S.length - 1) ≤ a.nodes.length) (hsize : a.nodes.length ≤ 253)
    (hemp : ∀ i, a.next.toNat ≤ i → i < a.nodes.length → a.nodes[i]? = some Node.empty) :
    (buildSub bit left S a).2.nodes.countP (fun n => n.pos == 0x80) =
      a.nodes.countP (fun n => n.pos == 0x80) + classes bit left S ∧
    (buildSub bit left S a).2.nodes.countP (fun n => decide (n.pos.toNat < 64)) =
      a.nodes.countP (fun n => decide (n.pos.toNat < 64)) + (classes bit left S - 1) := by
  induction left generalizing S a with
  | zero =>
    have hlen : 1 ≤ S.length := List.length_pos_iff.mpr hS
    have he := hemp a.next.toNat (Nat.le_refl _) (by omega)
    simp only [buildSub, Arena.put, classes_zero hS]
    rw [countP_set_of _ _ _ _ _ he rfl, countP_set_of _ _ _ _ _ he rfl]
    exact ⟨rfl, rfl⟩
  | succ left ih =>
    by_cases hd : group bit (63 - left) false S ≠ [] ∧ group bit (63 - left) true S ≠ []
    · obtain ⟨hz, ho⟩ := hd
      have hpz := classes_pos (bit := bit) (left := left) hz
      have hpo := classes_pos (bit := bit) (left := left) ho
      obtain ⟨one, zero, hone, hzero, hb, hnext, -, -, l1, l2, r1, r2, b1, b2, b3, f1, f2⟩ :=
        buildSub_diverging hz ho hroom hsize
      have i1 := ih (group bit (63 - left) true S) ⟨a.nodes, a.next + 1⟩ ho (by omega)
        (by simp only [hnext]; omega) hsize fun i hi => hemp i (by simp only [hnext] at hi; omega)
      have i2 := ih (group bit (63 - left) false S) one.2 hz (by omega) (by omega) (by omega) fun i hi1 hi2 => by
        rw [f1 i (.inr hi1)]; exact hemp i (by omega) (by omega)
      rw [hone] at i1
      rw [hzero] at i2
      have he : zero.2.nodes[a.next.toNat]? = some Node.empty := by
        rw [f2 _ (.inl (by omega)), f1 _ (.inl (by omega))]
        exact hemp _ (Nat.le_refl _) (by omega)
      rw [hb]
      simp only [Arena.put]
      have p1 : ((BitVec.ofNat 8 (63 - left) : Byte) == 0x80) = false := by
        rw [beq_eq_false_iff_ne]
        intro h
        have := congrArg BitVec.toNat h
        simp at this; omega
      have p2 : decide ((BitVec.ofNat 8 (63 - left) : Byte).toNat < 64) = true := by simp; omega
      rw [countP_set_of _ _ _ _ _ he rfl, countP_set_of _ _ _ _ _ he rfl, i2.1, i2.2, i1.1, i1.2, classes_split]
      simp only [p1, p2]
      simp; omega
    · have hb : buildSub bit (left + 1) S a = buildSub bit left S a := by
        simp only [buildSub, if_neg hd]
      rw [hb, classes_agree hd]
      exact ih S a hS (by omega) hroom hsize hemp

/-! ### Where an identifier leads (R171) -/

theorem leadsTo_more {nodes : List Node} {bits : Nat → Bool} (fuel : Nat) {n r : Byte}
    (h : leadsTo nodes bits fuel n = some r) : leadsTo nodes bits (fuel + 1) n = some r := by
  induction fuel generalizing n with
  | zero => cases h
  | succ fuel ih =>
    unfold leadsTo at h ⊢
    cases hn : nodes[n.toNat]? with
    | none => rw [hn] at h; cases h
    | some node =>
      rw [hn] at h
      dsimp only at h ⊢
      split at h
      · next hl => rw [if_pos hl]; exact h
      · next hl => rw [if_neg hl]; exact ih h

/-- The bits of slot i lead from the node that represents S to the lowest slot of S with those bits. -/
theorem Represents.leadsTo {nodes : List Node} {bit : Nat → Nat → Bool} {left : Nat} {S : List Nat} {n : Byte}
    {i : Nat} (h : Represents nodes bit left S n) (hl : left ≤ 64) (hi : i ∈ S) :
    leadsTo nodes (bit i) (left + 1) n = some (minSlot (S.filter fun j =>
      (List.range left).all fun q => bit j (64 - left + q) == bit i (64 - left + q))) := by
  induction left generalizing S n with
  | zero =>
    unfold Represents at h
    unfold Machine.leadsTo
    rw [h]; simp [Node.leaf]
  | succ left ih =>
    have hg : ∀ v, bit i (63 - left) = v →
        (group bit (63 - left) v S).filter (fun j =>
          (List.range left).all fun q => bit j (64 - left + q) == bit i (64 - left + q)) =
        S.filter fun j => (List.range (left + 1)).all fun q =>
          bit j (64 - (left + 1) + q) == bit i (64 - (left + 1) + q) := by
      intro v hv
      unfold group
      rw [List.filter_filter]
      refine List.filter_congr fun j _ => ?_
      have e : ∀ q, 63 - left + (q + 1) = 64 - left + q := by intro q; omega
      rw [List.range_succ_eq_map, Bool.eq_iff_iff]
      simp [hv, e]
      exact and_comm
    unfold Represents at h
    split at h
    · obtain ⟨z, o, h1, -, -, h4, h5⟩ := h
      have e : (BitVec.ofNat 8 (63 - left) : Byte).toNat = 63 - left := by simp; omega
      have hne : ¬BitVec.ofNat 8 (63 - left) = leafPos := by
        intro h
        have := congrArg BitVec.toNat h
        simp [leafPos] at this; omega
      unfold Machine.leadsTo
      rw [h1]
      dsimp only
      rw [if_neg hne, e]
      cases hb : bit i (63 - left) with
      | true => rw [if_pos rfl, ih h5 (by omega) (mem_group.mpr ⟨hi, hb⟩), hg true hb]
      | false => rw [if_neg (by simp), ih h4 (by omega) (mem_group.mpr ⟨hi, hb⟩), hg false hb]
    · next hd =>
      have hgs : group bit (63 - left) (bit i (63 - left)) S = S := by
        refine group_eq_self ?_
        cases hb : bit i (63 - left) <;> by_contra hne
        · exact hd ⟨List.ne_nil_of_mem (mem_group.mpr ⟨hi, hb⟩), hne⟩
        · exact hd ⟨hne, List.ne_nil_of_mem (mem_group.mpr ⟨hi, hb⟩)⟩
      rw [leadsTo_more _ (ih h (by omega) hi), ← hg _ rfl, hgs]

end Sys2Proof.Machine
end

