-- ==== Sys2Proof/Laws/Scripts.lean ====
section
/-! SUPPORT. What the core does on given line scripts: waits that fail, reset pulses, the presence pulse, and searches
(42_bus_handshake, 44_search). -/

namespace Sys2Proof.Machine

@[simp] theorem goto_accesses (st : Fsm) (s : State) : (goto st s).accesses = s.accesses := by
  simp [State.accesses, Event.access?]

/-! ### Waits -/

/-- A wait that fails has seen the other level at every sample (R184, R190, R200). -/
theorem waitLoop_failed_samples (want : Bool) (t0 b : Stamp) (fuel : Nat) (s : State)
    (h : (waitLoop want t0 b fuel s).1 = false) :
    ∃ as, (waitLoop want t0 b fuel s).2.accesses = s.accesses ++ as ∧ ∀ a ∈ as, a = .sample (!want) := by
  induction fuel generalizing s with
  | zero => exact ⟨[], by simp [waitLoop, runToDeadline, State.setBus, State.accesses], by simp⟩
  | succ n ih =>
    unfold waitLoop at h ⊢
    dsimp only at h ⊢
    split at h
    · cases h
    · next hne =>
      have hlev : lineLevel s = !want := by
        have e : (sampleLine s).1 = lineLevel s := rfl
        rw [e] at hne
        revert hne
        cases lineLevel s <;> cases want <;> simp
      have hn : (now (sampleLine s).2).2.accesses = s.accesses ++ [.sample (!want)] := by
        rw [← hlev, ← sampleLine_accesses s]; rfl
      rw [if_neg hne]
      split at h
      · next he => rw [if_pos he]; exact ⟨_, hn, by simp⟩
      · next he =>
        rw [if_neg he]
        obtain ⟨as, h1, h2⟩ := ih _ h
        exact ⟨.sample (!want) :: as, by rw [h1, hn]; simp, by simpa using h2⟩

/-- On a line that is high for good a wait for low fails. -/
theorem waitLoop_high (t0 b : Stamp) (fuel : Nat) (s : State) (hb : ∀ d ∈ s.bus, d.level = true)
    (hl : s.line.dir = false) : (waitLoop false t0 b fuel s).1 = false := by
  induction fuel generalizing s with
  | zero => rfl
  | succ n ih =>
    have hd : (drawOf s.bus).level = true := by
      cases h : s.bus with
      | nil => rfl
      | cons d l => exact hb d (by simp [h])
    have h1 : (sampleLine s).1 = true := by simp [sampleLine_eq, lineLevel, hl, hd]
    unfold waitLoop
    dsimp only
    rw [h1]
    simp only [Bool.true_eq_false, if_false]
    split
    · rfl
    · refine ih _ (fun d h => hb d ?_) (by simpa [now_eq, sampleLine_eq] using hl)
      simp [now_eq, sampleLine_eq] at h
      exact List.mem_of_mem_tail (List.mem_of_mem_tail h)

/-! ### Reset pulses -/

/-- `s` after the release and the sample of ResetDetect's entry. -/
def afterEntry (up d : Draw) (rest : List Draw) (s : State) : State :=
  { s with
    line := ⟨false, s.line.out⟩, imask := false, bus := rest, time := s.time + up.dt + d.dt
    trace := .line (s.time + up.dt + d.dt) true (.sample d.level) :: .line (s.time + up.dt) true .release :: s.trace }

theorem entrySample_eq (s : State) (up d : Draw) (rest : List Draw) (hb : s.bus = up :: d :: rest) :
    sampleLine (releaseLine s) = (d.level, afterEntry up d rest s) := by
  rw [sampleLine_eq]
  simp [lineLevel, releaseLine_eq, hb, drawOf, afterEntry, State.setBus, State.setTrace, State.setMask]

theorem afterEntry_accesses (up d : Draw) (rest : List Draw) (s : State) :
    (afterEntry up d rest s).accesses = s.accesses ++ [.release, .sample d.level] := by
  simp [afterEntry, State.accesses, Event.access?]

theorem onlySamples_samples (v : Bool) (ps : List (Nat × Draw)) : OnlySamples (samples v ps) := by
  intro a ha
  obtain ⟨_, _, rfl⟩ := List.mem_map.mp ha
  exact ⟨v, rfl⟩

theorem onlySamples_one (v : Bool) : OnlySamples [.sample v] := by
  intro a ha; rw [List.mem_singleton.mp ha]; exact ⟨v, rfl⟩

/-- The classification of a measured pulse (R184, R187, R188). -/
theorem measureLow_served (high : Bool) {s : State} {width : Stamp} {script : List Draw} (rest : List Draw)
    (h : PulseEnd s.cfg width script) (hb : s.bus = script ++ rest) (hl : s.line.dir = false) :
    ∃ u as, measureLow high s =
        (if width < s.cfg.tResetMin then
          if high then .abort .veryShortReset u
          else if s.cfg.entryLowPolicy = .noReset then .done .noReset u
          else acceptReset u
        else acceptReset u) ∧
      u = { s with bus := rest, time := u.time, imask := false, trace := u.trace } ∧
      u.accesses = s.accesses ++ as ∧ OnlySamples as ∧
      ∃ r es, u.trace = .line r true (.sample true) :: (es ++ s.trace) ∧ r ≤ u.time := by
  obtain ⟨low, lows, rise, done, rfl, hw, rfl⟩ := h
  have h1 : waitLine true (now s).1 s.cfg.tResetMax (now s).2 = (true, afterWait true low lows rise (done :: rest) s) :=
    waitLine_within true _ (by rw [hb]; simp) hl hw
  have h2 : (now s).1 = BitVec.ofNat 32 (s.time + low.dt) := by rw [now_eq, hb]; rfl
  have h3 : now (afterWait true low lows rise (done :: rest) s) =
      (BitVec.ofNat 32 (s.time + low.dt + (heldTime lows + rise + done.dt)),
        { afterWait true low lows rise (done :: rest) s with
          bus := rest, time := s.time + low.dt + heldTime lows + rise + done.dt }) := by
    rw [now_eq]
    simp only [afterWait_bus, afterWait_time, drawOf, List.tail_cons]
    rw [show s.time + low.dt + (heldTime lows + rise + done.dt) = s.time + low.dt + heldTime lows + rise + done.dt by
      omega]
    rfl
  refine ⟨{ afterWait true low lows rise (done :: rest) s with
      bus := rest, time := s.time + low.dt + heldTime lows + rise + done.dt },
    samples false lows ++ [.sample true], ?_, rfl, ?_, (onlySamples_samples _ _).append (onlySamples_one _),
    s.time + low.dt + heldTime lows + rise, heldEvents false (s.time + low.dt) lows, rfl, Nat.le_add_right _ _⟩
  · unfold measureLow
    dsimp only
    rw [h1]
    dsimp only
    rw [if_pos rfl, h3, h2]
    dsimp only
    rw [stamp_sub]
  · show (afterWait true low lows rise (done :: rest) s).accesses = _
    simp

/-- A pulse that is still low when T_RESET_MAX has gone by (R186). -/
theorem measureLow_held (high : Bool) {s : State} {script : List Draw} (h : PulseHeld s.cfg script)
    (hb : s.bus = script) (hl : s.line.dir = false) :
    ∃ t, measureLow high s = .abort .veryLongReset t ∧ EnvOnly s t := by
  obtain ⟨low, ps, rest, rfl, hne, hT⟩ := h
  have h := waitLine_held true s.cfg.tResetMax low ps rest s hb hl hne hT
  unfold measureLow
  dsimp only
  rw [h]
  exact ⟨_, rfl, (now_frame s).trans (waitLine_frame _ _ _ _)⟩

/-- ResetDetect on a line that is low at entry (R188). -/
theorem resetDetect_low {s : State} {pulse script : List Draw} (rest : List Draw) (h : FromLow pulse script)
    (hb : s.bus = script ++ rest) :
    ∃ u as, resetDetect s = measureLow false u ∧
      u = { s with line := ⟨false, s.line.out⟩, imask := false, bus := pulse ++ rest, time := u.time, trace := u.trace } ∧
      u.accesses = s.accesses ++ [.release] ++ as ∧ OnlySamples as ∧ ∃ es, u.trace = es ++ s.trace := by
  obtain ⟨up, entry, rfl⟩ := h
  refine ⟨afterEntry up ⟨entry, false⟩ (pulse ++ rest) s, [.sample false], ?_, rfl, by simp [afterEntry_accesses],
    onlySamples_one _, [_, _], rfl⟩
  unfold resetDetect
  dsimp only
  rw [entrySample_eq s _ _ _ hb]
  rfl

/-- ResetDetect on a line that is high at entry and falls in time (R184). -/
theorem resetDetect_high {s : State} {pulse script : List Draw} (rest : List Draw) (h : FromHigh s.cfg pulse script)
    (hb : s.bus = script ++ rest) :
    ∃ u as, resetDetect s = measureLow true u ∧
      u = { s with line := ⟨false, s.line.out⟩, imask := false, bus := pulse ++ rest, time := u.time, trace := u.trace } ∧
      u.accesses = s.accesses ++ [.release] ++ as ∧ OnlySamples as ∧ ∃ es, u.trace = es ++ s.trace := by
  obtain ⟨up, entry, n, highs, fall, rfl, hw⟩ := h
  have he : sampleLine (releaseLine s) =
      (true, afterEntry up ⟨entry, true⟩ (n :: (held true highs ++ ⟨fall, false⟩ :: (pulse ++ rest))) s) :=
    entrySample_eq s up ⟨entry, true⟩ (n :: (held true highs ++ ⟨fall, false⟩ :: (pulse ++ rest))) (by rw [hb]; simp)
  have h1 := waitLine_within false s.cfg.tResetWait (n := n) (ps := highs) (dt := fall) (rest := pulse ++ rest)
    (s := afterEntry up ⟨entry, true⟩ (n :: (held true highs ++ ⟨fall, false⟩ :: (pulse ++ rest))) s) rfl rfl hw
  refine ⟨afterWait false n highs fall (pulse ++ rest)
      (afterEntry up ⟨entry, true⟩ (n :: (held true highs ++ ⟨fall, false⟩ :: (pulse ++ rest))) s),
    .sample true :: (samples true highs ++ [.sample false]), ?_, rfl, ?_,
    (onlySamples_one true).append ((onlySamples_samples _ _).append (onlySamples_one _)),
    .line (s.time + up.dt + entry + n.dt + heldTime highs + fall) true (.sample false) ::
      (heldEvents true (s.time + up.dt + entry + n.dt) highs ++
        [.line (s.time + up.dt + entry) true (.sample true), .line (s.time + up.dt) true .release]),
    by simp [afterWait, afterEntry]⟩
  rotate_left
  · rw [afterWait_accesses, afterEntry_accesses]; simp
  · unfold resetDetect
    dsimp only
    rw [he]
    dsimp only
    rw [if_pos rfl]
    rw [h1]
    rfl

/-- An accepted reset pulse, with what it does on the line (R187, R188, R189). -/
theorem resetDetect_accepted {s : State} {script : List Draw} (rest : List Draw) (h : AcceptedReset s.cfg script)
    (hb : s.bus = script ++ rest) :
    ∃ t as, resetDetect s = .done .resetOk t ∧ t.accesses = s.accesses ++ [.release] ++ as ∧ OnlySamples as ∧
      (∃ r es, t.trace = .line r true (.sample true) :: (es ++ s.trace) ∧ r ≤ t.time) ∧
      t = { s with sel := 0xFF, line := ⟨false, s.line.out⟩, imask := false, bus := rest, time := t.time,
                   trace := t.trace } := by
  obtain ⟨width, pulse, hp, ⟨hf, hw⟩ | ⟨hf, hw⟩⟩ := h
  · obtain ⟨u, as, h1, h2, h3, h4, fs, hfs⟩ := resetDetect_high rest hf hb
    have hc : u.cfg = s.cfg := by rw [h2]
    obtain ⟨v, bs, h5, h6, h7, h8, r, es, hes, hr⟩ := measureLow_served true rest (hc.symm ▸ hp) (by rw [h2]) (by rw [h2])
    rw [hc, if_neg (BitVec.not_lt.mpr hw)] at h5
    refine ⟨v.setSel noneByte, as ++ bs, h1.trans h5, ?_, h4.append h8,
      ⟨r, es ++ fs, by rw [List.append_assoc, ← hfs]; exact hes, hr⟩, ?_⟩
    · show v.accesses = _
      rw [h7, h3]; simp
    · rw [h6, h2]; rfl
  · obtain ⟨u, as, h1, h2, h3, h4, fs, hfs⟩ := resetDetect_low rest hf hb
    have hc : u.cfg = s.cfg := by rw [h2]
    obtain ⟨v, bs, h5, h6, h7, h8, r, es, hes, hr⟩ := measureLow_served false rest (hc.symm ▸ hp) (by rw [h2]) (by rw [h2])
    have h9 : measureLow false u = acceptReset v := by
      rw [h5, hc]
      split
      · next hlt =>
        rcases hw with hw | hw
        · exact absurd hlt (BitVec.not_lt.mpr hw)
        · simp [hw]
      · rfl
    refine ⟨v.setSel noneByte, as ++ bs, h1.trans h9, ?_, h4.append h8,
      ⟨r, es ++ fs, by rw [List.append_assoc, ← hfs]; exact hes, hr⟩, ?_⟩
    · show v.accesses = _
      rw [h7, h3]; simp
    · rw [h6, h2]; rfl

/-! ### The presence pulse (R190) -/

/-- The presence pulse, with the times of its low drive. -/
theorem presencePulse_eq (s : State) (gap drive pulse up : Draw) (rest : List Draw)
    (hb : s.bus = gap :: drive :: pulse :: up :: rest) :
    ∃ b e, s.time + s.cfg.tPresenceHighStd.toNat ≤ b ∧ b + s.cfg.tPresenceLowStd.toNat ≤ e ∧
      presencePulse s = { s with
        line := ⟨false, false⟩, imask := false, bus := rest, time := e
        trace := .line e true .release :: .line b true .driveLow :: s.trace } := by
  refine ⟨s.time + gap.dt + s.cfg.tPresenceHighStd.toNat + drive.dt,
    s.time + gap.dt + s.cfg.tPresenceHighStd.toNat + drive.dt + pulse.dt + s.cfg.tPresenceLowStd.toNat + up.dt,
    by omega, by omega, ?_⟩
  simp [presencePulse, delay_eq, pullLine_eq, releaseLine_eq, hb, drawOf, State.setBus]

/-- A presence pulse after which the line is high in time. -/
theorem presence_served {s : State} {script : List Draw} {as : List Access} (rest : List Draw)
    (h : PresenceSlot s.cfg script as) (hb : s.bus = script ++ rest) :
    ∃ t, presence s = .done () t ∧ t.accesses = s.accesses ++ as ∧
      (∃ after b e, t.trace = after ++ .line e true .release :: .line b true .driveLow :: s.trace ∧
        s.time + s.cfg.tPresenceHighStd.toNat ≤ b ∧ b + s.cfg.tPresenceLowStd.toNat ≤ e) ∧
      t = { s with line := ⟨false, false⟩, imask := false, bus := rest, time := t.time, trace := t.trace } := by
  obtain ⟨gap, drive, pulse, up, n, lows, high, rfl, hw, rfl⟩ := h
  obtain ⟨b, e, h1, h2, hp⟩ :=
    presencePulse_eq s gap drive pulse up (n :: (held false lows ++ ⟨high, true⟩ :: rest)) (by rw [hb]; simp)
  rw [presence_eq]
  generalize presencePulse s = u at hp
  rw [waitLine_within true s.cfg.tPresenceHighMax (n := n) (ps := lows) (dt := high) (rest := rest)
    (s := u) (by rw [hp]; rfl) (by rw [hp]) hw]
  dsimp only
  rw [if_pos rfl]
  refine ⟨_, rfl, ?_, ⟨.line (u.time + n.dt + heldTime lows + high) true (.sample true) ::
      heldEvents false (u.time + n.dt) lows, b, e, ?_, h1, h2⟩, by rw [hp]; rfl⟩
  · rw [afterWait_accesses, hp]; simp [State.accesses, Event.access?]
  · rw [hp]; simp [afterWait]

/-! ### Searches (44_search) -/

theorem walkSteps_add (n m : Nat) (s : State) :
    walkSteps (n + m) s = (walkSteps n s).andThen fun _ t => walkSteps m t := by
  induction n generalizing s with
  | zero => rw [Nat.zero_add]; rfl
  | succ n ih =>
    rw [Nat.succ_add]
    show (walkStep s).andThen _ = ((walkStep s).andThen _).andThen _
    cases walkStep s with
    | done a t => exact ih t
    | abort c t => rfl

/-- A served search splits where a shorter one ends. -/
theorem SearchSlots_add {s : State} {ds : Nat → Bool} (n m p : Nat) {script : List Draw} {as : List Access}
    (h : s.SearchSlots ds (n + m) p script as) :
    ∃ d1 a1 d2 a2, s.SearchSlots ds n p d1 a1 ∧ s.SearchSlots ds m (p + n) d2 a2 ∧ script = d1 ++ d2 ∧
      as = a1 ++ a2 := by
  induction n generalizing p script as with
  | zero => exact ⟨[], [], script, as, ⟨rfl, rfl⟩, by rw [Nat.zero_add] at h; exact h, rfl, rfl⟩
  | succ n ih =>
    rw [Nat.succ_add] at h
    obtain ⟨d1, a1, d2, a2, h1, h2, rfl, rfl⟩ := h
    obtain ⟨e1, b1, e2, b2, h3, h4, rfl, rfl⟩ := ih _ h2
    exact ⟨d1 ++ e1, a1 ++ b1, e2, b2, ⟨d1, a1, e1, b1, h1, h3, rfl, rfl⟩,
      by rw [Nat.add_right_comm, Nat.add_assoc] at h4; exact h4, by simp, by simp⟩

/-- Served searches depend on the table, the parameters and the identifiers only. -/
theorem SearchSlots_congr {s u : State} (h1 : u.slots = s.slots) (h2 : u.cfg = s.cfg) (h3 : u.devices = s.devices)
    (ds : Nat → Bool) (n p : Nat) (script : List Draw) (as : List Access) :
    u.SearchSlots ds n p script as ↔ s.SearchSlots ds n p script as := by
  have hw : u.wiredPair = s.wiredPair := by unfold State.wiredPair; rw [slotBit_congr h1 h3]
  have ha : u.activeAt = s.activeAt := by
    unfold State.activeAt; rw [slotBit_congr h1 h3, occupied_congr h1 h2]
  induction n generalizing p script as with
  | zero => rfl
  | succ n ih =>
    unfold State.SearchSlots
    rw [hw, ha, h2]
    simp only [ih]

/-- A served step whose answer no device has (R234). -/
theorem walkStep_mismatch {s : State} {d : Bool} {script : List Draw} {as : List Access} (rest : List Draw)
    (h : TripletSlots s.cfg (walkPair s) d script as) (hb : s.bus = script ++ rest) (hl : s.line = ⟨false, false⟩)
    (ht : ∀ u, BitOnly s u → walkTake d u = none) :
    ∃ u, walkStep s = .abort .searchMismatch u ∧ BitOnly s u ∧ u.bus = rest ∧ u.line = ⟨false, false⟩ ∧
      u.err = s.err ∧ u.accesses = s.accesses ++ as := by
  obtain ⟨s1, _, s2, _, s3, _, hs1, hs2, hs3, rfl, rfl⟩ := h
  have af := sendBit_frame (walkPair s).1 s
  have bf := af.trans (sendBit_frame (walkPair s).2 _)
  have cf := bf.trans (recvBit_frame _)
  obtain ⟨a1, a2, a3, a4⟩ := sendBit_served (s2 ++ s3 ++ rest) hs1 (by rw [hb]; simp) hl
  obtain ⟨b1, b2, b3, b4⟩ := sendBit_served (s3 ++ rest) (af.transport.cfg.symm ▸ hs2) (by rw [a2]; simp) a3
  obtain ⟨c1, c2, c3, c4⟩ := recvBit_served rest (bf.transport.cfg.symm ▸ hs3) b2 b3
  have la := sendBit_latched (walkPair s).1 s
  rw [a1] at la
  have lb := Latched.after la (sendBit_latched (walkPair s).2 _)
  rw [b1] at lb
  have lc := Latched.after lb (recvBit_latched _)
  rw [c1] at lc
  refine ⟨_, ?_, cf, c2, c3, lc, by rw [c4, b4, a4]; simp only [List.append_assoc]⟩
  unfold walkStep
  dsimp only
  rw [if_pos a1, if_pos b1, c1]
  dsimp only
  rw [if_pos rfl, ht _ cf]

/-- The frame of the walk, however it ends. -/
theorem walkSteps_frame (n : Nat) (s : State) :
    (∀ u, walkSteps n s = .done () u → WalkOnly s u) ∧ (∀ c u, walkSteps n s = .abort c u → WalkOnly s u) := by
  induction n generalizing s with
  | zero => exact ⟨fun u h => (by cases h; exact (BitOnly.refl _).walk), fun c u h => (by cases h)⟩
  | succ n ih =>
    unfold walkSteps
    rcases walkStep_cases s with ⟨d, v, t, h1, h2, h3, -⟩ | ⟨d, v, h1, -, h2, -⟩ | ⟨v, h1, h2, -⟩
    · rw [h1]
      obtain ⟨p, n', r, g, rfl⟩ := walkTake_frame h2
      have := ih (v.setWalk p n' r g)
      exact ⟨fun u h => WalkOnly.trans ⟨_, _, _, _, _, h3, rfl⟩ (this.1 u h),
        fun c u h => WalkOnly.trans ⟨_, _, _, _, _, h3, rfl⟩ (this.2 c u h)⟩
    · rw [h1]; exact ⟨fun u h => (by cases h), fun c u h => (by cases h; exact h2.walk)⟩
    · rw [h1]; exact ⟨fun u h => (by cases h), fun c u h => (by cases h; exact h2.walk)⟩

/-- Where the walk has followed its answers it is where they lead. -/
theorem walkFollow_walkAt {s t u : State} {ds : Nat → Bool} {p : Nat} (n : Nat) (h : WalkAt s ds p t)
    (hN : s.cfg.nMax ≤ 127) (hp : p + n ≤ 64) (hf : walkFollow ds n t = some u) : WalkAt s ds (p + n) u := by
  induction n generalizing p t with
  | zero => cases hf; exact h
  | succ n ih =>
    unfold walkFollow at hf
    rw [h.wpos] at hf
    rcases h.take hN (by omega) with ⟨-, h2⟩ | ⟨v, h2, h3⟩
    · rw [h2] at hf; cases hf
    · rw [h2] at hf
      have := ih h3 (by omega) hf
      rwa [Nat.add_assoc, Nat.add_comm 1 n] at this

/-- The representative of the devices still in the search is the lowest of them (R239 (a)). -/
theorem minSlot_lowest {s : State} (hN : s.cfg.nMax ≤ 127) {ds : Nat → Bool} {p : Nat} (h : s.activeAt ds p ≠ []) :
    LowestOf (s.activeAt ds p) (minSlot (s.activeAt ds p)).toNat := by
  have hs : (s.activeAt ds p).Pairwise (· < ·) := by
    unfold State.activeAt State.occupied
    exact (List.pairwise_lt_range.filter _).filter _
  refine ⟨minSlot_mem h fun i hi => activeAt_lt hN hi, fun i hi => ?_⟩
  cases hl : s.activeAt ds p with
  | nil => exact absurd hl h
  | cons x l =>
    rw [hl] at hs hi
    have hx : x < 256 := activeAt_lt hN (ds := ds) (p := p) (by rw [hl]; simp)
    have e : (minSlot (x :: l)).toNat = x := by simp [minSlot]; omega
    rw [e]
    rcases List.mem_cons.mp hi with rfl | hi
    · exact Nat.le_refl _
    · exact Nat.le_of_lt (List.rel_of_pairwise_cons hs hi)

end Sys2Proof.Machine
end

