-- ==== Sys2Proof/Tests/Slice0.lean ====
section
/-! SUPPORT. Tests against the spec's own vectors (95_test_vectors), and for every statement of Obligations.lean that has
hypotheses a concrete state that meets them. Expected values are the spec's; "hand" marks a value worked out by hand
from a rule. -/

namespace Sys2Proof.Machine.Tests

/-! ### WellFormed -/

/-- An ill-formed term: 0xF0 is SEARCH_ROM (30_encoding R114). -/
theorem test_wellFormed_refuses_named_byte : Instr.wellFormed (.unrecognized 0xF0) = false := by decide
theorem test_wellFormed_other_byte : Instr.wellFormed (.unrecognized 0xA5) = true := by decide

/-! ### Decoding: words written out from R114 and R118 -/

theorem test_decode_searchRom : decode .bus [0b11110000] = .ok .searchRom := by decide
theorem test_decode_matchRom : decode .bus [0b01010101] = .ok .matchRom := by decide
theorem test_decode_skipRom : decode .bus [0b11001100] = .ok .skipRom := by decide
theorem test_decode_readRom : decode .bus [0b00110011] = .ok .readRom := by decide
theorem test_decode_readRomLegacy : decode .bus [0b00001111] = .ok .readRomLegacy := by decide
theorem test_decode_unrecognized : decode .bus [0b00000000] = .ok (.unrecognized 0) := by decide
theorem test_decode_attach : decode .host [0b00000001, 1000] = .ok (.attach 1000) := by decide
theorem test_decode_detachDev : decode .host [0b00000010, 7] = .ok (.detachDev 7) := by decide
theorem test_decode_detachSlot : decode .host [0b00000011, 0b10000001] = .ok (.detachSlot 129) := by decide
theorem test_decode_poll : decode .host [0b00000100] = .ok .poll := by decide
theorem test_decode_run : decode .host [0b00000101] = .ok .run := by decide
theorem test_decode_getError : decode .host [0b00000110] = .ok .getError := by decide
theorem test_decode_getSelected : decode .host [0b00000111] = .ok .getSelected := by decide
theorem test_decode_getCount : decode .host [0b00001000] = .ok .getCount := by decide
theorem test_decode_getSlot : decode .host [0b00001001, 0b00000010] = .ok (.getSlot 2) := by decide
theorem test_decode_sendBit : decode .host [0b00010000, 1] = .ok (.sendBit true) := by decide
theorem test_decode_recvBit : decode .host [0b00010001] = .ok .recvBit := by decide
theorem test_decode_sendByte : decode .host [0b00010010, 0b10100101] = .ok (.sendByte 0xA5) := by decide
theorem test_decode_recvByte : decode .host [0b00010011] = .ok .recvByte := by decide
theorem test_decode_sendBuf : decode .host [0b00010100, 0x1234, 0x8001] = .ok (.sendBuf 0x1234 0x8001) := by decide
theorem test_decode_recvBuf : decode .host [0b00010101, 0, 2] = .ok (.recvBuf 0 2) := by decide
theorem test_decode_crc8 : decode .host [0b00100000, 5, 7] = .ok (.crc8 5 7) := by decide
theorem test_decode_crc16 : decode .host [0b00100001, 5, 9] = .ok (.crc16 5 9) := by decide
theorem test_decode_makeId : decode .host [0b00100010, 0x28, 1, 2, 3, 4, 5, 6] =
    .ok (.makeId 0x28 #v[1, 2, 3, 4, 5, 6]) := by decide
/-- EX-3. -/
theorem test_decode_reserved : decode .host [0x00] = .error (.reservedOp 0x00) ∧
    decode .host [0x0A] = .error (.reservedOp 0x0A) ∧ decode .host [0xFF] = .error (.reservedOp 0xFF) := by decide
/-- R117: an operand that exceeds its width, or is missing, is no operand. -/
theorem test_decode_operands : decode .host [0x10, 2] = .error (.operandRange 0x10) ∧
    decode .host [0x09, 256] = .error (.operandRange 0x09) ∧ decode .host [0x14, 0] = .error (.operandCount 0x14) := by
  decide
/-- Words of the opcode table, operand bits all zero. -/
theorem test_decodeTableWord : decodeTableWord 8 0xF0 = some .searchRom ∧ decodeTableWord 8 0x00 =
    some (.unrecognized 0) ∧ decodeTableWord 8 0x01 = some (.attach 0) ∧ decodeTableWord 8 0x14 = some (.sendBuf 0 0) ∧
    decodeTableWord 8 0x22 = some (.makeId 0 #v[0, 0, 0, 0, 0, 0]) := by decide
theorem test_fetchWord_host : step (State.reset.withFetchWord 8 0x08) = exec .getCount State.reset := rfl
theorem test_fetchWord_bus : step (State.reset.withFetchWord 8 0xCC) =
    exec .skipRom { State.reset with fsm := .commandReceive, tshift := 0xCC, tbit := 8 } := rfl

/-! ### The test instance, its devices and its bus scripts (95_test_vectors 0.1, 0.2) -/

def idA : Ident := #v[0x28, 0x01, 0x02, 0x03, 0x04, 0x05, 0x06, 0x9E]
def idB : Ident := #v[0x28, 0x01, 0x02, 0x03, 0x04, 0x05, 0x07, 0xC0]
def idC : Ident := #v[0x10, 0xAA, 0x00, 0x00, 0x00, 0x00, 0x00, 0x68]
def idD : Ident := #v[0x01, 0x00, 0x00, 0x00, 0x00, 0x00, 0x00, 0x3D]

/-- The test instance with devices 10 to 13 = A to D, 14 a second device with A's identifier, and a buffer at 0x40. -/
def bare : State :=
  { State.reset with
    devices := [(10, idA), (11, idB), (12, idC), (13, idD), (14, idA)]
    mem := [(0x40, 0x01), (0x41, 0x80), (0x42, 0x33)] }

/-- The state after an instruction. -/
def after (i : Instr) (s : State) : State :=
  match exec i s with
  | .next t => t
  | .fault _ => s
  | .refused _ => s

/-- The bare instance with these draws to come. -/
def onBus (bus : List Draw) : State := { bare with bus := bus }

/-- Why an instruction is refused, if it is. -/
def refusal? (i : Instr) (s : State) : Option Refusal :=
  match exec i s with
  | .next _ => none
  | .fault _ => none
  | .refused r => some r

def withA : State := after (.attach 10) bare
def withAB : State := after (.attach 11) withA
def withABC : State := after (.attach 12) withAB
def withABCD : State := after (.attach 13) withABC

/-- A call that takes no time. -/
def tick : Draw := ⟨0, true⟩
/-- A slot start after one low and one high sample. -/
def start : List Draw := [tick, ⟨3, false⟩, tick, ⟨10, true⟩, tick, ⟨5, true⟩, tick, ⟨20, false⟩]
def starts : List Access := [.sample false, .sample true, .sample true, .sample false]
/-- A slot in which the core sends `v`, and what it does there (R202). -/
def sendSlot (v : Bool) : List Draw := start ++ if v then [] else [tick, tick, tick]
def sends (v : Bool) : List Access := starts ++ if v then [] else [.driveLow, .release]
/-- A slot in which the master writes `v` (R203). -/
def recvSlot (v : Bool) : List Draw := start ++ [tick, ⟨0, v⟩]
def recvs (v : Bool) : List Access := starts ++ [.sample v]
/-- The slots in which the core sends these bits. -/
def readBits (vs : List Bool) : List Draw := vs.flatMap sendSlot
/-- The slots of bits, and of a byte, that the master writes. -/
def writeBits (vs : List Bool) : List Draw := vs.flatMap recvSlot
def writeByte (b : Byte) : List Draw := writeBits (byteBits b)
/-- The slots of a search step. -/
def triplet (pair : Bool × Bool) (d : Bool) : List Draw := sendSlot pair.1 ++ (sendSlot pair.2 ++ recvSlot d)
def tripletAccesses (pair : Bool × Bool) (d : Bool) : List Access := sends pair.1 ++ (sends pair.2 ++ recvs d)
/-- The slots of `n` search steps from position p on, answered with `ds`. -/
def searchDraws (s : State) (ds : Nat → Bool) : Nat → Nat → List Draw
  | 0, _ => []
  | n + 1, p => triplet (s.wiredPair (s.activeAt ds p) p) (ds p) ++ searchDraws s ds n (p + 1)
def searchAccesses (s : State) (ds : Nat → Bool) : Nat → Nat → List Access
  | 0, _ => []
  | n + 1, p => tripletAccesses (s.wiredPair (s.activeAt ds p) p) (ds p) ++ searchAccesses s ds n (p + 1)
/-- A low pulse of that width from its first clock read on, one low sample 1 µs after it. -/
def pulseOf (width : Nat) : List Draw := tick :: (held false [(1, tick)] ++ [⟨width - 1, true⟩, tick])
/-- A fall from a line that has been high, and a line that is low at entry. -/
def fromHigh (pulse : List Draw) : List Draw :=
  tick :: ⟨0, true⟩ :: tick :: (held true [(10, tick)] ++ ⟨10, false⟩ :: pulse)
def fromLow (pulse : List Draw) : List Draw := tick :: ⟨0, false⟩ :: pulse
/-- A presence pulse after which the line is high. -/
def presenceDraws : List Draw := tick :: tick :: tick :: tick :: tick :: (held false [(2, tick)] ++ [⟨5, true⟩])
/-- RST: a 500 µs low pulse from an idle-high line, and the presence pulse. -/
def rst : List Draw := fromHigh (pulseOf 500) ++ presenceDraws
/-- The slots of a search steered with the bits of slot i. -/
def searchFor (s : State) (i : Nat) : List Draw := searchDraws s (s.slotBit i) 64 0
/-- `s` in CommandReceive, with these slots to come. -/
def receiving (s : State) (bus : List Draw) : State := { s with fsm := .commandReceive, tbit := 8, bus := bus }

/-! ### The slot table (2.7) and the tree (2.2) -/

/-- ST-2, DT-2 (T1). -/
theorem test_attach : withA.result = some (.byte 0x00) ∧ withA.count = 1 ∧ withA.treeRoot = 0 ∧
    withA.treeNext = 1 ∧ withA.tree[0]? = some ⟨128, 0, 255, 255⟩ := by decide
/-- DT-5 (T4). -/
theorem test_attach_four : withABCD.treeNext = 7 ∧ withABCD.tree = [⟨0, 0, 2, 1⟩, ⟨128, 3, 255, 255⟩, ⟨3, 0, 6, 3⟩,
    ⟨48, 0, 5, 4⟩, ⟨128, 1, 255, 255⟩, ⟨128, 0, 255, 255⟩, ⟨128, 2, 255, 255⟩] := by decide
/-- DT-6 (T5). -/
theorem test_detachSlot : (after (.detachSlot 1) withABC).treeNext = 3 ∧ (after (.detachSlot 1) withABC).tree.take 3 =
    [⟨3, 0, 2, 1⟩, ⟨128, 0, 255, 255⟩, ⟨128, 2, 255, 255⟩] ∧ (after (.detachSlot 1) withABC).count = 2 := by decide
/-- ST-8. -/
theorem test_detachSlot_out_of_range : after (.detachSlot 5) withAB =
    { withAB with result := some (.byte 0x01) } := by decide
/-- DT-10. -/
theorem test_detachDev_not_found : after (.detachDev 12) withAB =
    { withAB with result := some (.byte 0x01) } := by decide
/-- D19: the selected device is detached. -/
theorem test_detachDev_selected : (after (.detachDev 11) { withAB with sel := 1 }).sel = 0xFF ∧
    (after (.detachDev 11) { withAB with sel := 1 }).result = some (.byte 0x00) := by decide
/-- DT-8 (T8). -/
theorem test_attach_equal_identifiers : (after (.attach 14) withA).treeNext = 1 ∧
    (after (.attach 14) withA).tree[0]? = some ⟨128, 0, 255, 255⟩ := by decide
/-- 60_exceptions R300: code 0x04. -/
theorem test_getError : (after .getError { bare with err := .readTimeslotTimeoutHigh }).result =
    some (.byte 0x04) := by decide
theorem test_getSelected : (after .getSelected { withAB with sel := 1 }).result = some (.byte 1) := by decide
/-- ST-1. -/
theorem test_getCount : (after .getCount bare).result = some (.byte 0) := by decide
/-- ST-12, ST-13 (with N_MAX = 4). -/
theorem test_getSlot : (after (.getSlot 1) withAB).result = some (.slot (some 11)) ∧
    refusal? (.getSlot 4) withAB = some (.noSuchSlot 4) := by decide

/-! ### POLL and RUN (2.3, 2.6) -/

/-- HS-1, HS-2, HS-10. -/
theorem test_poll : (after .poll { withA with bus := [] }).result = some (.byte 0x01) ∧
    (after .poll { withA with bus := [tick, tick, tick, ⟨10, false⟩, tick, ⟨100, true⟩, tick] }).err = .veryShortReset ∧
    (after .poll { withA with bus := rst }).err = .readTimeslotTimeoutHigh := by decide
/-- DP-12 up to the command byte. -/
theorem test_poll_command : (after .poll { withA with bus := rst ++ writeByte 0xF0 }).fsm = .commandReceive ∧
    (after .poll { withA with bus := rst ++ writeByte 0xF0 }).tshift = 0xF0 := by decide +kernel
/-- DP-1 inside RUN: the result is discarded (R264). -/
theorem test_run : (after .run bare).running = true ∧ (after .run bare).result = none := by decide

/-! ### ROM commands (2.5, 2.6) -/

/-- S-2. -/
theorem test_searchRom : (after .searchRom (receiving withAB (searchFor withAB 1))).sel = 1 ∧
    (after .searchRom (receiving withAB (searchFor withAB 1))).result = some (.byte 0x83) := by decide +kernel
/-- S-4. -/
theorem test_searchRom_mismatch : (after .searchRom (receiving withAB
      (triplet (false, true) true))).result = some (.byte 0x82) ∧
    (after .searchRom (receiving withAB (triplet (false, true) true))).err = .searchMismatch := by
  decide +kernel
/-- DP-9 up to the duty. -/
theorem test_matchRom : (after .matchRom (receiving withA (idA.toList.flatMap writeByte))).sel = 0 ∧
    (after .matchRom (receiving withA (idA.toList.flatMap writeByte))).fsm = .duty := by decide +kernel
/-- DP-10. -/
theorem test_matchRom_miss : (after .matchRom (receiving withA (idB.toList.flatMap writeByte))).err = .noAddressMatch ∧
    (after .matchRom (receiving withA (idB.toList.flatMap writeByte))).result = some (.byte 0x02) := by decide +kernel
/-- DP-2. -/
theorem test_skipRom : (after .skipRom (receiving withA [])).result = some (.byte 0x05) := by decide
/-- DP-3. -/
theorem test_readRom : (after .readRom (receiving withA [])).result = some (.byte 0x06) := by decide
/-- DP-4. -/
theorem test_readRomLegacy : (after .readRomLegacy (receiving withA [])).gotos = [.readRom, .idle] ∧
    (after .readRomLegacy (receiving withA [])).result = some (.byte 0x06) := by decide
/-- DP-5. -/
theorem test_unrecognized : (after (.unrecognized 0xA5) (receiving withA [])).result = some (.byte 0x06) := by decide
/-- EX-6: a duty whose RECV_BYTE fails and which then returns. -/
theorem test_duty : ∃ t u, step { withA with sel := 0, fsm := .duty, duties := [(10, [.call [0x13], .ret])] } = .next t ∧
    step t = .next u ∧ t.err = .readTimeslotTimeoutHigh ∧ u.result = some (.byte 0x02) ∧ u.sel = 0 :=
  ⟨_, _, rfl, rfl, by decide, by decide, by decide⟩

/-! ### Transport (2.4) -/

/-- TR-1, TR-2: the core drives low for a 0 only. -/
theorem test_sendBit : (after (.sendBit false) { bare with bus := readBits [false] }).accesses =
      [.sample false, .sample true, .sample true, .sample false, .driveLow, .release] ∧
    (after (.sendBit true) { bare with bus := readBits [true] }).accesses =
      [.sample false, .sample true, .sample true, .sample false] := by decide
/-- TR-4. -/
theorem test_recvBit : (after .recvBit { bare with bus := recvSlot false }).result =
    some (.okBit true false) := by decide
/-- TR-9: 0xA5 goes out as 1,0,1,0,0,1,0,1. -/
theorem test_sendByte : (after (.sendByte 0xA5) { bare with
      bus := readBits [true, false, true, false, false, true, false, true] }).accesses =
    [true, false, true, false, false, true, false, true].flatMap sends := by decide +kernel
/-- TR-12: three bits, then nothing. -/
theorem test_sendByte_timeout : (after (.sendByte 0x0F) { bare with bus := readBits [true, true, true] }).tbit = 3 ∧
    (after (.sendByte 0x0F) { bare with bus := readBits [true, true, true] }).err = .readTimeslotTimeoutHigh := by
  decide +kernel
/-- TR-11. -/
theorem test_recvByte : (after .recvByte
    { bare with bus := writeBits [false, false, false, false, true, true, true, true] }).result =
    some (.okByte true 0xF0) := by decide +kernel
/-- TR-14. -/
theorem test_sendBuf : (after (.sendBuf 0x40 2) { bare with bus := readBits (bytesBits [0x01, 0x80]) }).result =
    some (.count 2) := by decide +kernel
/-- TR-16. -/
theorem test_sendBuf_empty : after (.sendBuf 0x99 0) bare = { bare with result := some (.count 0) } := by decide
/-- TR-17. -/
theorem test_recvBuf : (after (.recvBuf 0x40 2) { bare with bus := writeByte 0x28 ++ writeByte 0x01 }).mem =
    [(0x40, 0x28), (0x41, 0x01), (0x42, 0x33)] := by decide +kernel
/-- R85: a byte outside the buffer. -/
theorem test_recvBuf_outside : refusal? (.recvBuf 0x50 1) { bare with bus := writeByte 0x28 } =
    some (.outsideBuffer 0x50) := by decide +kernel

/-! ### CRC engine (2.1) -/

/-- C8-12, C8-10. -/
theorem test_crc8 : crc8 [0x28, 0x01, 0x02, 0x03, 0x04, 0x05, 0x06] = 0x9E ∧
    crc8 [0x31, 0x32, 0x33, 0x34, 0x35, 0x36, 0x37, 0x38, 0x39] = 0xA1 := by decide +kernel
/-- C16-10, C16-3. -/
theorem test_crc16 : crc16 [0x31, 0x32, 0x33, 0x34, 0x35, 0x36, 0x37, 0x38, 0x39] = 0xBB3D ∧
    crc16 [0x01] = 0xC0C1 := by decide +kernel
/-- C8-7, as the operation; the buffer holds 01 80. -/
theorem test_crc8_buffer : (after (.crc8 0x40 1) bare).result = some (.byte 0x5E) ∧
    refusal? (.crc8 0x42 2) bare = some (.outsideBuffer 0x43) := by decide +kernel
theorem test_crc16_buffer : (after (.crc16 0x41 1) bare).result = some (.crc16 0xA001) := by decide +kernel
/-- MK-7. -/
theorem test_makeId : (after (.makeId 0x02 #v[0x1C, 0xB8, 0x01, 0, 0, 0]) bare).result =
    some (.ident #v[0x02, 0x1C, 0xB8, 0x01, 0x00, 0x00, 0x00, 0xA2]) := by decide +kernel

/-! ### Witnesses: for every statement with hypotheses, concrete values that meet them -/

theorem start_ok : SlotStart Config.testValues start starts :=
  ⟨tick, [(3, tick)], 10, tick, [(5, tick)], 20, rfl, ⟨by decide, trivial⟩, ⟨by decide, trivial⟩, rfl⟩

theorem sendSlot_ok (v : Bool) : SendSlot Config.testValues v (sendSlot v) (sends v) := by
  refine ⟨start, starts, start_ok, ?_⟩
  cases v
  · exact ⟨tick, tick, tick, rfl, rfl⟩
  · exact ⟨rfl, rfl⟩

theorem recvSlot_ok (v : Bool) : RecvSlot Config.testValues v (recvSlot v) (recvs v) :=
  ⟨start, starts, tick, 0, start_ok, rfl, rfl⟩

theorem readBits_ok (vs : List Bool) : Slots (SendSlot Config.testValues) vs (readBits vs) (vs.flatMap sends) := by
  induction vs with
  | nil => exact ⟨rfl, rfl⟩
  | cons v vs ih => exact ⟨_, _, _, _, sendSlot_ok v, ih, rfl, rfl⟩

theorem writeBits_ok (vs : List Bool) : Slots (RecvSlot Config.testValues) vs (writeBits vs) (vs.flatMap recvs) := by
  induction vs with
  | nil => exact ⟨rfl, rfl⟩
  | cons v vs ih => exact ⟨_, _, _, _, recvSlot_ok v, ih, rfl, rfl⟩

theorem searchDraws_ok (s : State) (hc : s.cfg = Config.testValues) (ds : Nat → Bool) (n p : Nat) :
    s.SearchSlots ds n p (searchDraws s ds n p) (searchAccesses s ds n p) := by
  induction n generalizing p with
  | zero => exact ⟨rfl, rfl⟩
  | succ n ih =>
    exact ⟨_, _, _, _, ⟨_, _, _, _, _, _, hc ▸ sendSlot_ok _, hc ▸ sendSlot_ok _, hc ▸ recvSlot_ok _, rfl, rfl⟩, ih _,
      rfl, rfl⟩

theorem pulse_ok (width : Nat) (h : 1 ≤ width) : PulseEnd Config.testValues (BitVec.ofNat 32 width) (pulseOf width) :=
  ⟨tick, [(1, tick)], width - 1, tick, rfl, ⟨by decide, trivial⟩, by simp [heldTime, tick]; congr 1; omega⟩

theorem fromHigh_ok (pulse : List Draw) : FromHigh Config.testValues pulse (fromHigh pulse) :=
  ⟨tick, 0, tick, [(10, tick)], 10, rfl, ⟨by decide, trivial⟩⟩

theorem reset_ok : AcceptedReset Config.testValues (fromHigh (pulseOf 500)) :=
  ⟨_, _, pulse_ok 500 (by decide), .inl ⟨fromHigh_ok _, by decide⟩⟩

theorem presence_ok : PresenceSlot Config.testValues presenceDraws
    [.driveLow, .release, .sample false, .sample true] :=
  ⟨tick, tick, tick, tick, tick, [(2, tick)], 5, rfl, ⟨by decide, trivial⟩, rfl⟩

theorem withAB_treeCurrent : withAB.TreeCurrent := by unfold State.TreeCurrent; decide

theorem withAB_inv : withAB.Inv where
  cfgValid := by decide
  slotsLength := by decide
  slotsDistinct := by
    intro i j h hi hj
    have bound : ∀ {k : Nat}, withAB.slotAt k = some h → k < 4 := fun {k} hk =>
      occupied_lt_length (s := withAB) (by unfold State.Occupied; rw [hk]; rfl)
    have hall : ∀ i < 4, ∀ j < 4, (withAB.slotAt i).isSome → withAB.slotAt i = withAB.slotAt j → i = j := by decide
    exact hall i (bound hi) j (bound hj) (by rw [hi]; rfl) (hi.trans hj.symm)
  countOccupied := by decide
  treeCurrent := withAB_treeCurrent
  selOccupied := .inl (by decide)
  released := by decide
  unmasked := by decide
  boundary := .inl (by decide)
  busyHasDevice := by decide
  commandUnselected := by decide
  dutySelected := fun h => absurd h (by decide)
  memWf := by decide
  accessesMasked := fun _ _ _ h => absurd h (by rw [show withAB.trace = [] by decide]; exact List.not_mem_nil)

theorem witness_DecodeInvertsEncode : (Instr.unrecognized 0xFF).wellFormed = true ∧
    (Instr.sendBuf (2 ^ 70) 0xFFFF).wellFormed = true := by decide

theorem witness_EncodingsAreUnique : decode .host [0x14, 2 ^ 70, 0xFFFF] = .ok (.sendBuf (2 ^ 70) 0xFFFF) ∧
    decode .bus [0xFF] = .ok (.unrecognized 0xFF) := by decide

theorem witness_RomDecodeIsExact : (0xF1 : Byte) ≠ 0xF0 ∧ (0xF1 : Byte) ≠ 0x55 ∧ (0xF1 : Byte) ≠ 0xCC ∧
    (0xF1 : Byte) ≠ 0x33 ∧ (0xF1 : Byte) ≠ 0x0F := by decide

theorem witness_ReservedOpsAreRefused : ∀ op ∈ [0x00, 0x0A, 0x0F, 0x16, 0x1F, 0x23, 0xFF],
    (op = 0x00 ∨ (0x0A ≤ op ∧ op ≤ 0x0F) ∨ (0x16 ≤ op ∧ op ≤ 0x1F) ∨ (0x23 ≤ op ∧ op ≤ 0xFF)) ∧
    (∃ s : State, s.fsm = .idle ∧ s.running = false ∧ ∃ rest, s.host = [op, 7] :: rest) ∧
    ∃ s : State, s.fsm = .duty ∧ ∃ rest, s.dutyActs = .call [op, 7] :: rest := by
  intro op h
  refine ⟨by revert op; decide, ⟨{ bare with host := [[op, 7]] }, rfl, rfl, [], rfl⟩,
    ⟨{ withA with sel := 0, fsm := .duty, duties := [(10, [.call [op, 7]])] }, rfl, [], rfl⟩⟩

/-- A state for each of the seven clauses. -/
theorem witness_StepRunsTheDecodedInstruction :
    (∃ (s : State) (request : List Nat) (rest : List (List Nat)) (i : Instr), s.fsm = .idle ∧ s.running = false ∧
      s.host = request :: rest ∧ decode .host request = .ok i) ∧
    (∃ s : State, s.fsm = .idle ∧ s.running = false ∧ s.host = []) ∧
    (∃ s : State, s.fsm = .idle ∧ s.running = true) ∧
    (∃ (s : State) (i : Instr), s.fsm = .commandReceive ∧ decode .bus [s.tshift.toNat] = .ok i) ∧
    (∃ (s : State) (request : List Nat) (rest : List DutyAct) (i : Instr), s.fsm = .duty ∧
      s.dutyActs = .call request :: rest ∧ decode .host request = .ok i) ∧
    (∃ (s : State) (rest : List DutyAct), s.fsm = .duty ∧ s.dutyActs = .ret :: rest) ∧
    ∃ s : State, s.fsm = .duty ∧ s.dutyActs = [] :=
  ⟨⟨{ bare with host := [[0x04], [0x06]] }, [0x04], [[0x06]], .poll, rfl, rfl, rfl, rfl⟩, ⟨bare, rfl, rfl, rfl⟩,
    ⟨{ bare with running := true }, rfl, rfl⟩, ⟨receiving withA [], .unrecognized 0, rfl, rfl⟩,
    ⟨{ withA with sel := 0, fsm := .duty, duties := [(10, [.call [0x06], .ret])] }, [0x06], [.ret], .getError, rfl, rfl,
      rfl⟩,
    ⟨{ withA with sel := 0, fsm := .duty, duties := [(10, [.ret])] }, [], rfl, rfl⟩,
    ⟨{ withA with sel := 0, fsm := .duty }, rfl, rfl⟩⟩

/-- EX-4 and the ends of the range of N_MAX. -/
theorem witness_ConstructionGivesTheResetState :
    ¬({ Config.testValues with tResetMin := 1000, tResetMax := 400 } : Config).Valid ∧
    ¬({ Config.testValues with nMax := 0 } : Config).Valid ∧
    ¬({ Config.testValues with nMax := 128 } : Config).Valid ∧
    ({ Config.testValues with nMax := 1 } : Config).Valid ∧
    ({ Config.testValues with nMax := 127 } : Config).Valid := by decide

theorem witness_PowerCycleEmptiesTheTable : construct withAB.cfg = .next (State.init withAB.cfg) := rfl

theorem witness_AttachedDevicesAreFixed : (1 < withAB.cfg.nMax ∧ withAB.slotAt 1 = some 11) ∧
    withAB.Inv ∧ (∃ t, putDevice 12 idB withAB = .next t) ∧ ∃ t, destroyDevice 12 withAB = .next t :=
  ⟨by decide, withAB_inv, ⟨_, rfl⟩, ⟨_, rfl⟩⟩

theorem witness_ConstructionSatisfiesInv : ({ Config.testValues with nMax := 127 } : Config).Valid := by decide

theorem witness_StepKeepsInv : ∃ s t : State, s.Inv ∧ step s = .next t :=
  ⟨_, _, Inv.setHost withAB_inv [[0x03, 1]], rfl⟩

theorem witness_PollWithoutDevices : bare.fsm = .idle ∧ bare.count = 0 := by decide

/-- A line that is high for good, and one that stays high for exactly T_RESET_WAIT. -/
theorem witness_QuietLineGivesNoReset :
    (∃ s : State, s.fsm = .idle ∧ s.count ≠ 0 ∧ ∀ d ∈ s.bus, d.level = true) ∧
    ∃ (s : State) (entry : Nat) (up now0 : Draw) (ps : List (Nat × Draw)) (rest : List Draw), s.fsm = .idle ∧
      s.count ≠ 0 ∧ s.bus = up :: ⟨entry, true⟩ :: now0 :: (held true ps ++ rest) ∧ ps ≠ [] ∧
      s.cfg.tResetWait ≤ BitVec.ofNat 32 (heldTime ps) :=
  ⟨⟨{ withA with bus := [tick, tick] }, rfl, by decide, by decide⟩,
    ⟨{ withA with bus := [tick, ⟨3, true⟩, tick, ⟨4000, true⟩, ⟨6000, false⟩, ⟨1, false⟩] }, 3, tick, tick, [(4000, ⟨6000, false⟩)],
      [⟨1, false⟩], rfl, by decide, rfl, by decide, by decide⟩⟩

/-- A pulse of 399 µs from high and from low, one held for exactly T_RESET_MAX from either, one of exactly T_RESET_MIN,
and a short one from low that counts as a reset. -/
theorem witness_ResetPulsesAreClassified :
    (∃ (s : State) (pulse script : List Draw) (width : Stamp), s.fsm = .idle ∧ s.count ≠ 0 ∧ s.bus = script ++ [] ∧
      FromHigh s.cfg pulse script ∧ PulseEnd s.cfg width pulse ∧ width < s.cfg.tResetMin) ∧
    (∃ (s : State) (pulse script : List Draw) (width : Stamp), s.fsm = .idle ∧ s.count ≠ 0 ∧ s.bus = script ++ [] ∧
      FromLow pulse script ∧ PulseEnd s.cfg width pulse ∧ width < s.cfg.tResetMin ∧ s.cfg.entryLowPolicy = .noReset) ∧
    (∃ (s : State) (pulse script : List Draw), s.fsm = .idle ∧ s.count ≠ 0 ∧ s.bus = script ++ [] ∧
      FromHigh s.cfg pulse script ∧ PulseHeld s.cfg pulse) ∧
    (∃ (s : State) (pulse script : List Draw), s.fsm = .idle ∧ s.count ≠ 0 ∧ s.bus = script ++ [] ∧
      FromLow pulse script ∧ PulseHeld s.cfg pulse) ∧
    (∃ (s : State) (script : List Draw), s.fsm = .idle ∧ s.count ≠ 0 ∧ s.bus = script ++ [] ∧
      AcceptedReset s.cfg script) ∧
    ∃ (s : State) (pulse script : List Draw), s.fsm = .idle ∧ s.count ≠ 0 ∧ s.bus = script ++ [] ∧
      FromLow pulse script ∧ PulseEnd s.cfg 7 pulse ∧ AcceptedReset s.cfg script := by
  have hh : PulseHeld Config.testValues (tick :: (held false [(400, tick), (600, tick)] ++ [])) :=
    ⟨_, _, _, rfl, by decide, by decide⟩
  exact ⟨⟨{ withA with bus := fromHigh (pulseOf 399) ++ [] }, _, _, _, rfl, by decide, rfl, fromHigh_ok _,
      pulse_ok 399 (by decide), by decide⟩,
    ⟨{ withA with bus := fromLow (pulseOf 399) ++ [], cfg := { withA.cfg with entryLowPolicy := .noReset } }, _, _, _, rfl,
      by decide, rfl, ⟨tick, 0, rfl⟩, pulse_ok 399 (by decide), by decide, rfl⟩,
    ⟨{ withA with bus := fromHigh (tick :: (held false [(400, tick), (600, tick)] ++ [])) ++ [] }, _, _, rfl, by decide,
      rfl, fromHigh_ok _, hh⟩,
    ⟨{ withA with bus := fromLow (tick :: (held false [(400, tick), (600, tick)] ++ [])) ++ [] }, _, _, rfl, by decide, rfl,
      ⟨tick, 0, rfl⟩, hh⟩,
    ⟨{ withA with bus := fromHigh (pulseOf 400) ++ [] }, _, rfl, by decide, rfl, _, _, pulse_ok 400 (by decide),
      .inl ⟨fromHigh_ok _, by decide⟩⟩,
    ⟨{ withA with bus := fromLow (pulseOf 7) ++ [] }, _, _, rfl, by decide, rfl, ⟨tick, 0, rfl⟩, pulse_ok 7 (by decide), _, _,
      pulse_ok 7 (by decide), .inr ⟨⟨tick, 0, rfl⟩, .inr rfl⟩⟩⟩

theorem witness_PollReceivesACommand : ∃ (s : State) (reset presence command : List Draw) (pulse bits : List Access),
    s.fsm = .idle ∧ s.count ≠ 0 ∧ AcceptedReset s.cfg reset ∧ PresenceSlot s.cfg presence pulse ∧
    Slots (RecvSlot s.cfg) (byteBits 0xF0) command bits ∧ s.bus = reset ++ presence ++ command ++ [tick] :=
  ⟨{ withA with bus := fromHigh (pulseOf 500) ++ presenceDraws ++ writeBits (byteBits 0xF0) ++ [tick] }, _, _, _, _, _,
    by decide, by decide, reset_ok, presence_ok, writeBits_ok _, rfl⟩

/-- HS-9, with the line held for exactly T_PRESENCE_HIGH_MAX. -/
theorem witness_PresenceHeldLowAborts : ∃ (s : State) (reset : List Draw), s.fsm = .idle ∧ s.count ≠ 0 ∧
    AcceptedReset s.cfg reset ∧ s.bus = reset ++ tick :: tick :: tick :: tick :: tick :: (held false [(300, tick)] ++ []) ∧
    [(300, tick)] ≠ [] ∧ s.cfg.tPresenceHighMax ≤ BitVec.ofNat 32 (heldTime [(300, tick)]) :=
  ⟨{ withA with bus := fromHigh (pulseOf 500) ++ tick :: tick :: tick :: tick :: tick :: (held false [(300, tick)] ++ []) }, _,
    by decide, by decide, reset_ok, rfl, by decide, by decide⟩

theorem witness_PollOutcomes : withA.fsm = .idle ∧ withA.count ≠ 0 := by decide

theorem witness_RunPollsForever : withA.fsm = .idle ∧
    (∃ s t : State, s.running = true ∧ s.fsm = .idle ∧ step s = .next t) ∧ (receiving withA []).fsm ≠ .idle :=
  ⟨by decide, ⟨{ bare with running := true }, _, rfl, rfl, rfl⟩, by decide⟩

theorem witness_RefusedDuringATransaction : (receiving withA []).fsm ≠ .idle ∧ Instr.getError ≠ .poll ∧
    Instr.getError ≠ .run ∧ (∀ g, Instr.getError ≠ .attach g) ∧ (∀ g, Instr.getError ≠ .detachDev g) ∧
    ∀ k, Instr.getError ≠ .detachSlot k := by simp; decide

theorem search_served (n : Nat) (script : List Draw) (as : List Access)
    (h : withAB.SearchSlots (withAB.slotBit 1) n 0 script as) :
    ∃ (s : State) (script : List Draw) (as : List Access), s.cfg.Valid ∧
      s.TreeCurrent ∧ 1 < s.cfg.nMax ∧ s.Occupied 1 ∧ s.line = ⟨false, false⟩ ∧
      s.SearchSlots (s.slotBit 1) n 0 script as ∧ s.bus = script ++ [] :=
  have hs : (receiving withAB (script ++ [])).slotBit 1 = withAB.slotBit 1 :=
    congrFun (slotBit_congr (s := withAB) rfl rfl) 1
  ⟨receiving withAB (script ++ []), script, as, (by decide : withAB.cfg.Valid),
    TreeCurrent.congr withAB_treeCurrent rfl rfl rfl rfl rfl rfl, (by decide : 1 < withAB.cfg.nMax), rfl, rfl,
    by rw [hs]; exact (SearchSlots_congr (s := withAB) (u := receiving withAB _) rfl rfl rfl _ _ _ _ _).mpr h, rfl⟩

theorem witness_SearchFindsEveryDevice : ∃ (s : State) (script : List Draw) (as : List Access), s.cfg.Valid ∧
    s.TreeCurrent ∧ 1 < s.cfg.nMax ∧ s.Occupied 1 ∧ s.line = ⟨false, false⟩ ∧
    s.SearchSlots (s.slotBit 1) 64 0 script as ∧ s.bus = script ++ [] :=
  search_served 64 _ _ (searchDraws_ok withAB rfl _ 64 0)

/-- S-4: at p = 0 no device has the answer; and p = 63, where A's last bit is answered wrongly. -/
theorem witness_SearchMismatchAborts :
    (withAB.activeAt (fun _ => true) 0 ≠ [] ∧ withAB.activeAt (fun _ => true) 1 = []) ∧
    (withA.activeAt (fun q => withA.slotBit 0 q ^^ (q == 63)) 63 ≠ [] ∧
      withA.activeAt (fun q => withA.slotBit 0 q ^^ (q == 63)) 64 = []) ∧
    ∃ (s : State) (script : List Draw) (as : List Access), s.cfg.Valid ∧ s.TreeCurrent ∧
      s.activeAt (fun _ => true) 0 ≠ [] ∧ s.activeAt (fun _ => true) 1 = [] ∧ s.line = ⟨false, false⟩ ∧
      s.SearchSlots (fun _ => true) 1 0 script as ∧ s.bus = script ++ [] :=
  ⟨by decide +kernel, by decide +kernel,
    receiving withAB (searchDraws withAB (fun _ => true) 1 0 ++ []), _, _, by decide,
    TreeCurrent.congr withAB_treeCurrent rfl rfl rfl rfl rfl rfl, by decide +kernel, by decide +kernel, by decide,
    (SearchSlots_congr rfl rfl rfl _ _ _ _ _).mpr (searchDraws_ok withAB rfl _ 1 0), rfl⟩

theorem witness_SearchOutcomes : withAB.cfg.Valid ∧ withAB.TreeCurrent ∧ withAB.occupied ≠ [] :=
  ⟨by decide, withAB_treeCurrent, by decide⟩

/-- At p = 0, and at p = 63 with A's own bits. -/
theorem witness_WalkSendsTheWiredPair : withAB.cfg.Valid ∧ withAB.TreeCurrent ∧
    withAB.activeAt (withAB.slotBit 0) 0 ≠ [] ∧ withAB.activeAt (withAB.slotBit 0) 63 ≠ [] :=
  ⟨by decide, withAB_treeCurrent, by decide +kernel, by decide +kernel⟩

/-- The divergence of A and B at position 48 (T2). -/
theorem witness_NoChildIsUnreachable : withAB.cfg.Valid ∧ withAB.TreeCurrent ∧ withAB.occupied ≠ [] ∧
    ∃ u, walkFollow (withAB.slotBit 0) 48 (walkStart withAB) = some u ∧ u.wpos = u.wtrig := by
  refine ⟨by decide, withAB_treeCurrent, by decide, ?_⟩
  have h : ∀ x : Option State, (x.any fun u => u.wpos == u.wtrig) = true → ∃ u, x = some u ∧ u.wpos = u.wtrig := by
    intro x hx
    cases x with
    | none => cases hx
    | some u => exact ⟨u, rfl, by simpa using hx⟩
  exact h _ (by decide +kernel)

/-- DP-9 and DP-10. -/
theorem witness_MatchRomSelectsByAddress :
    (∃ (s : State) (script : List Draw) (as : List Access), s.line = ⟨false, false⟩ ∧
      Slots (RecvSlot s.cfg) (bytesBits idB.toList) script as ∧ s.bus = script ++ [] ∧ 1 < s.cfg.nMax ∧ s.Occupied 1 ∧ (∀ k (hk : k < 8), idByte s.devices (s.slotAt 1) k = idB[k]) ∧
      ∀ j < 1, s.Occupied j → ∃ k, ∃ hk : k < 8, idByte s.devices (s.slotAt j) k ≠ idB[k]) ∧
    ∃ (s : State) (script : List Draw) (as : List Access), s.line = ⟨false, false⟩ ∧
      Slots (RecvSlot s.cfg) (bytesBits idB.toList) script as ∧ s.bus = script ++ [] ∧
      ∀ i, i < s.cfg.nMax → s.Occupied i → ∃ k, ∃ hk : k < 8, idByte s.devices (s.slotAt i) k ≠ idB[k] := by
  refine ⟨⟨receiving withAB (writeBits (bytesBits idB.toList) ++ []), _, _, by decide, writeBits_ok _, rfl, by decide, rfl,
    by decide, fun j hj _ => ⟨6, by decide, ?_⟩⟩,
    ⟨receiving withA (writeBits (bytesBits idB.toList) ++ []), _, _, by decide, writeBits_ok _, rfl,
      fun i hi ho => ⟨6, by decide, ?_⟩⟩⟩
  · obtain rfl : j = 0 := by omega
    decide
  · have h0 : ∀ j < 4, (withA.slotAt j).isSome = true → j = 0 := by decide
    obtain rfl := h0 i hi ho
    decide

theorem witness_DutyReturnEndsTheTransaction : ∃ (s : State) (rest : List DutyAct), s.fsm = .duty ∧
    s.dutyActs = .ret :: rest :=
  ⟨{ withA with sel := 0, fsm := .duty, duties := [(10, [.ret])] }, [], rfl, rfl⟩

theorem witness_TransportLatchesErr : (∃ t, exec (.sendBuf 0x40 2) bare = .next t) ∧
    ∃ t, exec (.recvBuf 0x40 3) bare = .next t := ⟨⟨_, rfl⟩, ⟨_, rfl⟩⟩

theorem witness_BitsInAServedSlot :
    (∀ v, ∃ (s : State) (script : List Draw) (as : List Access), s.line = ⟨false, false⟩ ∧ s.imask = false ∧
      s.bus = script ++ [tick] ∧ SendSlot s.cfg v script as) ∧
    ∀ v, ∃ (s : State) (script : List Draw) (as : List Access), s.line = ⟨false, false⟩ ∧ s.imask = false ∧
      s.bus = script ++ [tick] ∧ RecvSlot s.cfg v script as :=
  ⟨fun v => ⟨onBus (sendSlot v ++ [tick]), _, _, rfl, rfl, rfl, sendSlot_ok v⟩,
    fun v => ⟨onBus (recvSlot v ++ [tick]), _, _, rfl, rfl, rfl, recvSlot_ok v⟩⟩

/-- TR-8 with exactly T_SLOT_LOW_MAX, TR-7 with exactly T_SLOT_HIGH_MAX. -/
def lowTail : List Draw := tick :: (held false [(200, tick)] ++ [])
def highTail : List Draw := tick :: (held false [(3, tick)] ++ ⟨0, true⟩ :: tick :: (held true [(1000, tick)] ++ []))
theorem stuckLow : StuckTail bare.cfg lowTail .readTimeslotTimeoutLow := .inl ⟨_, _, _, rfl, by decide, by decide, rfl⟩
theorem stuckHigh : StuckTail bare.cfg highTail .readTimeslotTimeoutHigh :=
  .inr ⟨_, _, _, _, _, _, rfl, ⟨by decide, trivial⟩, by decide, by decide, rfl⟩

/-- DP-8: the first slot of the command byte does not come, and its last. -/
theorem witness_PollReceivesACommand_failed : ∀ vs ∈ [[], [true, true, true, true, true, true, true]],
    ∃ (s : State) (reset presence command : List Draw) (pulse bits : List Access), s.fsm = .idle ∧ s.count ≠ 0 ∧
      AcceptedReset s.cfg reset ∧ PresenceSlot s.cfg presence pulse ∧ vs.length < 8 ∧
      Slots (RecvSlot s.cfg) vs command bits ∧ StuckTail s.cfg highTail .readTimeslotTimeoutHigh ∧
      s.bus = reset ++ presence ++ command ++ highTail :=
  fun vs hvs => ⟨{ withA with bus := fromHigh (pulseOf 500) ++ presenceDraws ++ writeBits vs ++ highTail }, _, _, _, _,
    _, (by decide : withA.fsm = .idle), (by decide : withA.count ≠ 0), reset_ok, presence_ok, by revert vs; decide, writeBits_ok _, stuckHigh, rfl⟩

/-- The first slot of the address does not come, and its last. -/
theorem witness_MatchRomSelectsByAddress_failed :
    ∀ w ∈ [([], []), ([0x28, 0x01, 0x02, 0x03, 0x04, 0x05, 0x06], [false, true, true, true, true, false, false])],
    ∃ (s : State) (script : List Draw) (as : List Access), s.line = ⟨false, false⟩ ∧
      (w.1 : List Byte).length < 8 ∧ (w.2 : List Bool).length < 8 ∧
      Slots (RecvSlot s.cfg) (bytesBits w.1 ++ w.2) script as ∧ StuckTail s.cfg lowTail .readTimeslotTimeoutLow ∧
      s.bus = script ++ lowTail :=
  fun w hw => ⟨receiving withA (writeBits (bytesBits w.1 ++ w.2) ++ lowTail), _, _, (by decide : withA.line = ⟨false, false⟩),
    by revert w; decide, by revert w; decide, writeBits_ok _, stuckLow, rfl⟩

/-- Each of the three slots of the first triplet, of the triplet at which A and B diverge, and of the last. -/
theorem witness_SearchAbortsAtAFailedSlot : ∀ p ∈ [0, 48, 63], ∀ m ≤ 2,
    ∃ (s : State) (ds : Nat → Bool) (script triplet : List Draw) (as sent : List Access), s.cfg.Valid ∧
      s.TreeCurrent ∧ p < 64 ∧ s.activeAt ds p ≠ [] ∧ s.line = ⟨false, false⟩ ∧ s.SearchSlots ds p 0 script as ∧
      Slots (SendSlot s.cfg)
        ([(s.wiredPair (s.activeAt ds p) p).1, (s.wiredPair (s.activeAt ds p) p).2].take m) triplet sent ∧
      StuckTail s.cfg highTail .readTimeslotTimeoutHigh ∧ s.bus = script ++ triplet ++ highTail := by
  intro p hp m _
  let served (script triplet : List Draw) : State := receiving withAB (script ++ triplet ++ highTail)
  have hb : ∀ x y, (served x y).slotBit = withAB.slotBit := fun _ _ => slotBit_congr (s := withAB) rfl rfl
  have ha : ∀ x y, (served x y).activeAt = withAB.activeAt := fun x y => by
    unfold State.activeAt; rw [hb x y, occupied_congr (s := withAB) (t := served x y) rfl rfl]
  have hw : ∀ x y, (served x y).wiredPair = withAB.wiredPair := fun x y => by unfold State.wiredPair; rw [hb x y]
  have hne : ∀ p ∈ [0, 48, 63], withAB.activeAt (withAB.slotBit 1) p ≠ [] := by decide +kernel
  let pair := withAB.wiredPair (withAB.activeAt (withAB.slotBit 1) p) p
  refine ⟨served (searchDraws withAB (withAB.slotBit 1) p 0) (readBits ([pair.1, pair.2].take m)), withAB.slotBit 1,
    searchDraws withAB (withAB.slotBit 1) p 0, readBits ([pair.1, pair.2].take m),
    searchAccesses withAB (withAB.slotBit 1) p 0, ([pair.1, pair.2].take m).flatMap sends,
    (by decide : withAB.cfg.Valid), TreeCurrent.congr withAB_treeCurrent rfl rfl rfl rfl rfl rfl,
    by revert p; decide, by rw [ha]; exact hne p hp, rfl,
    (SearchSlots_congr (s := withAB) (u := served _ _) rfl rfl rfl _ _ _ _ _).mpr (searchDraws_ok withAB rfl _ p 0), ?_,
    stuckHigh, rfl⟩
  rw [hw, ha]; exact readBits_ok _

theorem witness_StuckLineFailsTheBit :
    (∃ s : State, StuckTail s.cfg s.bus .readTimeslotTimeoutLow ∧ s.line = ⟨false, false⟩) ∧
    ∃ s : State, StuckTail s.cfg s.bus .readTimeslotTimeoutHigh ∧ s.line = ⟨false, false⟩ :=
  ⟨⟨onBus lowTail, stuckLow, rfl⟩, ⟨onBus highTail, stuckHigh, rfl⟩⟩

theorem witness_BytesInServedSlots :
    (∃ (s : State) (script : List Draw) (as : List Access), s.line = ⟨false, false⟩ ∧ s.bus = script ++ [] ∧
      Slots (SendSlot s.cfg) (byteBits 0xA5) script as) ∧
    ∃ (s : State) (script : List Draw) (as : List Access), s.line = ⟨false, false⟩ ∧ s.bus = script ++ [] ∧
      Slots (RecvSlot s.cfg) (byteBits 0xA5) script as :=
  ⟨⟨onBus (readBits (byteBits 0xA5) ++ []), _, _, rfl, rfl, readBits_ok _⟩,
    ⟨onBus (writeBits (byteBits 0xA5) ++ []), _, _, rfl, rfl, writeBits_ok _⟩⟩

/-- TR-12 (m = 3), m = 0 and m = 7; TR-13 with five bits served. -/
theorem witness_ByteFailsAtItsBit :
    (∀ m ∈ [0, 3, 7], ∃ (s : State) (script tail : List Draw) (served : List Access), s.line = ⟨false, false⟩ ∧
      StuckTail s.cfg tail .readTimeslotTimeoutHigh ∧ s.bus = script ++ tail ∧ m < 8 ∧
      Slots (SendSlot s.cfg) ((byteBits 0x0F).take m) script served) ∧
    ∃ (s : State) (script tail : List Draw) (served : List Access), s.line = ⟨false, false⟩ ∧
      StuckTail s.cfg tail .readTimeslotTimeoutLow ∧ s.bus = script ++ tail ∧
      [true, true, true, true, true].length < 8 ∧
      Slots (RecvSlot s.cfg) [true, true, true, true, true] script served :=
  ⟨fun m hm => ⟨onBus (readBits ((byteBits 0x0F).take m) ++ highTail), _, highTail, _, rfl, stuckHigh, rfl,
      by revert m; decide, readBits_ok _⟩,
    ⟨onBus (writeBits [true, true, true, true, true] ++ lowTail), _, lowTail, _, rfl, stuckLow, rfl, by decide,
      writeBits_ok _⟩⟩

/-- TR-14 and TR-15. -/
theorem witness_SendBufSendsItsBytes :
    (∀ s : State, s.mem = bare.mem → ∀ j < (2 : Half).toNat, s.mem.read (0x40 + j) = [(0x01 : Byte), 0x80][j]?) ∧
    [(0x01 : Byte), 0x80].length = (2 : Half).toNat ∧
    (∃ (s : State) (script : List Draw) (served : List Access), s.mem = bare.mem ∧ s.line = ⟨false, false⟩ ∧
      s.bus = script ++ [] ∧ Slots (SendSlot s.cfg) (bytesBits [0x01, 0x80]) script served) ∧
    ∃ (s : State) (script tail : List Draw) (served : List Access), s.mem = bare.mem ∧ s.line = ⟨false, false⟩ ∧
      s.bus = script ++ tail ∧ StuckTail s.cfg tail .readTimeslotTimeoutHigh ∧
      Slots (SendSlot s.cfg) (bytesBits [0x01] ++ (byteBits 0x80).take 2) script served :=
  ⟨fun s h => by rw [h]; decide, by decide,
    ⟨onBus (readBits (bytesBits [0x01, 0x80]) ++ []), _, _, rfl, rfl, rfl, readBits_ok _⟩,
    ⟨onBus (readBits (bytesBits [0x01] ++ (byteBits 0x80).take 2) ++ highTail), _, highTail, _, rfl, rfl, rfl,
      stuckHigh, readBits_ok _⟩⟩

/-- TR-17 and TR-18. -/
theorem witness_RecvBufStoresItsBytes :
    (∀ s : State, s.mem = bare.mem → ∀ j < (3 : Half).toNat, (s.mem.read (0x40 + j)).isSome) ∧
    (∃ (s : State) (script : List Draw) (served : List Access), s.mem = bare.mem ∧ s.line = ⟨false, false⟩ ∧
      s.bus = script ++ [] ∧ [(0x28 : Byte), 0x01, 0x02].length = (3 : Half).toNat ∧
      Slots (RecvSlot s.cfg) (bytesBits [0x28, 0x01, 0x02]) script served) ∧
    ∃ (s : State) (script tail : List Draw) (served : List Access), s.mem = bare.mem ∧ s.line = ⟨false, false⟩ ∧
      s.bus = script ++ tail ∧ [(0x28 : Byte)].length < (3 : Half).toNat ∧ [false, false, false, false].length < 8 ∧
      StuckTail s.cfg tail .readTimeslotTimeoutHigh ∧
      Slots (RecvSlot s.cfg) (bytesBits [0x28] ++ [false, false, false, false]) script served :=
  ⟨fun s h => by rw [h]; decide,
    ⟨onBus (writeBits (bytesBits [0x28, 0x01, 0x02]) ++ []), _, _, rfl, rfl, rfl, by decide, writeBits_ok _⟩,
    ⟨onBus (writeBits (bytesBits [0x28] ++ [false, false, false, false]) ++ highTail), _, highTail, _, rfl, rfl, rfl,
      by decide, by decide, stuckHigh, writeBits_ok _⟩⟩

theorem witness_TransportFrames : (∃ t, exec .recvBit bare = .next t) ∧ (∃ t, exec .recvByte bare = .next t) ∧
    ∃ t, exec (.recvBuf 0x40 3) bare = .next t := ⟨⟨_, rfl⟩, ⟨_, rfl⟩, ⟨_, rfl⟩⟩

/-- A range inside the buffer, and one whose last byte, at 0x43, lies outside. -/
theorem witness_BufferRangeIsChecked : (∀ j < (3 : Half).toNat, (bare.mem.read (0x40 + j)).isSome) ∧
    refusal? (.crc8 0x40 4) bare = some (.outsideBuffer 0x43) ∧ 3 < (4 : Half).toNat ∧
    bare.mem.read (0x40 + 3) = none ∧ ∀ j' < 3, (bare.mem.read (0x40 + j')).isSome := by decide

/-- What an instruction that ends in a next state leaves in the result register. -/
def result? (i : Instr) (s : State) : Option Result :=
  match exec i s with
  | .next t => t.result
  | .fault _ => none
  | .refused _ => none

theorem next_of_result {i : Instr} {s : State} {r : Result} (h : result? i s = some r) :
    ∃ t, exec i s = .next t ∧ t.result = some r := by
  unfold result? at h
  cases he : exec i s with
  | next t => rw [he] at h; exact ⟨t, rfl, h⟩
  | fault f => rw [he] at h; cases h
  | refused f => rw [he] at h; cases h

/-- A SEND_BUF and a RECV_BUF that count two bytes. -/
theorem witness_BufferRangeIsChecked_count :
    (∃ s t : State, exec (.sendBuf 0x40 2) s = .next t ∧ t.result = some (.count 2)) ∧
    ∃ s t : State, exec (.recvBuf 0x40 2) s = .next t ∧ t.result = some (.count 2) :=
  ⟨⟨onBus (readBits (bytesBits [0x01, 0x80])), next_of_result (by decide +kernel)⟩,
    ⟨onBus (writeBits (bytesBits [0x01, 0x80])), next_of_result (by decide +kernel)⟩⟩

/-- The first byte outside the buffer is the first of the range, and its fourth. -/
theorem witness_BufferRangeIsChecked_outside : ∀ w ∈ [(0x50, []), (0x40, [(0x01 : Byte), 0x80, 0x33])],
    w.2.length < (4 : Half).toNat ∧ bare.mem.read (w.1 + w.2.length) = none ∧
    (∀ j < w.2.length, bare.mem.read (w.1 + j) = w.2[j]?) ∧
    (∃ (s : State) (script : List Draw) (as : List Access), s.mem = bare.mem ∧ s.line = ⟨false, false⟩ ∧
      s.bus = script ++ [tick] ∧ Slots (SendSlot s.cfg) (bytesBits w.2) script as) ∧
    ∃ (s : State) (script : List Draw) (as : List Access), s.mem = bare.mem ∧ s.line = ⟨false, false⟩ ∧
      s.bus = script ++ [tick] ∧ Slots (RecvSlot s.cfg) (bytesBits (w.2 ++ [0x28])) script as :=
  fun w hw => ⟨by revert w; decide, by revert w; decide, by revert w; decide,
    ⟨onBus (readBits (bytesBits w.2) ++ [tick]), _, _, rfl, rfl, rfl, readBits_ok _⟩,
    ⟨onBus (writeBits (bytesBits (w.2 ++ [0x28])) ++ [tick]), _, _, rfl, rfl, rfl, writeBits_ok _⟩⟩

theorem witness_CrcAndIdentOperations : [(0x01 : Byte), 0x80].length = (2 : Half).toNat ∧
    ∀ j < (2 : Half).toNat, bare.mem.read (0x40 + j) = [(0x01 : Byte), 0x80][j]? := by decide

theorem witness_MadeIdentifiersAreValid : ∃ t, exec (.makeId 0x28 #v[1, 2, 3, 4, 5, 6]) bare = .next t := ⟨_, rfl⟩

theorem witness_TreeNodeCounts : withAB.cfg.Valid ∧ withAB.occupied ≠ [] := by decide

/-- The root and the last allocated node. -/
theorem witness_TreeShape : withAB.cfg.Valid ∧ 0 < (build withAB).treeNext.toNat ∧ 2 < (build withAB).treeNext.toNat := by
  decide

theorem witness_TreeLeadsToEachIdentifier : withAB.cfg.Valid ∧ withAB.TreeCurrent ∧ 0 ∈ withAB.occupied ∧
    1 ∈ withAB.occupied := ⟨by decide, withAB_treeCurrent, by decide, by decide⟩

/-- A table with another device that has A's identifier. -/
theorem witness_TreeIsDeterministic : (after (.attach 14) bare).cfg.nMax = withA.cfg.nMax ∧
    (after (.attach 14) bare).occupied = withA.occupied ∧
    ∀ i ∈ withA.occupied, ∀ p < 64, (after (.attach 14) bare).slotBit i p = withA.slotBit i p := by decide

theorem witness_SmallTrees : bare.occupied = [] ∧ withA.cfg.Valid ∧ withA.occupied = [0] := by decide

/-- ST-3 or ST-6; a full table; and slot 2 free. -/
theorem witness_AttachTakesTheLowestFreeSlot : withAB.fsm = .idle ∧
    (1 < withAB.cfg.nMax ∧ withAB.slotAt 1 = some 11 ∧ ∀ j < 1, withAB.slotAt j ≠ some 11) ∧
    (withABCD.fsm = .idle ∧ ∀ i < withABCD.cfg.nMax, withABCD.slotAt i ≠ some 14 ∧ withABCD.slotAt i ≠ none) ∧
    (2 < withAB.cfg.nMax ∧ (∀ j < withAB.cfg.nMax, withAB.slotAt j ≠ some 12) ∧ withAB.slotAt 2 = none ∧
      ∀ j < 2, withAB.slotAt j ≠ none) := by decide

theorem witness_DetachEmptiesTheSlot : withAB.fsm = .idle ∧
    (1 < withAB.cfg.nMax ∧ withAB.cfg.nMax ≤ 127 ∧ withAB.slotAt 1 = some 11 ∧ ∀ j < 1, withAB.slotAt j ≠ some 11) ∧
    (∀ i < withAB.cfg.nMax, withAB.slotAt i ≠ some 12) ∧ withAB.cfg.nMax ≤ (4 : Byte).toNat ∧
    withAB.slotAt (2 : Byte).toNat = none := by decide

theorem witness_InspectionReadsTheState : (3 : Byte).toNat < withAB.cfg.nMax ∧ withAB.cfg.nMax ≤ (4 : Byte).toNat := by
  decide

theorem witness_OnlyTableOperationsChangeTheTree : (∃ t, exec .getCount withAB = .next t) ∧
    (∀ h, Instr.getCount ≠ .attach h) ∧ (∀ h, Instr.getCount ≠ .detachDev h) ∧ (∀ j, Instr.getCount ≠ .detachSlot j) ∧
    (∃ t, exec (.attach 12) withAB = .next t) ∧ withAB.TreeCurrent :=
  ⟨⟨_, rfl⟩, by simp, by simp, by simp, ⟨_, rfl⟩, withAB_treeCurrent⟩

theorem witness_WhoWritesSel : ∃ s t : State, s.cfg.Valid ∧ exec (.detachSlot 1) s = .next t ∧ t.sel ≠ s.sel :=
  ⟨{ withAB with sel := 1 }, _, by decide, rfl, by decide⟩

/-- A POLL that writes SEL. -/
theorem witness_WhoWritesSel_poll : ∃ s t : State, s.cfg.Valid ∧ exec .poll s = .next t ∧ t.sel ≠ s.sel :=
  ⟨{ withA with sel := 0, bus := rst }, _, by decide, rfl, by decide +kernel⟩

theorem witness_StepLeavesTheHostsDataAlone : (∃ t, step withAB = .next t) ∧ (∃ t, exec .recvByte withAB = .next t) ∧
    ∀ addr len, Instr.recvByte ≠ .recvBuf addr len := ⟨⟨_, rfl⟩, ⟨_, rfl⟩, by simp⟩

theorem witness_OperationsReleaseTheLine : (∃ t, exec (.sendBit false) bare = .next t) ∧
    bare.line = ⟨false, false⟩ ∧ bare.imask = false := ⟨⟨_, rfl⟩, by decide, by decide⟩

theorem witness_FsmFollowsItsTable : (∃ s t : State, s.fsm = .idle ∧ step s = .next t) ∧
    (∃ s t : State, s.fsm = .commandReceive ∧ step s = .next t) ∧ ∃ s t : State, s.fsm = .duty ∧ step s = .next t :=
  ⟨⟨bare, _, rfl, rfl⟩, ⟨receiving withA [], _, rfl, rfl⟩,
    ⟨{ withA with sel := 0, fsm := .duty, duties := [(10, [.ret])] }, _, rfl, rfl⟩⟩

/-- A state with the invariant in which a request is refused. -/
theorem witness_StopsAreNamed : ∃ s : State, s.Inv ∧ step s = .refused (.noSuchSlot 4) :=
  ⟨_, Inv.setHost withAB_inv [[0x09, 4]], rfl⟩

/-- A state with the invariant in which a duty never returns. -/
theorem witness_StopsAreNamed_fault : ∃ s : State, s.Inv ∧ step s = .fault .dutyNeverReturns :=
  ⟨{ withAB with sel := 1, fsm := .duty }, Inv.after withAB_inv (.of_eq rfl rfl rfl) rfl rfl rfl rfl rfl rfl rfl
    (by decide) (.inr rfl) (.inr (.inr ⟨rfl, by decide, rfl⟩)), rfl⟩

theorem witness_WaitsEnd : ∃ s : State, s.line.dir = false ∧ ∃ d rest, s.bus = d :: rest ∧ d.level = false :=
  ⟨{ bare with bus := [⟨5, false⟩] }, rfl, ⟨5, false⟩, [], rfl, rfl⟩

end Sys2Proof.Machine.Tests
end

section
/-! Which instruction a step runs (00_scope R16, R17): one equation of `fetch` for each place a step is taken from, and
the step that follows from it. -/

namespace Sys2Proof.Machine

/-! ### The fetch, by FSM state and by what its stream holds -/

theorem fetchRequest_ok {request : List Nat} {i : Instr} (hd : decode .host request = .ok i) (s : State) :
    fetchRequest request s = .instr i s := by
  simp only [fetchRequest, hd]

theorem fetch_idle_request {s : State} {request : List Nat} {rest : List (List Nat)} (hf : s.fsm = .idle)
    (hr : s.running = false) (hh : s.host = request :: rest) : fetch s = fetchRequest request (s.setHost rest) := by
  simp [fetch, hf, hr, hh]

theorem fetch_idle_noRequest {s : State} (hf : s.fsm = .idle) (hr : s.running = false) (hh : s.host = []) :
    fetch s = .waiting := by
  simp [fetch, hf, hr, hh]

theorem fetch_idle_running {s : State} (hf : s.fsm = .idle) (hr : s.running = true) : fetch s = .instr .run s := by
  simp [fetch, hf, hr]

theorem fetch_commandReceive {s : State} (hf : s.fsm = .commandReceive) :
    fetch s = .instr (decodeRom s.tshift) s := by
  simp only [fetch, hf]

theorem fetch_duty_call {s : State} {request : List Nat} {rest : List DutyAct} (hf : s.fsm = .duty)
    (ha : s.dutyActs = .call request :: rest) : fetch s = fetchRequest request (popDuty s) := by
  simp only [fetch, hf, ha]

theorem fetch_duty_ret {s : State} {rest : List DutyAct} (hf : s.fsm = .duty) (ha : s.dutyActs = .ret :: rest) :
    fetch s = .dutyReturns (popDuty s) := by
  simp only [fetch, hf, ha]

theorem fetch_duty_stuck {s : State} (hf : s.fsm = .duty) (ha : s.dutyActs = []) : fetch s = .dutyStuck := by
  simp only [fetch, hf, ha]

/-! ### The step that follows a fetch -/

theorem step_of_fetch_instr {s t : State} {i : Instr} (h : fetch s = .instr i t) : step s = exec i t := by
  simp only [step, h]

theorem step_of_fetch_waiting {s : State} (h : fetch s = .waiting) : step s = .next s := by
  simp only [step, h]

theorem step_of_fetch_dutyReturns {s t : State} (h : fetch s = .dutyReturns t) : step s = .next (dutyReturn t) := by
  simp only [step, h]

theorem step_of_fetch_dutyStuck {s : State} (h : fetch s = .dutyStuck) : step s = .fault .dutyNeverReturns := by
  simp only [step, h]

/-- Taking an act off the running duty leaves the acts that followed it. -/
theorem popDuty_dutyActs_of_cons {s : State} {act : DutyAct} {rest : List DutyAct} (ha : s.dutyActs = act :: rest) :
    (popDuty s).dutyActs = rest := by
  rw [popDuty_dutyActs, ha, List.tail_cons]

/-- Settles O6: the equation of `fetch` for each stream in turn gives the step. In CommandReceive the received byte decodes
to `decodeRom` of it on the bus stream, so it has no other decoding. -/
theorem stepRunsTheDecodedInstruction : Obligations.StepRunsTheDecodedInstruction := by
  refine ⟨?hostRequest, ?noRequest, ?run, ?command, ?dutyCall, ?dutyReturn, ?dutyStuck⟩
  case hostRequest =>
    intro s request rest i hf hr hh hd
    exact step_of_fetch_instr ((fetch_idle_request hf hr hh).trans (fetchRequest_ok hd _))
  case noRequest => exact fun s hf hr hh => step_of_fetch_waiting (fetch_idle_noRequest hf hr hh)
  case run => exact fun s hf hr => step_of_fetch_instr (fetch_idle_running hf hr)
  case command =>
    intro s i hf hd
    have hi : decodeRom s.tshift = i := Except.ok.inj ((decode_bus s.tshift).symm.trans hd)
    exact hi ▸ step_of_fetch_instr (fetch_commandReceive hf)
  case dutyCall =>
    intro s request rest i hf ha hd
    exact ⟨step_of_fetch_instr ((fetch_duty_call hf ha).trans (fetchRequest_ok hd _)), popDuty_dutyActs_of_cons ha⟩
  case dutyReturn =>
    exact fun s rest hf ha => ⟨step_of_fetch_dutyReturns (fetch_duty_ret hf ha), popDuty_dutyActs_of_cons ha⟩
  case dutyStuck => exact fun s hf ha => step_of_fetch_dutyStuck (fetch_duty_stuck hf ha)

end Sys2Proof.Machine
end

section
/-! What an instruction can do to the state of the core (10_state R32 to R46): one inversion of `exec` by the kind of
operation, and from it who writes SEL, what no step writes, and that the invariant is kept. -/

namespace Sys2Proof.Machine

/-! ### What most operations leave alone -/

/-- `t` has the parameters, the slot table, the tree, the device identifiers and the buffers of `s`. -/
structure KeepsTable (s t : State) : Prop where
  cfg : t.cfg = s.cfg
  slots : t.slots = s.slots
  count : t.count = s.count
  devices : t.devices = s.devices
  treeRoot : t.treeRoot = s.treeRoot
  tree : t.tree = s.tree
  treeNext : t.treeNext = s.treeNext
  mem : t.mem = s.mem

theorem TransportOnly.keepsTable {s t : State} (h : TransportOnly s t) : KeepsTable s t :=
  ⟨h.cfg, h.slots, h.count, h.devices, h.treeRoot, h.tree, h.treeNext, h.mem⟩

theorem PollOnly.keepsTable {s t : State} (h : PollOnly s t) : KeepsTable s t := by
  obtain ⟨_, _, _, _, _, _, _, _, _, _, _, _, rfl⟩ := h
  exact ⟨rfl, rfl, rfl, rfl, rfl, rfl, rfl, rfl⟩

theorem SearchOnly.keepsTable {s t : State} (h : SearchOnly s t) : KeepsTable s t := by
  obtain ⟨u, _, _, _, _, hu, rfl⟩ := h
  exact { hu.keepsTable with }

theorem MatchOnly.keepsTable {s t : State} (h : MatchOnly s t) : KeepsTable s t := by
  obtain ⟨u, _, hu, rfl⟩ := h
  exact { hu.keepsTable with }

theorem Orderly.ret {s t : State} (h : Orderly s t) (r : Result) : Orderly s (t.ret r) :=
  h.trans (.of_eq rfl rfl rfl)

/-! ### POLL on every table (R251, R252) -/

theorem pollBody_poll (s : State) : PollOnly s (pollBody s) := by
  by_cases hc : s.count = 0
  · rw [pollBody_noDevices s hc]
    exact (setErr_poll _ s).trans (returnPoll_poll _ _ _)
  · exact (pollBody_cases s hc).1

theorem pollBody_orderly (s : State) : Orderly s (pollBody s) := by
  by_cases hc : s.count = 0
  · rw [pollBody_noDevices s hc]
    exact .of_eq (by simp) (by simp) (by simp)
  · exact (pollBody_cases s hc).2.1

/-! ### The slot table operations, taken apart (46_slot_table R281 to R283) -/

theorem whenIdle_eq_next {s u t : State} (h : whenIdle s u = .next t) : s.fsm = .idle ∧ t = u := by
  unfold whenIdle at h
  split at h
  · next hf => cases h; exact ⟨hf, rfl⟩
  · cases h

/-- ATTACH only answers, or it fills the lowest free slot. -/
theorem attachBody_cases (h : Handle) (s : State) : (∃ r, attachBody h s = s.ret r) ∨
    ∃ j, s.slotOf h = none ∧ s.freeSlot = some j ∧ attachBody h s =
      (build ((s.setSlot j (some h)).setCount (s.count + 1))).ret (.byte (BitVec.ofNat 8 j)) := by
  unfold attachBody
  cases hn : s.slotOf h with
  | some i => exact .inl ⟨_, rfl⟩
  | none =>
    cases hj : s.freeSlot with
    | none => exact .inl ⟨_, rfl⟩
    | some j => exact .inr ⟨j, rfl, rfl, rfl⟩

/-- DETACH_DEV only answers, or it empties an occupied slot. -/
theorem detachDevBody_cases (h : Handle) (s : State) : (∃ r, detachDevBody h s = s.ret r) ∨
    ∃ j, j < s.cfg.nMax ∧ s.Occupied j ∧ detachDevBody h s = (emptySlot j s).ret (.byte detachOk) := by
  unfold detachDevBody
  cases hj : s.slotOf h with
  | none => exact .inl ⟨_, rfl⟩
  | some j =>
    obtain ⟨hlt, hat⟩ := slotOf_eq_some hj
    exact .inr ⟨j, hlt, by unfold State.Occupied; rw [hat]; rfl, rfl⟩

/-- DETACH_SLOT only answers, or it empties the occupied slot it names. -/
theorem detachSlotBody_cases (i : Byte) (s : State) : (∃ r, detachSlotBody i s = s.ret r) ∨
    ∃ j, j < s.cfg.nMax ∧ s.Occupied j ∧ detachSlotBody i s = (emptySlot j s).ret (.byte detachOk) := by
  unfold detachSlotBody
  split
  · exact .inl ⟨_, rfl⟩
  · next h =>
    rw [not_or, Nat.not_le] at h
    exact .inr ⟨i.toNat, h.1, Option.isSome_iff_ne_none.mpr h.2, rfl⟩

/-! ### The inversion of `exec` -/

/-- What an instruction that answers a next state has done, by kind of operation. -/
inductive ExecDid (s : State) : Instr → State → Prop where
  /-- It has at most used the transport, and returned: transport but RECV_BUF, CRCs, inspection, and an ATTACH or DETACH
  that finds nothing to do. -/
  | operated {i : Instr} {u : State} (r : Result) (hi : i.stream = .host) (hu : TransportOnly s u)
      (ho : Orderly s u) : ExecDid s i (u.ret r)
  | received {addr : Nat} {len : Half} {r : Nat × State} (h : recvBytes addr len.toNat 0 s = .ok r) :
      ExecDid s (.recvBuf addr len) (r.2.ret (.count (BitVec.ofNat 16 r.1)))
  | attached {h : Handle} {j : Nat} (hf : s.fsm = .idle) (hn : s.slotOf h = none) (hj : s.freeSlot = some j) :
      ExecDid s (.attach h)
        ((build ((s.setSlot j (some h)).setCount (s.count + 1))).ret (.byte (BitVec.ofNat 8 j)))
  | detached {i : Instr} {j : Nat} (hi : (∃ h, i = .detachDev h) ∨ ∃ k, i = .detachSlot k) (hf : s.fsm = .idle)
      (hj : j < s.cfg.nMax) (ho : s.Occupied j) : ExecDid s i ((emptySlot j s).ret (.byte detachOk))
  | polled (hf : s.fsm = .idle) : ExecDid s .poll (pollBody s)
  | ran (hf : s.fsm = .idle) : ExecDid s .run (pollBody (s.setRunning true))
  | searched {t : State} (h : execSearchRom s = .next t) : ExecDid s .searchRom t
  | matched {t : State} (h : execMatchRom s = .next t) : ExecDid s .matchRom t
  | skipped : ExecDid s .skipRom (finishPoll .skipped false ((goto .skipRom s).setSel noneByte))
  /-- READ_ROM, READ_ROM_LEGACY and UNRECOGNIZED. -/
  | ignored {i : Instr} (st : Fsm) (hi : i.stream = .bus) :
      ExecDid s i (finishPoll .unrecognized false (goto st s))

theorem ExecDid.answered {i : Instr} {s : State} (hi : i.stream = .host) (r : Result) : ExecDid s i (s.ret r) :=
  .operated r hi (.refl s) (.refl s)

theorem exec_cases {i : Instr} {s t : State} (h : exec i s = .next t) : ExecDid s i t := by
  cases i with
  | searchRom => exact .searched h
  | matchRom => exact .matched h
  | skipRom => cases h; exact .skipped
  | readRom => cases h; exact .ignored _ rfl
  | readRomLegacy => cases h; exact .ignored _ rfl
  | unrecognized => cases h; exact .ignored _ rfl
  | attach d =>
    obtain ⟨hf, rfl⟩ := whenIdle_eq_next h
    rcases attachBody_cases d s with ⟨r, e⟩ | ⟨j, hn, hj, e⟩ <;> rw [e]
    · exact .answered rfl r
    · exact .attached hf hn hj
  | detachDev d =>
    obtain ⟨hf, rfl⟩ := whenIdle_eq_next h
    rcases detachDevBody_cases d s with ⟨r, e⟩ | ⟨j, hj, ho, e⟩ <;> rw [e]
    · exact .answered rfl r
    · exact .detached (.inl ⟨d, rfl⟩) hf hj ho
  | detachSlot k =>
    obtain ⟨hf, rfl⟩ := whenIdle_eq_next h
    rcases detachSlotBody_cases k s with ⟨r, e⟩ | ⟨j, hj, ho, e⟩ <;> rw [e]
    · exact .answered rfl r
    · exact .detached (.inr ⟨k, rfl⟩) hf hj ho
  | poll => obtain ⟨hf, rfl⟩ := whenIdle_eq_next h; exact .polled hf
  | run => obtain ⟨hf, rfl⟩ := whenIdle_eq_next h; exact .ran hf
  | getError => cases h; exact .answered rfl _
  | getSelected => cases h; exact .answered rfl _
  | getCount => cases h; exact .answered rfl _
  | getSlot j =>
    simp only [exec, execGetSlot] at h
    split at h
    · cases h; exact .answered rfl _
    · cases h
  | sendBit v => cases h; exact .operated _ rfl (sendBit_frame v s).transport (sendBit_tidy v s).toOrderly
  | recvBit => cases h; exact .operated _ rfl (recvBit_frame s).transport (recvBit_tidy s).toOrderly
  | sendByte b => cases h; exact .operated _ rfl (sendByte_frame b s) (sendByte_tidy b s).toOrderly
  | recvByte => cases h; exact .operated _ rfl (recvByte_frame s) (recvByte_tidy s).toOrderly
  | sendBuf addr len =>
    simp only [exec, execSendBuf] at h
    split at h
    · next hr => cases h; exact .operated _ rfl (sendBytes_frame hr) (sendBytes_tidy hr).toOrderly
    · cases h
  | recvBuf addr len =>
    simp only [exec, execRecvBuf] at h
    split at h
    · next hr => cases h; exact .received hr
    · cases h
  | crc8 addr len =>
    simp only [exec, execCrc8] at h
    split at h
    · cases h; exact .answered rfl _
    · cases h
  | crc16 addr len =>
    simp only [exec, execCrc16] at h
    split at h
    · cases h; exact .answered rfl _
    · cases h
  | makeId => cases h; exact .answered rfl _

/-! ### The line and the host interrupt mask (R43, 42_bus_handshake R182, R183) -/

theorem exec_orderly {i : Instr} {s t : State} (h : exec i s = .next t) : Orderly s t := by
  cases exec_cases h with
  | operated r _ _ ho => exact ho.ret r
  | received hr => exact (recvBytes_tidy hr).toOrderly.ret _
  | attached => exact .of_eq rfl rfl rfl
  | detached => exact .of_eq rfl rfl rfl
  | polled => exact pollBody_orderly s
  | ran =>
    have hr : Orderly s (s.setRunning true) := .of_eq rfl rfl rfl
    exact hr.trans (pollBody_orderly _)
  | searched h =>
    obtain ⟨_, e, -, ho, -⟩ := execSearchRom_cases s
    cases h.symm.trans e
    exact ho
  | matched h =>
    obtain ⟨_, e, -, ho, -⟩ := execMatchRom_cases s
    cases h.symm.trans e
    exact ho
  | skipped => exact ((goto_orderly _ s).trans (setSel_orderly _ _)).trans (finishPoll_orderly _ _ _)
  | ignored => exact (goto_orderly _ s).trans (finishPoll_orderly _ _ _)

/-- Settles O55: `Orderly` is what every part of an operation keeps, and the statement is `Orderly` written out. -/
theorem operationsReleaseTheLine : Obligations.OperationsReleaseTheLine := by
  intro i s t h hl hm
  obtain ⟨⟨es, htr, hes⟩, hline, hmask⟩ := exec_orderly h
  exact ⟨hline hl, hmask hm, es, htr, fun time masked a he => hes _ he time masked a rfl⟩

/-! ### What no instruction writes (R44, 20_memory R80, R82, R85) -/

theorem execSearchRom_keepsTable {s t : State} (h : execSearchRom s = .next t) : KeepsTable s t := by
  obtain ⟨_, e, hs, -⟩ := execSearchRom_cases s
  cases h.symm.trans e
  exact hs.keepsTable

theorem execMatchRom_keepsTable {s t : State} (h : execMatchRom s = .next t) : KeepsTable s t := by
  obtain ⟨_, e, hs, -⟩ := execMatchRom_cases s
  cases h.symm.trans e
  exact hs.keepsTable

theorem exec_cfg_devices {i : Instr} {s t : State} (h : exec i s = .next t) :
    t.cfg = s.cfg ∧ t.devices = s.devices := by
  cases exec_cases h with
  | operated _ _ hu => exact ⟨hu.cfg, hu.devices⟩
  | received hr => exact ⟨(recvBytes_frame hr).cfg, (recvBytes_frame hr).devices⟩
  | attached => exact ⟨rfl, rfl⟩
  | detached => exact ⟨rfl, rfl⟩
  | polled => exact ⟨(pollBody_poll s).cfg, (pollBody_poll s).keepsTable.devices⟩
  | ran => exact ⟨(pollBody_poll (s.setRunning true)).cfg, (pollBody_poll (s.setRunning true)).keepsTable.devices⟩
  | searched h => exact ⟨(execSearchRom_keepsTable h).cfg, (execSearchRom_keepsTable h).devices⟩
  | matched h => exact ⟨(execMatchRom_keepsTable h).cfg, (execMatchRom_keepsTable h).devices⟩
  | skipped => simp
  | ignored => simp

theorem exec_mem {i : Instr} {s t : State} (h : exec i s = .next t) (hi : ∀ addr len, i ≠ .recvBuf addr len) :
    t.mem = s.mem := by
  cases exec_cases h with
  | operated _ _ hu => exact hu.mem
  | received => exact absurd rfl (hi _ _)
  | attached => rfl
  | detached => rfl
  | polled => exact (pollBody_poll s).keepsTable.mem
  | ran => exact (pollBody_poll (s.setRunning true)).keepsTable.mem
  | searched h => exact (execSearchRom_keepsTable h).mem
  | matched h => exact (execMatchRom_keepsTable h).mem
  | skipped => simp
  | ignored => simp

/-- Settles O54: taking an instruction from its stream and the return of a duty write none of these fields either. -/
theorem stepLeavesTheHostsDataAlone : Obligations.StepLeavesTheHostsDataAlone := by
  refine ⟨fun s t h => ?_, fun i s t => exec_mem⟩
  cases step_cases h with
  | waited _ _ _ ht => rw [ht]; exact ⟨rfl, rfl⟩
  | polled _ _ ht => exact exec_cfg_devices ht
  | request _ _ rest _ _ _ _ ht => exact exec_cfg_devices (s := s.setHost rest) ht
  | command _ ht => exact exec_cfg_devices ht
  | called _ _ _ _ _ _ ht => exact exec_cfg_devices (s := popDuty s) ht
  | returned _ _ _ ht => rw [ht]; exact ⟨finishPoll_cfg _ _ _, finishPoll_devices _ _ _⟩

/-! ### SEL (R35) -/

theorem toNat_ofNat_slot {c : Config} (hc : c.Valid) {i : Nat} (hi : i < c.nMax) :
    (BitVec.ofNat 8 i).toNat = i := by
  have := hc.2.1
  rw [BitVec.toNat_ofNat, Nat.mod_eq_of_lt (by omega)]

/-- SEARCH_ROM completes and selects the walk's representative, or it aborts and leaves SEL alone (R236, R305). -/
theorem execSearchRom_sel {s t : State} (h : execSearchRom s = .next t) :
    (∃ u, walkSteps 64 (walkStart (goto .search s)) = .done () u ∧ t.sel = u.wrep ∧ t.wrep = u.wrep ∧
      t.fsm = .idle ∧ t.result = s.pollResult 0x83) ∨ (t.sel = s.sel ∧ t.fsm = .idle) := by
  obtain ⟨hdone, habort⟩ := walkSteps_frame 64 (walkStart (goto .search s))
  unfold execSearchRom searchWalk at h
  cases hw : walkSteps 64 (walkStart (goto .search s)) with
  | done a u =>
    rw [hw] at h
    cases h
    have hf := hdone u hw
    have hres := finishPoll_pollResult (t := u.setSel u.wrep) hf.running hf.result .searchDone true
    exact .inl ⟨u, rfl, by simp, by simp, by simp, hres⟩
  | abort code u =>
    rw [hw] at h
    cases h
    exact .inr ⟨(raiseAbort_sel _ _ u).trans (habort code u hw).sel, raiseAbort_fsm _ _ u⟩

/-- MATCH_ROM selects an occupied slot and starts its duty, or it aborts and leaves SEL alone (R258, R305). -/
theorem execMatchRom_sel {s t : State} (hc : s.cfg.Valid) (h : execMatchRom s = .next t) :
    (t.fsm = .duty ∧ s.Occupied t.sel.toNat) ∨ (t.sel = s.sel ∧ t.fsm = .idle) := by
  obtain ⟨_, e, -, -, ⟨u, i, -, hm, ht, -, ha, -⟩ | ⟨code, u, ht, hs, -⟩⟩ := execMatchRom_cases s
  all_goals cases h.symm.trans e; subst ht
  · obtain ⟨hi, hmatch⟩ := matchedSlot_eq_some hm
    have hsel : (goto .duty (u.setSel (BitVec.ofNat 8 i))).sel.toNat = i :=
      toNat_ofNat_slot hc (lt_of_lt_of_eq hi (congrArg Config.nMax ha.cfg))
    refine .inl ⟨rfl, ?_⟩
    rw [hsel]
    have hocc := matchesAddress_occupied hmatch
    unfold State.Occupied at hocc ⊢
    rwa [slotAt_congr ha.slots] at hocc
  · exact .inr ⟨by simpa using hs, by simp⟩

theorem emptySlot_slotAt_self {s : State} {i : Nat} (ho : s.Occupied i) : (emptySlot i s).slotAt i = none :=
  (slotAt_setSlot s i i none (occupied_lt_length ho)).trans (if_pos rfl)

theorem emptySlot_sel (s : State) (i : Nat) :
    (emptySlot i s).sel = if s.sel = BitVec.ofNat 8 i then noneByte else s.sel := rfl

/-- Settles O53: of the kinds of operation only these can change SEL, each as its own lemma says. -/
theorem whoWritesSel : Obligations.WhoWritesSel := by
  refine ⟨fun s code reinit => raiseAbort_sel code reinit s, fun i s t hc h hne => ?_⟩
  cases exec_cases h with
  | operated _ _ hu => exact absurd hu.sel hne
  | received hr => exact absurd (recvBytes_frame hr).sel hne
  | attached => exact absurd rfl hne
  | @detached _ j hi _ hj ho =>
    have hsel : s.sel = BitVec.ofNat 8 j := by
      by_contra hs
      exact hne ((emptySlot_sel s j).trans (if_neg hs))
    have hempty : (emptySlot j s).slotAt j = none := emptySlot_slotAt_self ho
    refine .inr (.inr (.inr (.inr ⟨hi, (emptySlot_sel s j).trans (if_pos hsel), ?_⟩)))
    rw [hsel, toNat_ofNat_slot hc hj]
    exact hempty
  | polled =>
    obtain ⟨hsel, htrace⟩ := pollBody_sel s hne
    exact .inl ⟨.inl rfl, hsel, htrace⟩
  | ran =>
    obtain ⟨hsel, htrace⟩ := pollBody_sel (s.setRunning true) hne
    exact .inl ⟨.inr rfl, hsel, htrace⟩
  | searched h =>
    obtain ⟨u, -, hsel, hwrep, hidle, hres⟩ | ⟨hsel, -⟩ := execSearchRom_sel h
    · exact .inr (.inr (.inr (.inl ⟨rfl, hidle, hres, hsel.trans hwrep.symm⟩)))
    · exact absurd hsel hne
  | matched h =>
    obtain hd | ⟨hsel, -⟩ := execMatchRom_sel hc h
    · exact .inr (.inr (.inl ⟨rfl, hd⟩))
    · exact absurd hsel hne
  | skipped => exact .inr (.inl ⟨rfl, finishPoll_sel _ _ _⟩)
  | ignored => exact absurd (finishPoll_sel _ _ _) hne

/-! ### The invariant -/

/-- `Inv.after` for what keeps the table. -/
theorem KeepsTable.inv {s t : State} (hk : KeepsTable s t) (h : s.Inv) (ho : Orderly s t)
    (hs : t.sel = noneByte ∨ s.Occupied t.sel.toNat)
    (hb : t.fsm = .idle ∨ (t.fsm = .commandReceive ∧ t.tbit = 8 ∧ s.count ≠ 0 ∧ t.sel = noneByte) ∨
      (t.fsm = .duty ∧ s.count ≠ 0 ∧ s.Occupied t.sel.toNat)) : t.Inv :=
  Inv.after h ho hk.cfg hk.slots hk.count hk.devices hk.treeRoot hk.tree hk.treeNext (hk.mem ▸ h.memWf) hs hb

/-- The end of a transaction keeps the invariant. -/
theorem finishPoll_inv {s : State} (h : s.Inv) (oc : PollOutcome) (reinit : Bool) : (finishPoll oc reinit s).Inv :=
  (finishPoll_poll _ _ _).keepsTable.inv h (finishPoll_orderly _ _ _) (by simpa using h.selOccupied)
    (.inl (finishPoll_fsm _ _ _))

theorem pollBody_inv {s : State} (h : s.Inv) (hf : s.fsm = .idle) : (pollBody s).Inv := by
  refine (pollBody_poll s).keepsTable.inv h (pollBody_orderly s) ?sel ?fsm
  case sel =>
    by_cases hsel : (pollBody s).sel = s.sel
    · rw [hsel]; exact h.selOccupied
    · exact .inl (pollBody_sel s hsel).1
  case fsm =>
    by_cases hc : s.count = 0
    · rw [pollBody_noDevices s hc]
      exact .inl (by simpa using hf)
    · obtain ⟨-, -, ⟨hidle, -⟩ | ⟨hcmd, -, hsel, hbit, -⟩ | ⟨hidle, -⟩⟩ := pollBody_cases s hc
      · exact .inl hidle
      · exact .inr (.inl ⟨hcmd, hbit, hc, hsel⟩)
      · exact .inl hidle

/-- A write of slot j, with the COUNT and the SEL that go with it, and the build after it (R36, R96). -/
theorem build_inv {s : State} (h : s.Inv) (hf : s.fsm = .idle) {j : Nat} {d : Option Handle} {c v : Byte}
    (hd : (s.setSlot j d).SlotsDistinct) (hc : c.toNat = (s.setSlot j d).occupied.length)
    (hl : (s.setSlot j d).slots.length = s.cfg.nMax) (hv : v = noneByte ∨ (s.setSlot j d).Occupied v.toNat) :
    (build (((s.setSlot j d).setCount c).setSel v)).Inv where
  cfgValid := h.cfgValid
  slotsLength := hl
  slotsDistinct := hd
  countOccupied := hc
  treeCurrent := build_treeCurrent _
  selOccupied := hv
  released := h.released
  unmasked := h.unmasked
  boundary := .inl hf
  busyHasDevice := fun hn => absurd hf hn
  commandUnselected := fun hn => nomatch hf.symm.trans hn
  dutySelected := fun hn => nomatch hf.symm.trans hn
  memWf := h.memWf
  accessesMasked := h.accessesMasked

/-- The fill of a free slot (R281): SEL stays, and what it names is still attached. -/
theorem fillSlot_inv {s : State} (h : s.Inv) (hf : s.fsm = .idle) {d : Handle} {j : Nat} (hn : s.slotOf d = none)
    (hj : s.freeSlot = some j) : (build ((s.setSlot j (some d)).setCount (s.count + 1))).Inv := by
  obtain ⟨hdist, hcount, hlen⟩ := fill_keeps h hj hn
  refine build_inv h hf (v := s.sel) hdist hcount hlen (h.selOccupied.imp_right fun ho => ?_)
  have hlt : j < s.slots.length := h.slotsLength ▸ (freeSlot_eq_some hj).1
  unfold State.Occupied
  rw [slotAt_setSlot s j _ _ hlt]
  split
  · rfl
  · exact ho

/-- The emptying of an occupied slot (R282, R283): SEL names another one, or becomes none. -/
theorem emptySlot_inv {s : State} (h : s.Inv) (hf : s.fsm = .idle) {j : Nat} (hj : j < s.cfg.nMax)
    (ho : s.Occupied j) : (emptySlot j s).Inv := by
  obtain ⟨hdist, hcount, hlen⟩ := empty_keeps h hj ho
  refine build_inv h hf hdist hcount hlen ?_
  split
  · exact .inl rfl
  · next hne =>
    have hk : s.sel.toNat ≠ j := fun he => hne (by rw [← he, BitVec.ofNat_toNat, BitVec.setWidth_eq])
    refine h.selOccupied.imp_right fun hs => ?_
    unfold State.Occupied
    rwa [slotAt_setSlot_ne s none hk]

/-- A walk over a current tree that completes has an attached device for representative (R236). -/
theorem walkSteps_wrep_occupied {s u : State} (ht : s.TreeCurrent) (hc : s.cfg.Valid) (ho : s.occupied ≠ [])
    (hw : walkSteps 64 (walkStart s) = .done () u) : s.Occupied u.wrep.toNat := by
  have hstart := walkAt_start (fun _ => false) ht hc ho
  obtain ⟨ds, v, hv, hat, -⟩ | ⟨_, v, hv, -⟩ := walkSteps_cases 64 hstart hc.2.1 (Nat.le_refl 64)
  · cases hw.symm.trans hv
    have hm : (minSlot (s.activeAt ds 64)).toNat ∈ s.activeAt ds 64 :=
      minSlot_mem hat.active fun i => activeAt_lt hc.2.1
    rw [hat.wrep]
    exact (mem_occupied.mp (mem_activeAt.mp hm).1).2
  · exact nomatch hw.symm.trans hv

theorem occupied_ne_nil {s : State} (h : s.Inv) (hc : s.count ≠ 0) : s.occupied ≠ [] :=
  fun he => hc (BitVec.eq_of_toNat_eq (by simp [h.countOccupied, he]))

theorem execSearchRom_inv {s t : State} (h : s.Inv) (hf : s.fsm = .commandReceive) (hx : execSearchRom s = .next t) :
    t.Inv := by
  have ho := exec_orderly (i := .searchRom) hx
  have hk := execSearchRom_keepsTable hx
  obtain ⟨u, hw, hsel, -, hidle, -⟩ | ⟨hsel, hidle⟩ := execSearchRom_sel hx
  · have hdev : s.occupied ≠ [] := occupied_ne_nil h (h.busyHasDevice (by simp [hf]))
    have htree : (goto .search s).TreeCurrent := TreeCurrent.congr h.treeCurrent rfl rfl rfl rfl rfl rfl
    have hocc : s.Occupied u.wrep.toNat := walkSteps_wrep_occupied (s := goto .search s) htree h.cfgValid hdev hw
    exact hk.inv h ho (.inr (hsel ▸ hocc)) (.inl hidle)
  · exact hk.inv h ho (hsel ▸ h.selOccupied) (.inl hidle)

theorem execMatchRom_inv {s t : State} (h : s.Inv) (hf : s.fsm = .commandReceive) (hx : execMatchRom s = .next t) :
    t.Inv := by
  have ho := exec_orderly (i := .matchRom) hx
  have hk := execMatchRom_keepsTable hx
  obtain ⟨hduty, hocc⟩ | ⟨hsel, hidle⟩ := execMatchRom_sel h.cfgValid hx
  · exact hk.inv h ho (.inr hocc) (.inr (.inr ⟨hduty, h.busyHasDevice (by simp [hf]), hocc⟩))
  · exact hk.inv h ho (hsel ▸ h.selOccupied) (.inl hidle)

theorem fsm_idle_or_duty {s : State} (h : s.Inv) (hf : s.fsm ≠ .commandReceive) : s.fsm = .idle ∨ s.fsm = .duty :=
  h.boundary.imp_right fun hb => hb.resolve_left fun hc => hf hc.1

/-- An instruction of the stream whose turn it is keeps the invariant: a ROM command in CommandReceive, a host operation
outside it (R16, R17). -/
theorem exec_inv {i : Instr} {s t : State} (h : s.Inv) (hi : i.stream = .bus ↔ s.fsm = .commandReceive)
    (hx : exec i s = .next t) : t.Inv := by
  have ho := exec_orderly hx
  cases exec_cases hx with
  | operated r hhost hu hou =>
    have hn := fsm_idle_or_duty h (hi.not.mp (by simp [hhost]))
    exact Inv.ret (Inv.keep h hou hu.cfg hu.slots hu.count hu.devices hu.treeRoot hu.tree hu.treeNext
      (hu.mem ▸ h.memWf) hu.sel hu.fsm hn) r
  | received hr =>
    have hn := fsm_idle_or_duty h (hi.not.mp (by simp [Instr.stream]))
    have hb := recvBytes_frame hr
    exact Inv.ret (Inv.keep h (recvBytes_tidy hr).toOrderly hb.cfg hb.slots hb.count hb.devices hb.treeRoot hb.tree
      hb.treeNext (recvBytes_wf hr h.memWf) hb.sel hb.fsm hn) _
  | attached hf hn hj => exact Inv.ret (fillSlot_inv h hf hn hj) _
  | detached _ hf hj hocc => exact Inv.ret (emptySlot_inv h hf hj hocc) _
  | polled hf => exact pollBody_inv h hf
  | ran hf => exact pollBody_inv (Inv.setRunning h true) hf
  | searched hs => exact execSearchRom_inv h (hi.mp rfl) hs
  | matched hm => exact execMatchRom_inv h (hi.mp rfl) hm
  | skipped =>
    have hp := ((goto_poll .skipRom s).trans (setSel_poll noneByte _)).trans (finishPoll_poll .skipped false _)
    exact hp.keepsTable.inv h ho (.inl (finishPoll_sel _ _ _)) (.inl (finishPoll_fsm _ _ _))
  | ignored st =>
    have hp := (goto_poll st s).trans (finishPoll_poll .unrecognized false _)
    exact hp.keepsTable.inv h ho (by simpa using h.selOccupied) (.inl (finishPoll_fsm _ _ _))

theorem exec_host_inv {i : Instr} {s t : State} (h : s.Inv) (hi : i.stream = .host) (hf : s.fsm ≠ .commandReceive)
    (hx : exec i s = .next t) : t.Inv :=
  exec_inv h ⟨fun hb => absurd (hi.symm.trans hb) nofun, fun hc => absurd hc hf⟩ hx

/-- Settles O11: a step runs an instruction of the stream whose turn it is, or it ends a duty, or it waits. -/
theorem stepKeepsInv : Obligations.StepKeepsInv := by
  intro s t h hst
  cases step_cases hst with
  | waited _ _ _ ht => exact ht ▸ h
  | polled hf _ ht => exact exec_host_inv h rfl (by simp [hf]) ht
  | request _ _ rest hf _ _ hd ht =>
    exact exec_host_inv (Inv.setHost h rest) (decode_host_stream hd) (by simp [hf]) ht
  | command hf ht => exact exec_inv h (by simp [hf, decodeRom_stream]) ht
  | called _ _ _ hf _ hd ht =>
    exact exec_host_inv (Inv.setDuties h _) (decode_host_stream hd) (by simp [hf]) ht
  | returned _ _ _ ht => exact ht ▸ finishPoll_inv (Inv.setDuties h _) _ _

end Sys2Proof.Machine
end

section
/-! Bytes and buffers on the line (20_memory R84 to R88, 43_transport R202 to R207): the equations of the buffer
operations, what they do where their slots come and where one does not, and the frames of the transport. -/

namespace Sys2Proof.Machine

@[simp] theorem ret_accesses (s : State) (r : Result) : (s.ret r).accesses = s.accesses := rfl

/-! ### Bytes (R204, R205) -/

/-- TBIT counts the bits SEND_BYTE has sent (R204). -/
theorem sendBits_tbit {n : Nat} {s : State} (h : (sendBits n s).1 = true) :
    (sendBits n s).2.tbit = s.tbit + BitVec.ofNat 8 n := by
  induction n generalizing s with
  | zero => simp [sendBits]
  | succ n ih =>
    simp only [sendBits] at h ⊢
    split at h
    · next hb =>
      rw [if_pos hb, ih h, setByteRegs_tbit, sendBit_tbit, BitVec.add_assoc, BitVec.ofNat_add, BitVec.add_comm 1]
      rfl
    · cases h

theorem sendByte_tbit {b : Byte} {s : State} (h : (sendByte b s).1 = true) : (sendByte b s).2.tbit = 8 :=
  sendBits_tbit h

theorem sendByte_err {b : Byte} {s : State} (h : (sendByte b s).1 = true) : (sendByte b s).2.err = s.err := by
  have hl := sendByte_latched b s
  rwa [h] at hl

theorem recvByte_err {s : State} (h : (recvByte s).1.1 = true) : (recvByte s).2.err = s.err := by
  have hl := recvByte_latched s
  rwa [h] at hl

/-- SEND_BYTE of which only m slots come (R204). -/
theorem sendByte_stuck {b : Byte} {m : Nat} {s : State} {script tail : List Draw} {sent : List Access} {e : ErrKind}
    (hm : m < 8) (h : Slots (SendSlot s.cfg) ((byteBits b).take m) script sent) (hb : s.bus = script ++ tail)
    (hl : s.line = ⟨false, false⟩) (ht : StuckTail s.cfg tail e) :
    (sendByte b s).1 = false ∧ (sendByte b s).2.err = e ∧ (sendByte b s).2.tbit = BitVec.ofNat 8 m ∧
    (sendByte b s).2.tshift = b >>> m ∧
    ∃ as, (sendByte b s).2.accesses = s.accesses ++ sent ++ as ∧ OnlySamples as := by
  rw [← lowBits_byteBits b m hm.le] at h
  obtain ⟨hok, herr, hbit, hshift, hacc⟩ := sendBits_partial 8 m hm (s := s.setByteRegs b 0) h hb hl ht
  exact ⟨hok, herr, hbit.trans (BitVec.zero_add _), hshift, hacc⟩

/-- Settles O33: a served byte succeeds, and what succeeds leaves ERR alone and counts eight bits. -/
theorem bytesInServedSlots : Obligations.BytesInServedSlots := by
  intro s b script rest as hl hb
  refine ⟨fun h => ?send, fun h => ?recv⟩
  case send =>
    obtain ⟨hok, hbus, -, hacc⟩ := sendByte_served rest h hb hl
    exact ⟨_, rfl, by rw [hok]; rfl, sendByte_err hok, sendByte_tbit hok, hbus, hacc⟩
  case recv =>
    obtain ⟨hok, hbus, -, hacc, hshift, hbit⟩ := recvByte_served rest h hb hl
    exact ⟨_, rfl, by rw [hok]; rfl, recvByte_err (congrArg Prod.fst hok), hshift, hbit, hbus, hacc⟩

/-- Settles O34: the loop has served m bits when its slot wait fails, and a failed slot wait only samples the line. -/
theorem byteFailsAtItsBit : Obligations.ByteFailsAtItsBit := by
  intro s script tail served e hl ht hb
  refine ⟨fun b m hm h => ?send, fun bits hm h => ?recv⟩
  case send =>
    obtain ⟨hok, herr, hbit, hshift, as, hacc, has⟩ := sendByte_stuck hm h hb hl ht
    exact ⟨_, as, rfl, by rw [hok]; rfl, herr, hbit, hshift, hacc, has⟩
  case recv =>
    obtain ⟨hok, herr, as, hacc, has⟩ := recvByte_stuck hm h hb hl ht
    exact ⟨_, _, as, rfl, by rw [hok]; rfl, herr, hacc, has⟩

/-! ### The buffer operations, one equation for each outcome of their loops (R206, R207) -/

theorem exec_sendBuf_of_ok {addr : Nat} {len : Half} {s : State} {r : Nat × State}
    (h : sendBytes addr len.toNat 0 s = .ok r) :
    exec (.sendBuf addr len) s = .next (r.2.ret (.count (BitVec.ofNat 16 r.1))) := by
  simp only [exec, execSendBuf, h]

theorem exec_sendBuf_of_error {addr a : Nat} {len : Half} {s : State} (h : sendBytes addr len.toNat 0 s = .error a) :
    exec (.sendBuf addr len) s = .refused (.outsideBuffer a) := by
  simp only [exec, execSendBuf, h]

theorem exec_recvBuf_of_ok {addr : Nat} {len : Half} {s : State} {r : Nat × State}
    (h : recvBytes addr len.toNat 0 s = .ok r) :
    exec (.recvBuf addr len) s = .next (r.2.ret (.count (BitVec.ofNat 16 r.1))) := by
  simp only [exec, execRecvBuf, h]

theorem exec_recvBuf_of_error {addr a : Nat} {len : Half} {s : State} (h : recvBytes addr len.toNat 0 s = .error a) :
    exec (.recvBuf addr len) s = .refused (.outsideBuffer a) := by
  simp only [exec, execRecvBuf, h]

theorem exec_sendBuf_next {addr : Nat} {len : Half} {s t : State} (h : exec (.sendBuf addr len) s = .next t) :
    ∃ r, sendBytes addr len.toNat 0 s = .ok r ∧ t = r.2.ret (.count (BitVec.ofNat 16 r.1)) := by
  cases hr : sendBytes addr len.toNat 0 s with
  | ok r => cases h.symm.trans (exec_sendBuf_of_ok hr); exact ⟨r, rfl, rfl⟩
  | error a => cases h.symm.trans (exec_sendBuf_of_error hr)

theorem exec_recvBuf_next {addr : Nat} {len : Half} {s t : State} (h : exec (.recvBuf addr len) s = .next t) :
    ∃ r, recvBytes addr len.toNat 0 s = .ok r ∧ t = r.2.ret (.count (BitVec.ofNat 16 r.1)) := by
  cases hr : recvBytes addr len.toNat 0 s with
  | ok r => cases h.symm.trans (exec_recvBuf_of_ok hr); exact ⟨r, rfl, rfl⟩
  | error a => cases h.symm.trans (exec_recvBuf_of_error hr)

/-! ### One turn of the loops that ends them -/

theorem sendBytes_of_outside {addr j : Nat} (n : Nat) {s : State} (h : s.mem.read (addr + j) = none) :
    sendBytes addr (n + 1) j s = .error (addr + j) := by
  simp only [sendBytes, h]

theorem sendBytes_of_failed {addr j : Nat} (n : Nat) {s : State} {b : Byte} (hm : s.mem.read (addr + j) = some b)
    (h : (sendByte b s).1 = false) : sendBytes addr (n + 1) j s = .ok (j, (sendByte b s).2) := by
  simp only [sendBytes, hm, h, Bool.false_eq_true, if_false]

theorem recvBytes_of_outside {addr j : Nat} (n : Nat) {s : State} (h : s.mem.read (addr + j) = none)
    (hr : (recvByte s).1.1 = true) : recvBytes addr (n + 1) j s = .error (addr + j) := by
  rw [← (recvByte_frame s).mem] at h
  simp only [recvBytes, hr, if_true, h]

theorem recvBytes_of_failed {addr j : Nat} (n : Nat) {s : State} (h : (recvByte s).1.1 = false) :
    recvBytes addr (n + 1) j s = .ok (j, smearByte (addr + j) (recvByte s).2) := by
  simp only [recvBytes, h, Bool.false_eq_true, if_false]

@[simp] theorem smearByte_err (a : Nat) (s : State) : (smearByte a s).err = s.err := by
  unfold smearByte
  dsimp only
  split <;> rfl

/-- Settles O35: the served bytes lead the loop to its end, or to the byte whose slots stop. -/
theorem sendBufSendsItsBytes : Obligations.SendBufSendsItsBytes := by
  intro s addr len bytes script tail served hl hlen hmem hb
  refine ⟨fun h => ?whole, fun j m e hj hm ht h => ?stopped⟩
  case whole =>
    obtain ⟨t, hgo, -, hbus, -, herr, hacc⟩ :=
      sendBytes_served addr len.toNat 0 s bytes tail hlen (by simpa using hmem) h hb hl
    have hr : sendBytes addr len.toNat 0 s = .ok (0 + len.toNat, t) := hgo 0
    exact ⟨_, exec_sendBuf_of_ok hr, by simp, herr, hbus, hacc⟩
  case stopped =>
    obtain ⟨d1, a1, d2, a2, hs1, hs2, rfl, rfl⟩ := (Slots.append _ _ _ _).mp h
    obtain ⟨t, hgo, hf, hbus, hline, -, hacc⟩ :=
      sendBytes_served addr j 0 s (bytes.take j) (d2 ++ tail) (List.length_take_of_le hj.le)
        (fun i hi => by rw [Nat.add_zero, hmem i (by omega), List.getElem?_take_of_lt hi]) hs1
        (by rw [hb, List.append_assoc]) hl
    have hbyte : t.mem.read (addr + j) = some bytes[j] := by
      rw [hf.mem, hmem j (by omega), List.getElem?_eq_getElem hj]
    obtain ⟨hok, herr, -, -, as, hacc', has⟩ :=
      sendByte_stuck hm (by rw [hf.cfg]; exact hs2) hbus hline (by rw [hf.cfg]; exact ht)
    have hr : sendBytes addr len.toNat 0 s = .ok (j, (sendByte bytes[j] t).2) := by
      obtain ⟨n, hn⟩ := Nat.exists_eq_add_of_lt (hlen ▸ hj)
      rw [hn, Nat.add_assoc, hgo, Nat.zero_add, sendBytes_of_failed n hbyte hok]
    exact ⟨_, as, exec_sendBuf_of_ok hr, rfl, herr, by simp [hacc', hacc], has⟩

/-- Settles O36: as for SEND_BUF; the byte that failed is the only one that may have changed beside the stored ones. -/
theorem recvBufStoresItsBytes : Obligations.RecvBufStoresItsBytes := by
  intro s addr len bytes script tail served hl hmem hb
  refine ⟨fun hlen h => ?whole, fun bits e hlt hbits ht h => ?stopped⟩
  case whole =>
    obtain ⟨t, hgo, -, hbus, -, herr, hacc, hread⟩ :=
      recvBytes_served addr len.toNat 0 s bytes tail hlen (by simpa using hmem) h hb hl
    have hr : recvBytes addr len.toNat 0 s = .ok (0 + len.toNat, t) := hgo 0
    exact ⟨_, exec_recvBuf_of_ok hr, by simp, herr, hbus, by simpa using hread, hacc⟩
  case stopped =>
    obtain ⟨d1, a1, d2, a2, hs1, hs2, rfl, rfl⟩ := (Slots.append _ _ _ _).mp h
    obtain ⟨t, hgo, hf, hbus, hline, -, -, hread⟩ :=
      recvBytes_served addr bytes.length 0 s bytes (d2 ++ tail) rfl
        (fun i hi => by simpa using hmem i (by omega)) hs1 (by rw [hb, List.append_assoc]) hl
    obtain ⟨hok, herr, -⟩ :=
      recvByte_stuck hbits (by rw [hf.cfg]; exact hs2) hbus hline (by rw [hf.cfg]; exact ht)
    have hr : recvBytes addr len.toNat 0 s =
        .ok (bytes.length, smearByte (addr + bytes.length) (recvByte t).2) := by
      obtain ⟨n, hn⟩ := Nat.exists_eq_add_of_lt hlt
      rw [hn, Nat.add_assoc, hgo, Nat.zero_add, recvBytes_of_failed n hok]
    refine ⟨_, exec_recvBuf_of_ok hr, rfl, (smearByte_err _ _).trans herr, fun a ha => ?_, ?_⟩
    · rw [ret_mem, smearByte_read _ _ _ ha, (recvByte_frame t).mem, hread]
      simp
    · rw [ret_mem, (recvBytes_mem hr).2]
      exact hmem _ hlt

/-! ### Frames (R202 to R207) -/

theorem BitOnly.ret_eq {s u : State} (h : BitOnly s u) (r : Result) :
    u.ret r = { s with err := u.err, line := u.line, imask := u.imask, bus := u.bus, time := u.time, trace := u.trace,
                       draws := u.draws, result := some r } := by
  obtain ⟨_, _, _, _, _, _, _, rfl⟩ := h
  rfl

theorem TransportOnly.ret_eq {s u : State} (h : TransportOnly s u) (r : Result) :
    u.ret r = { s with err := u.err, tshift := u.tshift, tbit := u.tbit, line := u.line, imask := u.imask, bus := u.bus,
                       time := u.time, trace := u.trace, draws := u.draws, result := some r } := by
  obtain ⟨_, _, _, _, _, _, _, _, _, rfl⟩ := h
  rfl

theorem BufferOnly.ret_eq {s u : State} (h : BufferOnly s u) (r : Result) :
    u.ret r = { s with err := u.err, tshift := u.tshift, tbit := u.tbit, line := u.line, imask := u.imask, mem := u.mem,
                       bus := u.bus, time := u.time, trace := u.trace, draws := u.draws, result := some r } := by
  obtain ⟨_, _, ⟨_, _, _, _, _, _, _, _, _, rfl⟩, rfl⟩ := h
  rfl

/-- Settles O37: each operation returns from a procedure with the frame of its kind, and a return writes the result. -/
theorem transportFrames : Obligations.TransportFrames := by
  intro s i t h
  refine ⟨?bit, ?byte, ?recvBuf⟩
  case bit =>
    rintro (rfl | ⟨v, rfl⟩) <;> cases h
    · exact (recvBit_frame s).ret_eq _
    · exact (sendBit_frame v s).ret_eq _
  case byte =>
    rintro (rfl | ⟨b, rfl⟩ | ⟨addr, len, rfl⟩)
    · cases h; exact (recvByte_frame s).ret_eq _
    · cases h; exact (sendByte_frame b s).ret_eq _
    · obtain ⟨r, hr, rfl⟩ := exec_sendBuf_next h
      exact (sendBytes_frame hr).ret_eq _
  case recvBuf =>
    rintro addr len rfl
    obtain ⟨r, hr, rfl⟩ := exec_recvBuf_next h
    obtain ⟨houtside, hreadable⟩ := recvBytes_mem hr
    exact ⟨houtside, hreadable, (recvBytes_frame hr).ret_eq _⟩

/-! ### The range of a buffer operation (20_memory R85) -/

/-- The operations on a caller's buffer at addr to addr + len − 1. -/
def IsBufferOp (addr : Nat) (len : Half) (i : Instr) : Prop :=
  i = .sendBuf addr len ∨ i = .recvBuf addr len ∨ i = .crc8 addr len ∨ i = .crc16 addr len

/-- A buffer operation completes, or it is refused at an address of its range outside every buffer. -/
theorem IsBufferOp.cases {addr : Nat} {len : Half} {i : Instr} (hi : IsBufferOp addr len i) (s : State) :
    (∃ t, exec i s = .next t) ∨
    ∃ j < len.toNat, exec i s = .refused (.outsideBuffer (addr + j)) ∧ s.mem.read (addr + j) = none := by
  obtain rfl | rfl | rfl | rfl := hi
  · cases hr : sendBytes addr len.toNat 0 s with
    | ok r => exact .inl ⟨_, exec_sendBuf_of_ok hr⟩
    | error a =>
      obtain ⟨j, hj, rfl, hn⟩ := sendBytes_error hr
      exact .inr ⟨j, hj, exec_sendBuf_of_error hr, hn⟩
  · cases hr : recvBytes addr len.toNat 0 s with
    | ok r => exact .inl ⟨_, exec_recvBuf_of_ok hr⟩
    | error a =>
      obtain ⟨j, hj, rfl, hn⟩ := recvBytes_error hr
      exact .inr ⟨j, hj, exec_recvBuf_of_error hr, hn⟩
  all_goals
    simp only [exec, execCrc8, execCrc16]
    cases hr : s.mem.readRange addr len.toNat with
    | ok bytes => exact .inl ⟨_, rfl⟩
    | error a =>
      obtain ⟨j, hj, rfl, hn⟩ := readRange_error hr
      exact .inr ⟨j, hj, rfl, hn⟩

theorem exec_crc_of_outside {addr : Nat} {len : Half} {i : Instr} {s : State} {j : Nat}
    (hi : i = .crc8 addr len ∨ i = .crc16 addr len) (hj : j < len.toNat) (hn : s.mem.read (addr + j) = none)
    (hs : ∀ j' < j, (s.mem.read (addr + j')).isSome) : exec i s = .refused (.outsideBuffer (addr + j)) := by
  obtain rfl | rfl := hi <;> simp only [exec, execCrc8, execCrc16, readRange_first hj hn hs]

/-- The count SEND_BUF or RECV_BUF returns is of readable bytes. -/
theorem exec_count_readable {addr : Nat} {len : Half} {i : Instr} {s t : State} {n : Half}
    (hi : i = .sendBuf addr len ∨ i = .recvBuf addr len) (h : exec i s = .next t) (hn : t.result = some (.count n))
    {j : Nat} (hj : j < n.toNat) : (s.mem.read (addr + j)).isSome := by
  have hle (k : Nat) : (BitVec.ofNat 16 k).toNat ≤ k := by rw [BitVec.toNat_ofNat]; exact Nat.mod_le _ _
  obtain rfl | rfl := hi
  · obtain ⟨r, hr, rfl⟩ := exec_sendBuf_next h
    cases hn
    exact (sendBytes_counted hr).2 j (Nat.zero_le j) (hj.trans_le (hle _))
  · obtain ⟨r, hr, rfl⟩ := exec_recvBuf_next h
    cases hn
    exact (recvBytes_counted hr).2 j (Nat.zero_le j) (hj.trans_le (hle _))

/-- Settles O38: completion follows from where a refusal can be; with the bytes before it served, the loops come to the
first address outside. -/
theorem bufferRangeIsChecked : Obligations.BufferRangeIsChecked := by
  refine ⟨fun s addr len i hi => ⟨fun hin => ?completes, fun r h => ?refusal, fun j hj hn hs hc => ?crc,
    fun t n hi' h hn j hj => ?counted⟩, ?send, ?recv⟩
  case completes =>
    obtain ht | ⟨j, hj, -, hn⟩ := IsBufferOp.cases hi s
    · exact ht
    · exact nomatch hn ▸ hin j hj
  case refusal =>
    obtain ⟨t, ht⟩ | ⟨j, hj, hr, hn⟩ := IsBufferOp.cases hi s
    · exact nomatch h.symm.trans ht
    · cases h.symm.trans hr
      exact ⟨j, hj, rfl, hn⟩
  case crc => exact exec_crc_of_outside hc hj hn hs
  case counted => exact exec_count_readable hi' h hn hj
  case send =>
    intro s addr len bytes script rest as hl hlt hmem hn h hb
    obtain ⟨t, hgo, hf, -⟩ := sendBytes_served addr bytes.length 0 s bytes rest rfl (by simpa using hmem) h hb hl
    obtain ⟨n, hlen⟩ := Nat.exists_eq_add_of_lt hlt
    refine exec_sendBuf_of_error ?_
    rw [hlen, Nat.add_assoc, hgo, Nat.zero_add, sendBytes_of_outside n (by rw [hf.mem]; exact hn)]
  case recv =>
    intro s addr len bytes last script rest as hl hlt hmem hn h hb
    rw [bytesBits, List.flatMap_append, Slots.append] at h
    obtain ⟨d1, a1, d2, a2, hs1, hs2, rfl, rfl⟩ := h
    obtain ⟨t, hgo, hf, hbus, hline, -, -, hread⟩ := recvBytes_served addr bytes.length 0 s bytes (d2 ++ rest) rfl
      (by simpa using hmem) hs1 (by rw [hb, List.append_assoc]) hl
    obtain ⟨hok, -⟩ := recvByte_served (b := last) rest (by rw [hf.cfg]; simpa using hs2) hbus hline
    have hout : t.mem.read (addr + bytes.length) = none := by rw [hread, if_neg (by omega), hn]
    obtain ⟨n, hlen⟩ := Nat.exists_eq_add_of_lt hlt
    refine exec_recvBuf_of_error ?_
    rw [hlen, Nat.add_assoc, hgo, Nat.zero_add, recvBytes_of_outside n hout (congrArg Prod.fst hok)]

end Sys2Proof.Machine
end

section
/-! Who writes the slot table and the tree (20_memory R92, 41_decision_tree R160): every instruction leaves both as they
were, or it is a table operation and has built the tree anew. -/

namespace Sys2Proof.Machine

/-- `t` has the parameters, the slot table, COUNT, the device identifiers and the tree of `s`. -/
structure KeepsTree (s t : State) : Prop where
  cfg : t.cfg = s.cfg
  slots : t.slots = s.slots
  count : t.count = s.count
  devices : t.devices = s.devices
  treeRoot : t.treeRoot = s.treeRoot
  tree : t.tree = s.tree
  treeNext : t.treeNext = s.treeNext

theorem KeepsTable.keepsTree {s t : State} (h : KeepsTable s t) : KeepsTree s t := { h with }

theorem BufferOnly.keepsTree {s t : State} (h : BufferOnly s t) : KeepsTree s t :=
  ⟨h.cfg, h.slots, h.count, h.devices, h.treeRoot, h.tree, h.treeNext⟩

theorem KeepsTree.ret {s t : State} (h : KeepsTree s t) (r : Result) : KeepsTree s (t.ret r) := { h with }

theorem KeepsTree.treeCurrent {s t : State} (h : KeepsTree s t) (hs : s.TreeCurrent) : t.TreeCurrent :=
  TreeCurrent.congr hs h.slots h.cfg h.devices h.treeRoot h.tree h.treeNext

/-- ATTACH, DETACH_DEV and DETACH_SLOT. -/
def IsTableOp (i : Instr) : Prop :=
  (∃ h, i = .attach h) ∨ (∃ h, i = .detachDev h) ∨ ∃ j, i = .detachSlot j

/-- The inversion of `exec` for the tree: it is kept, or a table operation has built it. -/
theorem exec_keepsTree_or_builds {i : Instr} {s t : State} (h : exec i s = .next t) :
    KeepsTree s t ∨ (IsTableOp i ∧ t.TreeCurrent) := by
  cases exec_cases h with
  | operated r _ hu => exact .inl (hu.keepsTable.keepsTree.ret r)
  | received hr => exact .inl ((recvBytes_frame hr).keepsTree.ret _)
  | attached => exact .inr ⟨.inl ⟨_, rfl⟩, build_treeCurrent _⟩
  | detached hi => exact .inr ⟨.inr hi, build_treeCurrent _⟩
  | polled => exact .inl (pollBody_poll s).keepsTable.keepsTree
  | ran => exact .inl { (pollBody_poll (s.setRunning true)).keepsTable.keepsTree with }
  | searched h => exact .inl (execSearchRom_keepsTable h).keepsTree
  | matched h => exact .inl (execMatchRom_keepsTable h).keepsTree
  | skipped =>
    have hp := ((goto_poll .skipRom s).trans (setSel_poll noneByte _)).trans (finishPoll_poll .skipped false _)
    exact .inl hp.keepsTable.keepsTree
  | ignored st =>
    have hp := (goto_poll st s).trans (finishPoll_poll .unrecognized false _)
    exact .inl hp.keepsTable.keepsTree

/-- Settles O52: a kept tree stays current, and a tree just built is current (20_memory R96). -/
theorem onlyTableOperationsChangeTheTree : Obligations.OnlyTableOperationsChangeTheTree := by
  intro i s t h
  obtain hk | ⟨hop, hcur⟩ := exec_keepsTree_or_builds h
  · exact ⟨fun _ _ _ => ⟨hk.slots, hk.count, hk.treeRoot, hk.treeNext, hk.tree⟩, hk.treeCurrent⟩
  · refine ⟨fun hattach hdev hslot => ?_, fun _ => hcur⟩
    obtain ⟨d, rfl⟩ | ⟨d, rfl⟩ | ⟨j, rfl⟩ := hop
    · exact absurd rfl (hattach d)
    · exact absurd rfl (hdev d)
    · exact absurd rfl (hslot j)

end Sys2Proof.Machine
end

section
/-! The decoders and the encoder (30_encoding): on each stream decoding and encoding are inverse to each other, and an op
code without a row in the table is refused by name. -/

namespace Sys2Proof

/-! ### Operand fields that spell an operand (R117) -/

theorem fieldsByte_toNat (op : Nat) (mk : Byte → Instr) (b : Byte) : fieldsByte op mk [b.toNat] = .ok (mk b) := by
  rw [fieldsByte, field_toNat]; rfl

theorem fieldsBit_toNat (op : Nat) (mk : Bool → Instr) (v : Bool) : fieldsBit op mk [v.toNat] = .ok (mk v) := by
  cases v <;> rfl

theorem fieldsBuffer_toNat (op : Nat) (mk : Nat → Half → Instr) (addr : Nat) (len : Half) :
    fieldsBuffer op mk [addr, len.toNat] = .ok (mk addr len) := by
  rw [fieldsBuffer, field_toNat]; rfl

theorem fieldsIdent_toNat (op : Nat) (mk : Byte → Vector Byte 6 → Instr) (fam : Byte) (ser : Vector Byte 6) :
    fieldsIdent op mk (fam.toNat :: ser.toList.map BitVec.toNat) = .ok (mk fam ser) := by
  match ser with
  | ⟨⟨[s0, s1, s2, s3, s4, s5]⟩, _⟩ =>
    simpa [fieldsIdent] using ⟨fam.isLt, s0.isLt, s1.isLt, s2.isLt, s3.isLt, s4.isLt, s5.isLt⟩

/-! ### Operand fields that decode are those of the operand they spell -/

section
variable {op : Nat} {args : List Nat} {i : Instr}

theorem encode_of_fields0 {j : Instr} (hj : encode j = [op]) (h : fields0 op j args = .ok i) :
    encode i = op :: args := by
  obtain ⟨rfl, rfl⟩ := fields0_eq_ok h; exact hj

theorem encode_of_fieldsHandle {mk : Handle → Instr} (hmk : ∀ a, encode (mk a) = [op, a])
    (h : fieldsHandle op mk args = .ok i) : encode i = op :: args := by
  obtain ⟨a, rfl, rfl⟩ := fieldsHandle_eq_ok h; exact hmk a

theorem encode_of_fieldsByte {mk : Byte → Instr} (hmk : ∀ b, encode (mk b) = [op, b.toNat])
    (h : fieldsByte op mk args = .ok i) : encode i = op :: args := by
  obtain ⟨b, rfl, rfl⟩ := fieldsByte_eq_ok h; exact hmk b

theorem encode_of_fieldsBit {mk : Bool → Instr} (hmk : ∀ v, encode (mk v) = [op, v.toNat])
    (h : fieldsBit op mk args = .ok i) : encode i = op :: args := by
  obtain ⟨v, rfl, rfl⟩ := fieldsBit_eq_ok h; exact hmk v

theorem encode_of_fieldsBuffer {mk : Nat → Half → Instr} (hmk : ∀ a n, encode (mk a n) = [op, a, n.toNat])
    (h : fieldsBuffer op mk args = .ok i) : encode i = op :: args := by
  obtain ⟨a, n, rfl, rfl⟩ := fieldsBuffer_eq_ok h; exact hmk a n

theorem encode_of_fieldsIdent {mk : Byte → Vector Byte 6 → Instr}
    (hmk : ∀ fam ser, encode (mk fam ser) = op :: fam.toNat :: ser.toList.map BitVec.toNat)
    (h : fieldsIdent op mk args = .ok i) : encode i = op :: args := by
  obtain ⟨fam, ser, rfl, rfl⟩ := fieldsIdent_eq_ok h; exact hmk fam ser

/-- The op code table of R118 is the encoder's. -/
theorem encode_of_decodeOp (h : decodeOp op args = .ok i) : encode i = op :: args := by
  unfold decodeOp at h
  split at h
  case h_1 | h_2 => exact encode_of_fieldsHandle (fun _ => rfl) h
  case h_3 | h_9 | h_12 => exact encode_of_fieldsByte (fun _ => rfl) h
  case h_4 | h_5 | h_6 | h_7 | h_8 | h_11 | h_13 => exact encode_of_fields0 rfl h
  case h_10 => exact encode_of_fieldsBit (fun _ => rfl) h
  case h_14 | h_15 | h_16 | h_17 => exact encode_of_fieldsBuffer (fun _ _ => rfl) h
  case h_18 => exact encode_of_fieldsIdent (fun _ _ => rfl) h
  case h_19 => cases h

/-- An op value without a row in the table of R118 is reserved (R119). -/
theorem decodeOp_of_notMem (h : op ∉ hostOps) (args : List Nat) : decodeOp op args = .error (.reservedOp op) := by
  unfold decodeOp
  split
  case h_19 => rfl
  all_goals exact absurd (by decide) h

end

/-! ### The command byte (R114) -/

theorem mem_namedCommands {cmd : Byte} :
    cmd ∈ namedCommands ↔ cmd = 0xF0 ∨ cmd = 0x55 ∨ cmd = 0xCC ∨ cmd = 0x33 ∨ cmd = 0x0F := by
  simp only [namedCommands, List.mem_cons, List.not_mem_nil, or_false]

theorem decodeRom_of_notMem {cmd : Byte} (h : cmd ∉ namedCommands) : decodeRom cmd = .unrecognized cmd := by
  simp only [mem_namedCommands, not_or] at h
  obtain ⟨h1, h2, h3, h4, h5⟩ := h
  simp only [decodeRom, h1, h2, h3, h4, h5, if_false]

theorem wellFormed_unrecognized {cmd : Byte} : (Instr.unrecognized cmd).wellFormed = true ↔ cmd ∉ namedCommands := by
  simp [Instr.wellFormed]

/-- A command byte is the encoding of the command it decodes to: a named one of its row, any other of UNRECOGNIZED. -/
theorem decodeRom_spells (cmd : Byte) :
    (decodeRom cmd).wellFormed = true ∧ encode (decodeRom cmd) = [cmd.toNat] := by
  by_cases h : cmd ∈ namedCommands
  · obtain rfl | rfl | rfl | rfl | rfl := mem_namedCommands.mp h <;> exact ⟨rfl, rfl⟩
  · rw [decodeRom_of_notMem h]
    exact ⟨wellFormed_unrecognized.mpr h, rfl⟩

/-- What the bus decoder accepts is one command byte. -/
theorem decode_bus_eq_ok {fs : List Nat} {i : Instr} (h : decode .bus fs = .ok i) :
    ∃ cmd : Byte, fs = [cmd.toNat] ∧ decodeRom cmd = i := by
  match fs with
  | [n] =>
    by_cases hn : n < 256
    · simp only [decode, hn, if_true] at h
      exact ⟨BitVec.ofNat 8 n, by simp [Nat.mod_eq_of_lt hn], Except.ok.inj h⟩
    · simp only [decode, hn, if_false, reduceCtorEq] at h
  | [] | _ :: _ :: _ => cases h

theorem wellFormed_of_host {i : Instr} (h : i.stream = .host) : i.wellFormed = true := by
  cases i with
  | unrecognized => cases h
  | _ => rfl

/-- Settles O1: by the row of the instruction; each row's operand fields spell its operands. -/
theorem decodeInvertsEncode : Obligations.DecodeInvertsEncode := by
  intro i hi
  cases i with
  | searchRom | matchRom | skipRom | readRom | readRomLegacy => rfl
  | unrecognized cmd =>
    exact (decode_bus cmd).trans (congrArg _ (decodeRom_of_notMem (wellFormed_unrecognized.mp hi)))
  | attach | detachDev | poll | run | getError | getSelected | getCount | recvBit | recvByte => rfl
  | detachSlot j => exact fieldsByte_toNat 0x03 .detachSlot j
  | getSlot j => exact fieldsByte_toNat 0x09 .getSlot j
  | sendByte b => exact fieldsByte_toNat 0x12 .sendByte b
  | sendBit v => exact fieldsBit_toNat 0x10 .sendBit v
  | sendBuf addr len => exact fieldsBuffer_toNat 0x14 .sendBuf addr len
  | recvBuf addr len => exact fieldsBuffer_toNat 0x15 .recvBuf addr len
  | crc8 addr len => exact fieldsBuffer_toNat 0x20 .crc8 addr len
  | crc16 addr len => exact fieldsBuffer_toNat 0x21 .crc16 addr len
  | makeId fam ser => exact fieldsIdent_toNat 0x22 .makeId fam ser

/-- Settles O2: on the bus stream by the command byte, on the host stream by the op code table. -/
theorem encodingsAreUnique : Obligations.EncodingsAreUnique := by
  intro st fs i h
  cases st with
  | bus =>
    obtain ⟨cmd, rfl, rfl⟩ := decode_bus_eq_ok h
    exact ⟨decodeRom_stream cmd, decodeRom_spells cmd⟩
  | host =>
    have hs := decode_host_stream h
    refine ⟨hs, wellFormed_of_host hs, ?_⟩
    cases fs with
    | nil => cases h
    | cons op args => exact encode_of_decodeOp h

/-- Settles O3: a byte that is none of the five named codes is no named command. -/
theorem romDecodeIsExact : Obligations.RomDecodeIsExact := by
  refine ⟨rfl, rfl, rfl, rfl, rfl, fun cmd h1 h2 h3 h4 h5 => decodeRom_of_notMem ?_⟩
  simp only [mem_namedCommands, not_or]
  exact ⟨h1, h2, h3, h4, h5⟩

/-- Settles O5: the twelve words are the encodings of the instructions they stand for, and these decode back. -/
theorem specWordsDecode : Obligations.SpecWordsDecode :=
  ⟨decodeInvertsEncode .searchRom rfl, decodeInvertsEncode .matchRom rfl, decodeInvertsEncode (.unrecognized 0xA5) rfl,
    decodeInvertsEncode (.attach 7) rfl, decodeInvertsEncode (.detachSlot 5) rfl, decodeInvertsEncode .poll rfl,
    decodeInvertsEncode (.getSlot 1) rfl, decodeInvertsEncode (.sendBit true) rfl,
    decodeInvertsEncode (.sendByte 0x3C) rfl, decodeInvertsEncode (.recvBuf 0x1234 2) rfl,
    decodeInvertsEncode (.crc8 0x40 7) rfl, decodeInvertsEncode (.makeId 0x28 #v[1, 2, 3, 4, 5, 6]) rfl⟩

/-! ### Reserved op codes (R119) -/

namespace Machine

theorem fetchRequest_reserved {op : Nat} (h : op ∉ hostOps) (args : List Nat) (s : State) :
    fetchRequest (op :: args) s = .undecodable (.reservedOp op) := by
  simp only [fetchRequest, decode, decodeHost, decodeOp_of_notMem h]

theorem step_of_fetch_undecodable {s : State} {e : DecodeError} (h : fetch s = .undecodable e) :
    step s = .refused (.undecodable e) := by
  simp only [step, h]

/-- Settles O4: the ranges of R119 hold no op code of the table, and both streams take a request to the same decoder. -/
theorem reservedOpsAreRefused : Obligations.ReservedOpsAreRefused := by
  intro s op args hop hnext
  have hnot : op ∉ hostOps := by
    simp only [hostOps, List.cons_append, List.nil_append, List.mem_cons, List.not_mem_nil, or_false]
    omega
  refine step_of_fetch_undecodable ?_
  obtain ⟨hf, hr, rest, hh⟩ | ⟨hf, rest, ha⟩ := hnext
  · exact (fetch_idle_request hf hr hh).trans (fetchRequest_reserved hnot args _)
  · exact (fetch_duty_call hf ha).trans (fetchRequest_reserved hnot args _)

end Machine

end Sys2Proof
end

section
/-! MATCH_ROM (45_dispatcher R258): what the slots of an address leave behind, which slot the received address names, and
the three ends of the instruction. -/

namespace Sys2Proof.Machine

/-! ### What an abort leaves on the line -/

@[simp] theorem setSel_accesses (s : State) (v : Byte) : (s.setSel v).accesses = s.accesses := rfl

@[simp] theorem raiseAbort_accesses (code : ErrKind) (reinit : Bool) (s : State) :
    (raiseAbort code reinit s).accesses = s.accesses ++ [.release] :=
  accesses_append s [.goto .idle, .line (s.time + (drawOf s.bus).dt) true .release] _
    (by simp [raiseAbort_eq, releaseLine_eq])

@[simp] theorem raiseAbort_bus (code : ErrKind) (reinit : Bool) (s : State) :
    (raiseAbort code reinit s).bus = s.bus.tail := by
  simp [raiseAbort_eq, releaseLine_eq]

@[simp] theorem raiseAbort_maddr (code : ErrKind) (reinit : Bool) (s : State) :
    (raiseAbort code reinit s).maddr = s.maddr := by
  simp [raiseAbort_eq, releaseLine_eq]

/-- "No match" is coded exactly with CODED_PROTOCOL_ERRORS (R302). -/
theorem writesErr_noAddressMatch (c : Config) : writesErr c .noAddressMatch = c.codedProtocolErrors :=
  Bool.or_false _

/-! ### The reception of the address -/

theorem receiveAddress_done {n k : Nat} {s u : State} (h : receiveAddress n k s = .done () u) :
    AddressOnly s u ∧ u.err = s.err := by
  obtain ⟨t, ht, hf, -, he⟩ | ⟨t, ht, -⟩ := receiveAddress_cases n k s <;> cases h.symm.trans ht
  exact ⟨hf, he⟩

theorem receiveAddress_abort {n k : Nat} {s u : State} {code : ErrKind} (h : receiveAddress n k s = .abort code u) :
    AddressOnly s u := by
  obtain ⟨t, ht, -⟩ | ⟨t, ht, hf, -⟩ := receiveAddress_cases n k s <;> cases h.symm.trans ht
  exact hf

/-- With all its 64 slots served, the address is in MADDR (30_encoding R112). -/
theorem receiveAddress_whole {s : State} {addr : Vector Byte 8} {script rest : List Draw} {as : List Access}
    (h : Slots (RecvSlot s.cfg) (bytesBits addr.toList) script as) (hb : s.bus = script ++ rest)
    (hl : s.line = ⟨false, false⟩) :
    ∃ u, receiveAddress 8 0 s = .done () u ∧ u.maddr = addr ∧ u.bus = rest ∧ u.accesses = s.accesses ++ as := by
  obtain ⟨u, hu, hbus, -, hacc, hmaddr⟩ := receiveAddress_served 8 0 s addr.toList rest (by simp) h hb hl
  refine ⟨u, hu, Vector.ext fun j hj => Option.some.inj ?_, hbus, hacc⟩
  rw [← Vector.getElem?_eq_getElem hj, hmaddr, if_pos (by omega)]
  simp [hj]

/-! ### The slot an address names -/

/-- The comparison of R258, for a state `u` that has the table and the devices of `s`. -/
theorem matchesAddress_iff {s u : State} (hslots : u.slots = s.slots) (hdevices : u.devices = s.devices) (i : Nat) :
    u.matchesAddress i = true ↔
      s.Occupied i ∧ ∀ k (hk : k < 8), idByte s.devices (s.slotAt i) k = u.maddr[k] := by
  unfold State.matchesAddress State.Occupied
  rw [slotAt_congr hslots, hdevices, Bool.and_eq_true, List.all_eq_true]
  refine and_congr_right fun _ => forall_congr' fun k => ?_
  rw [List.mem_range]
  exact forall_congr' fun hk => by simp [hk]

theorem matchedSlot_first {s : State} {i : Nat} (hi : i < s.cfg.nMax) (h : s.matchesAddress i = true)
    (hlow : ∀ j < i, ¬ s.matchesAddress j = true) : s.matchedSlot = some i :=
  find_range_first hi h fun j hj => by simpa using hlow j hj

theorem matchedSlot_none {s : State} (h : ∀ i < s.cfg.nMax, ¬ s.matchesAddress i = true) : s.matchedSlot = none :=
  List.find?_eq_none.mpr fun i hi => h i (List.mem_range.mp hi)

/-! ### The three ends -/

theorem exec_matchRom_of_matched {s u : State} {i : Nat} (h : receiveAddress 8 0 (goto .matchRom s) = .done () u)
    (hm : u.matchedSlot = some i) : exec .matchRom s = .next (goto .duty (u.setSel (BitVec.ofNat 8 i))) := by
  simp only [exec, execMatchRom, h, hm]

theorem exec_matchRom_of_unmatched {s u : State} (h : receiveAddress 8 0 (goto .matchRom s) = .done () u)
    (hm : u.matchedSlot = none) : exec .matchRom s = .next (raiseAbort .noAddressMatch false u) := by
  simp only [exec, execMatchRom, h, hm]

theorem exec_matchRom_of_abort {s u : State} {code : ErrKind}
    (h : receiveAddress 8 0 (goto .matchRom s) = .abort code u) :
    exec .matchRom s = .next (raiseAbort code false u) := by
  simp only [exec, execMatchRom, h]

/-- Settles O26: the served slots leave the address in MADDR, the comparison reads the table and the devices, which the
reception has not touched, and a failed slot ends the reception with its own code. -/
theorem matchRomSelectsByAddress : Obligations.MatchRomSelectsByAddress := by
  refine ⟨fun s addr script rest as hl h hb => ?served, fun s bytes vs e script tail as hl hlen hvs h ht hb => ?failed⟩
  case served =>
    obtain ⟨u, hu, hmaddr, hbus, hacc⟩ := receiveAddress_whole (s := goto .matchRom s) h hb hl
    obtain ⟨hf, herr⟩ := receiveAddress_done hu
    rw [goto_accesses] at hacc
    have hmatch (i : Nat) := matchesAddress_iff (s := s) hf.slots hf.devices i
    refine ⟨fun i hi ho haddr hlow => ?matched, fun hnone => ?unmatched⟩
    case matched =>
      have hm : u.matchedSlot = some i := by
        refine matchedSlot_first (hf.cfg ▸ hi) ((hmatch i).mpr ⟨ho, hmaddr ▸ haddr⟩) fun j hj hj' => ?_
        obtain ⟨hoj, heq⟩ := (hmatch j).mp hj'
        obtain ⟨k, hk, hne⟩ := hlow j hj hoj
        exact hne (hmaddr ▸ heq k hk)
      exact ⟨_, exec_matchRom_of_matched hu hm, rfl, rfl, hmaddr, herr, hf.result, hbus, by simp [hacc]⟩
    case unmatched =>
      have hm : u.matchedSlot = none := by
        refine matchedSlot_none fun i hi hi' => ?_
        obtain ⟨ho, heq⟩ := (hmatch i).mp hi'
        obtain ⟨k, hk, hne⟩ := hnone i (hf.cfg ▸ hi) ho
        exact hne (hmaddr ▸ heq k hk)
      refine ⟨_, exec_matchRom_of_unmatched hu hm, ?_, raiseAbort_fsm _ _ _, ?_, ?_,
        raiseAbort_result hf.running hf.result _ _, ?_, ?_⟩
      · rw [raiseAbort_sel, hf.sel, goto_sel]
      · rw [raiseAbort_maddr, hmaddr]
      · rw [raiseAbort_err, writesErr_noAddressMatch, hf.cfg, herr]; rfl
      · rw [raiseAbort_bus, hbus]
      · rw [raiseAbort_accesses, hacc]
  case failed =>
    obtain ⟨u, waits, hu, herr, hacc, hwaits, hmaddr⟩ :=
      receiveAddress_partial bytes 8 0 (goto .matchRom s) vs hlen (by omega) hvs h ht hb hl
    have hf := receiveAddress_abort hu
    refine ⟨_, waits, exec_matchRom_of_abort hu, ?_, raiseAbort_fsm _ _ _, ?_,
      raiseAbort_result hf.running hf.result _ _, fun k hk => ?_, ?_, hwaits⟩
    · rw [raiseAbort_sel, hf.sel, goto_sel]
    · rw [raiseAbort_err, herr, ite_self]
    · rw [raiseAbort_maddr, hmaddr k (by omega), if_pos (Nat.zero_le k), Nat.sub_zero]
    · rw [raiseAbort_accesses, hacc, goto_accesses]

end Sys2Proof.Machine
end

section
/-! The CRC engine and identifier construction (40_crc). A CRC of either width goes on by one byte as eight steps of one
shift register that XORs a constant in where a 1 falls out. That step is linear over XOR and keeps 0; the residues and the
agreement of the parity table with the bitwise form follow from it. -/

namespace Sys2Proof.Machine

/-! ### The shift register -/

/-- One step of a reflected CRC: shift right, and XOR `poly` where a 1 is shifted out. -/
def shiftOut {w : Nat} (poly c : BitVec w) : BitVec w :=
  if c.getLsbD 0 then (c >>> 1) ^^^ poly else c >>> 1

section
variable {w : Nat} (poly : BitVec w)

theorem shiftOut_of_lsb_zero {c : BitVec w} (h : c.getLsbD 0 = false) : shiftOut poly c = c >>> 1 := by
  simp [shiftOut, h]

theorem shiftOut_eq_xor (c : BitVec w) : shiftOut poly c = (c >>> 1) ^^^ if c.getLsbD 0 then poly else 0#w := by
  unfold shiftOut
  split
  · rfl
  · exact BitVec.xor_zero.symm

@[simp] theorem shiftOut_zero : shiftOut poly 0 = 0 := by simp [shiftOut]

@[simp] theorem iterate_shiftOut_zero (n : Nat) : (shiftOut poly)^[n] 0 = 0 :=
  Function.iterate_fixed (shiftOut_zero poly) n

theorem shiftOut_xor (x y : BitVec w) : shiftOut poly (x ^^^ y) = shiftOut poly x ^^^ shiftOut poly y := by
  have hpoly : ∀ a b : Bool,
      (if a ^^ b then poly else 0#w) = (if a then poly else 0#w) ^^^ if b then poly else 0#w := by
    rintro (_ | _) (_ | _) <;> simp
  simp only [shiftOut_eq_xor, BitVec.ushiftRight_xor_distrib, BitVec.getLsbD_xor, hpoly]
  ac_rfl

theorem iterate_shiftOut_xor (n : Nat) (x y : BitVec w) :
    (shiftOut poly)^[n] (x ^^^ y) = (shiftOut poly)^[n] x ^^^ (shiftOut poly)^[n] y := by
  induction n generalizing x y with
  | zero => rfl
  | succ n ih => simp only [Function.iterate_succ_apply, shiftOut_xor, ih]

/-- Nothing is XORed in while only zeros fall out. -/
theorem iterate_shiftOut_of_low_zero (n : Nat) {x : BitVec w} (h : ∀ i < n, x.getLsbD i = false) :
    (shiftOut poly)^[n] x = x >>> n := by
  induction n generalizing x with
  | zero => rfl
  | succ n ih =>
    have hrest : ∀ i < n, (x >>> 1).getLsbD i = false := fun i hi => by
      rw [BitVec.getLsbD_ushiftRight]; exact h _ (by omega)
    rw [Function.iterate_succ_apply, shiftOut_of_lsb_zero poly (h 0 (by omega)), ih hrest, ← BitVec.shiftRight_add,
      Nat.add_comm]

end

/-! ### CRC8 (R141, R142) -/

/-- The spec's bit mixes the byte in as it shifts both; the XOR of the two goes on as one shift register. -/
theorem crc8Bit_xor (c : Byte × Byte) : (crc8Bit c).1 ^^^ (crc8Bit c).2 = shiftOut 0x8C (c.1 ^^^ c.2) := by
  have hmix : ∀ x : Byte, x &&& 0x01 = 1 ↔ x.getLsbD 0 = true := by decide
  simp only [crc8Bit, shiftOut, hmix, BitVec.ushiftRight_xor_distrib]
  split
  · ac_rfl
  · rfl

theorem crc8Bits_xor (n : Nat) (c : Byte × Byte) :
    (crc8Bits n c).1 ^^^ (crc8Bits n c).2 = (shiftOut 0x8C)^[n] (c.1 ^^^ c.2) := by
  induction n generalizing c with
  | zero => rfl
  | succ n ih => rw [crc8Bits, ih, crc8Bit_xor, Function.iterate_succ_apply]

theorem crc8Bits_snd (n : Nat) (c : Byte × Byte) : (crc8Bits n c).2 = c.2 >>> n := by
  induction n generalizing c with
  | zero => rfl
  | succ n ih => rw [crc8Bits, ih, Nat.add_comm, BitVec.shiftRight_add]; rfl

theorem crc8Byte_eq (crc b : Byte) : crc8Byte crc b = (shiftOut 0x8C)^[8] (crc ^^^ b) := by
  have hxor := crc8Bits_xor 8 (crc, b)
  have hgone : b >>> 8 = 0#8 := BitVec.ushiftRight_eq_zero (le_refl 8)
  rwa [crc8Bits_snd, hgone, BitVec.xor_zero] at hxor

@[simp] theorem crc8Byte_self (crc : Byte) : crc8Byte crc crc = 0 := by
  rw [crc8Byte_eq, BitVec.xor_self]
  exact iterate_shiftOut_zero _ 8

@[simp] theorem crc8_append_byte (bytes : List Byte) (b : Byte) : crc8 (bytes ++ [b]) = crc8Byte (crc8 bytes) b := by
  simp [crc8]

/-- R142: the CRC of a list is what takes its own register back to 0. -/
theorem crc8_append_crc8 (bytes : List Byte) : crc8 (bytes ++ [crc8 bytes]) = 0 := by
  rw [crc8_append_byte, crc8Byte_self]

theorem crc8_zeros (n : Nat) : crc8 (List.replicate n 0) = 0 := by
  induction n with
  | zero => rfl
  | succ n ih => rw [List.replicate_succ', crc8_append_byte, ih, crc8Byte_self]

/-! ### CRC16 (R143) -/

/-- The register with its low byte cleared: what the shift register only moves down. -/
def clearLow (x : Half) : Half := x ^^^ (x.extractLsb' 0 8).zeroExtend 16

theorem clearLow_xor_low (x : Half) : clearLow x ^^^ (x.extractLsb' 0 8).zeroExtend 16 = x := by
  rw [clearLow, BitVec.xor_assoc, BitVec.xor_self, BitVec.xor_zero]

theorem iterate_shiftOut_clearLow (poly x : Half) : (shiftOut poly)^[8] (clearLow x) = x >>> 8 := by
  have hlow : ∀ i < 8, (clearLow x).getLsbD i = false := fun i hi => by
    simp [clearLow, hi, hi.trans (by decide : 8 < 16)]
  rw [iterate_shiftOut_of_low_zero poly 8 hlow]
  ext i hi
  simp [clearLow]

/-- Eight steps move the high byte down and mix the low byte in. -/
theorem iterate_shiftOut_byte (poly x : Half) :
    (shiftOut poly)^[8] x = (x >>> 8) ^^^ (shiftOut poly)^[8] ((x.extractLsb' 0 8).zeroExtend 16) := by
  conv_lhs => rw [← clearLow_xor_low x]
  rw [iterate_shiftOut_xor, iterate_shiftOut_clearLow]

/-- The parity step depends on the byte and the low byte of the register through their XOR only. -/
theorem crc16Byte_split (crc : Half) (b : Byte) :
    crc16Byte crc b = (crc >>> 8) ^^^ crc16Byte 0 (b ^^^ crc.extractLsb' 0 8) := by
  have hlow : (0 : Half).extractLsb' 0 8 = 0#8 := rfl
  have hhigh : (0 : Half) >>> 8 = 0#16 := rfl
  simp only [crc16Byte, hlow, hhigh, BitVec.xor_zero, BitVec.zero_xor]
  split <;> simp only [BitVec.xor_assoc, BitVec.zero_xor]

/-- What the parity table, the constant 0xC001 and the two folds give for each byte (93 G3 to G7). -/
theorem crc16Byte_zero : ∀ d : Byte, crc16Byte 0 d = (shiftOut 0xA001)^[8] (d.zeroExtend 16) := by decide

theorem crc16Byte_eq (crc : Half) (b : Byte) :
    crc16Byte crc b = (shiftOut 0xA001)^[8] (crc ^^^ b.zeroExtend 16) := by
  have hhigh : (crc ^^^ b.zeroExtend 16) >>> 8 = crc >>> 8 := by
    ext i hi
    simp
  have hlow : (crc ^^^ b.zeroExtend 16).extractLsb' 0 8 = b ^^^ crc.extractLsb' 0 8 := by
    ext i hi
    simp [hi, hi.trans (by decide : 8 < 16), Bool.xor_comm]
  rw [crc16Byte_split, crc16Byte_zero, iterate_shiftOut_byte _ (crc ^^^ _), hhigh, hlow]

@[simp] theorem crc16Byte_low (crc : Half) : crc16Byte crc (crc.extractLsb' 0 8) = crc >>> 8 := by
  rw [crc16Byte_eq]
  exact iterate_shiftOut_clearLow _ crc

@[simp] theorem crc16Byte_high (crc : Half) : crc16Byte (crc >>> 8) (crc.extractLsb' 8 8) = 0 := by
  have hsame : crc >>> 8 = (crc.extractLsb' 8 8).zeroExtend 16 := by
    ext i hi
    have hin : crc.getLsbD (8 + i) = true → i < 8 := fun h => by have := BitVec.lt_of_getLsbD h; omega
    simpa using hin
  rw [crc16Byte_eq, hsame, BitVec.xor_self]
  exact iterate_shiftOut_zero _ 8

@[simp] theorem crc16_append_byte (bytes : List Byte) (b : Byte) :
    crc16 (bytes ++ [b]) = crc16Byte (crc16 bytes) b := by
  simp [crc16]

theorem crc16_append_crc16 (bytes : List Byte) :
    crc16 (bytes ++ [(crc16 bytes).extractLsb' 0 8, (crc16 bytes).extractLsb' 8 8]) = 0 := by
  rw [List.append_cons, crc16_append_byte, crc16_append_byte, crc16Byte_low, crc16Byte_high]

theorem crc16_zeros (n : Nat) : crc16 (List.replicate n 0) = 0 := by
  induction n with
  | zero => rfl
  | succ n ih =>
    rw [List.replicate_succ', crc16_append_byte, ih]
    exact crc16Byte_low 0

/-! ### The instructions (R140, R145) -/

theorem readRange_of_reads {m : Memory} {a n : Nat} {bytes : List Byte} (hlen : bytes.length = n)
    (hread : ∀ j < n, m.read (a + j) = bytes[j]?) : m.readRange a n = .ok bytes := by
  obtain ⟨bs, hbs, hlen', hread'⟩ := readRange_ok m n a fun j hj => by
    rw [hread j hj, List.getElem?_eq_getElem (hlen ▸ hj)]; rfl
  have hsame : bs = bytes := List.ext_getElem (hlen'.trans hlen.symm) fun j hj hj' => by
    rw [← Option.some_inj, ← List.getElem?_eq_getElem, ← List.getElem?_eq_getElem, ← hread' j (hlen' ▸ hj),
      hread j (hlen' ▸ hj)]
  rw [hbs, hsame]

theorem exec_crc8_of_readRange {s : State} {addr : Nat} {len : Half} {bytes : List Byte}
    (h : s.mem.readRange addr len.toNat = .ok bytes) :
    exec (.crc8 addr len) s = .next (s.ret (.byte (crc8 bytes))) := by
  simp only [exec, execCrc8, h]

theorem exec_crc16_of_readRange {s : State} {addr : Nat} {len : Half} {bytes : List Byte}
    (h : s.mem.readRange addr len.toNat = .ok bytes) :
    exec (.crc16 addr len) s = .next (s.ret (.crc16 (crc16 bytes))) := by
  simp only [exec, execCrc16, h]

theorem exec_makeId (fam : Byte) (ser : Vector Byte 6) (s : State) :
    exec (.makeId fam ser) s = .next (s.ret (.ident (makeIdent fam ser))) := rfl

/-! ### Made identifiers (R146) -/

/-- The seven bytes under the CRC of a made identifier. -/
def identBody (fam : Byte) (ser : Vector Byte 6) : List Byte :=
  [fam, ser[0], ser[1], ser[2], ser[3], ser[4], ser[5]]

theorem makeIdent_toList (fam : Byte) (ser : Vector Byte 6) :
    (makeIdent fam ser).toList = identBody fam ser ++ [crc8 (identBody fam ser)] := rfl

theorem makeIdent_valid (fam : Byte) (ser : Vector Byte 6) :
    crc8 ((makeIdent fam ser).toList.take 7) = identByte (makeIdent fam ser) 7 := rfl

theorem crc8_makeIdent (fam : Byte) (ser : Vector Byte 6) : crc8 (makeIdent fam ser).toList = 0 := by
  rw [makeIdent_toList, crc8_append_crc8]

/-! ### The statements -/

/-- Settles O40: the register XORed with itself is 0, which the shift register keeps. -/
theorem crc8Residue : Obligations.Crc8Residue := ⟨crc8_append_crc8, crc8_zeros⟩

/-- Settles O41: the low byte leaves the high byte in the register, and the high byte clears it. -/
theorem crc16Residue : Obligations.Crc16Residue := ⟨crc16_append_crc16, crc16_zeros⟩

/-- Settles O42: the statement's loop is eight steps of `shiftOut` with 0xA001. -/
theorem crc16IsReflectedCrc : Obligations.Crc16IsReflectedCrc := by
  have hstep (crc : Half) (b : Byte) := (crc16Byte_eq crc b).trans
    (List.foldl_const (shiftOut 0xA001) (crc ^^^ b.zeroExtend 16) (List.range 8)).symm
  exact ⟨hstep, rfl, fun bytes b => (crc16_append_byte bytes b).trans (hstep _ b)⟩

/-- Settles O43: MAKE_ID appends the CRC8 of its seven bytes. -/
theorem madeIdentifiersAreValid : Obligations.MadeIdentifiersAreValid := by
  intro s t fam ser h
  rw [exec_makeId] at h
  cases h
  exact ⟨makeIdent fam ser, ret_result s _, makeIdent_valid fam ser, crc8_makeIdent fam ser⟩

/-- Settles O59: the statement's loop is eight steps of `shiftOut` with 0x8C. -/
theorem crc8IsReflectedCrc : Obligations.Crc8IsReflectedCrc :=
  ⟨rfl, fun bytes b => ((crc8_append_byte bytes b).trans (crc8Byte_eq _ b)).trans
    (List.foldl_const (shiftOut 0x8C) (crc8 bytes ^^^ b) (List.range 8)).symm⟩

/-- Settles O39: reading the range gives the bytes, and each operation returns its value and does nothing else. -/
theorem crcAndIdentOperations : Obligations.CrcAndIdentOperations := by
  refine fun s addr len bytes fam ser => ⟨fun hlen hread => ?_, exec_makeId fam ser s⟩
  have hrange := readRange_of_reads hlen hread
  exact ⟨exec_crc8_of_readRange hrange, exec_crc16_of_readRange hrange⟩

end Sys2Proof.Machine
end

section
/-! The decision tree that Build makes (41_decision_tree R162 to R171): the laws of BuildSub applied to the slot table of
a state and the cleared arena. -/

namespace Sys2Proof.Machine

/-! ### The distinct identifiers (R165) -/

/-- The key by which `classes` counts is the bit string by which `distinctIdents` does. -/
theorem keyBits_eq_map_range (bit : Nat → Nat → Bool) {left : Nat} (hl : left ≤ 64) (i : Nat) :
    keyBits bit left i = (List.range left).map fun q => bit i (64 - left + q) := by
  induction left with
  | zero => rfl
  | succ left ih =>
    have hshift : ∀ q, 64 - left + q = 64 - (left + 1) + (q + 1) := by omega
    simp [keyBits, ih (by omega), List.range_succ_eq_map, hshift]

theorem distinctIdents_length (s : State) : s.distinctIdents.length = classes s.slotBit 64 s.occupied := by
  have hkey : (fun i => (List.range 64).map (s.slotBit i)) = keyBits s.slotBit 64 := by
    funext i
    simp [keyBits_eq_map_range s.slotBit (Nat.le_refl 64) i]
  rw [State.distinctIdents, hkey, classes, ← List.card_toFinset]
  congr 1
  ext key
  simp

theorem distinctIdents_length_le (s : State) : s.distinctIdents.length ≤ s.occupied.length :=
  distinctIdents_length s ▸ classes_le s.slotBit 64 s.occupied

/-! ### The arena (R162, R166) -/

/-- The arena holds the 2·K − 1 nodes of K devices with distinct identifiers (R166). -/
theorem occupied_nodes_le_treeSize (s : State) : 2 * s.occupied.length - 1 ≤ s.cfg.treeSize := by
  have := occupied_length_le s
  unfold Config.treeSize; omega

/-- Every node index of the arena is below NO_CHILD. -/
theorem treeSize_le {c : Config} (hc : c.Valid) : c.treeSize ≤ 253 := by
  have := hc.2.1
  unfold Config.treeSize; omega

theorem buildTree_eq_buildSub {size : Nat} {S : List Nat} {bit : Nat → Nat → Bool} (hS : S ≠ []) :
    buildTree size S bit = buildSub bit 64 S (Arena.clear size) := by
  cases S with
  | nil => exact absurd rfl hS
  | cons => rfl

@[simp] theorem clear_nodes_length (size : Nat) : (Arena.clear size).nodes.length = size :=
  List.length_replicate

@[simp] theorem clear_next_toNat (size : Nat) : (Arena.clear size).next.toNat = 0 := rfl

theorem clear_getElem? {size i : Nat} (hi : i < size) : (Arena.clear size).nodes[i]? = some Node.empty :=
  List.getElem?_replicate_of_lt hi

/-- An EMPTY entry is neither a leaf nor a divergence node, so the cleared arena counts none. -/
theorem countP_clear {p : Node → Bool} (size : Nat) (hp : p Node.empty = false) :
    (Arena.clear size).nodes.countP p = 0 := by
  simp [Arena.clear, List.countP_replicate, hp]

/-! ### The build of a table with a device -/

/-- What the build leaves in the registers and the arena (R162, R164, R165), and what its root represents (R171). -/
theorem build_spec {s : State} (hc : s.cfg.Valid) (ho : s.occupied ≠ []) :
    (build s).treeRoot = 0 ∧ (build s).tree.length = s.cfg.treeSize ∧
    (build s).treeNext.toNat = 2 * s.distinctIdents.length - 1 ∧
    (∀ n, (build s).treeNext.toNat ≤ n → n < s.cfg.treeSize → (build s).tree[n]? = some Node.empty) ∧
    Represents (build s).tree s.slotBit 64 s.occupied 0 :=
  distinctIdents_length s ▸
    buildTree_spec s.cfg.treeSize s.occupied s.slotBit ho (occupied_nodes_le_treeSize s) (treeSize_le hc)

/-- K' leaves and K' − 1 divergence nodes (R165). -/
theorem build_counts {s : State} (hc : s.cfg.Valid) (ho : s.occupied ≠ []) :
    (build s).tree.countP (fun n => n.pos == 0x80) = s.distinctIdents.length ∧
    (build s).tree.countP (fun n => decide (n.pos.toNat < 64)) = s.distinctIdents.length - 1 := by
  have hroom := occupied_nodes_le_treeSize s
  have hsize := treeSize_le hc
  obtain ⟨hleaves, hdivs⟩ := buildSub_counts s.slotBit 64 s.occupied (Arena.clear s.cfg.treeSize) ho (Nat.le_refl 64)
    (by simpa using hroom) (by simpa using hsize) fun i _ hi => clear_getElem? (by simpa using hi)
  rw [countP_clear _ rfl, Nat.zero_add, ← distinctIdents_length] at hleaves hdivs
  rw [build_tree, buildTree_eq_buildSub ho]
  exact ⟨hleaves, hdivs⟩

/-- Every allocated node has the shape of R167. -/
theorem build_shape {s : State} (hc : s.cfg.Valid) (ho : s.occupied ≠ []) {n : Nat}
    (hn : n < (build s).treeNext.toNat) :
    Shape (build s).tree s.occupied (build s).treeNext.toNat 0 n := by
  have hroom := occupied_nodes_le_treeSize s
  have hsize := treeSize_le hc
  have hbyte : ∀ i ∈ s.occupied, i < 256 := fun i hi => by
    have := occupied_lt hi
    have := hc.2.1
    omega
  rw [build_treeNext, buildTree_eq_buildSub ho] at hn ⊢
  rw [build_tree, buildTree_eq_buildSub ho]
  exact buildSub_shape s.slotBit 64 s.occupied (Arena.clear s.cfg.treeSize) ho (Nat.le_refl 64) hbyte
    (by simpa using hroom) (by simpa using hsize) _ (fun _ _ _ => rfl) n (Nat.zero_le n) hn

/-! ### Small tables (R170) -/

theorem build_of_noDevices {s : State} (ho : s.occupied = []) :
    (build s).treeRoot = noChild ∧ (build s).treeNext = 0 ∧
      (build s).tree = List.replicate s.cfg.treeSize Node.empty := by
  rw [build_eq, ho]
  exact ⟨rfl, rfl, rfl⟩

/-- A single slot diverges at no position, so BuildSub only allocates its leaf. -/
theorem buildSub_singleton (bit : Nat → Nat → Bool) (left i : Nat) (a : Arena) :
    buildSub bit left [i] a =
      (a.next, { a.put a.next (Node.leaf (BitVec.ofNat 8 i)) with next := a.next + 1 }) := by
  induction left with
  | zero => rfl
  | succ left ih =>
    have hsum := group_lengths bit (63 - left) [i]
    have hagree : ¬(group bit (63 - left) false [i] ≠ [] ∧ group bit (63 - left) true [i] ≠ []) := by
      simp only [← List.length_pos_iff, List.length_singleton] at hsum ⊢
      omega
    simp only [buildSub, if_neg hagree, ih]

theorem build_of_oneDevice {s : State} {i : Nat} (hc : s.cfg.Valid) (ho : s.occupied = [i]) :
    (build s).treeRoot = 0 ∧ (build s).treeNext = 1 ∧
      (build s).tree[0]? = some (Node.leaf (BitVec.ofNat 8 i)) := by
  have hpos : 0 < (Arena.clear s.cfg.treeSize).nodes.length := by
    have := hc.1
    rw [clear_nodes_length, Config.treeSize]; omega
  rw [build_treeRoot, build_treeNext, build_tree, ho, buildTree_eq_buildSub (List.cons_ne_nil i []),
    buildSub_singleton]
  exact ⟨rfl, rfl, List.getElem?_set_self hpos⟩

/-! ### The tree as a function of the table (R169) -/

theorem buildTree_eq_of_same_table {s t : State} (hN : t.cfg.nMax = s.cfg.nMax) (ho : t.occupied = s.occupied)
    (hb : ∀ i ∈ s.occupied, ∀ p < 64, t.slotBit i p = s.slotBit i p) :
    buildTree t.cfg.treeSize t.occupied t.slotBit = buildTree s.cfg.treeSize s.occupied s.slotBit := by
  rw [ho, Config.treeSize, Config.treeSize, hN]
  exact buildTree_congr hb

/-! ### Where an identifier leads (R168, R171) -/

/-- From the root the identifier of a device leads to the lowest of the devices that answer all of its bits. -/
theorem build_leadsTo {s : State} {i : Nat} (hc : s.cfg.Valid) (hi : i ∈ s.occupied) :
    leadsTo (build s).tree (s.slotBit i) 65 (build s).treeRoot = some (minSlot (s.activeAt (s.slotBit i) 64)) := by
  obtain ⟨hroot, -, -, -, hrep⟩ := build_spec hc (List.ne_nil_of_mem hi)
  rw [hroot, hrep.leadsTo (Nat.le_refl 64) hi]
  simp [State.activeAt]

theorem mem_activeAt_self {s : State} {i : Nat} (hi : i ∈ s.occupied) (p : Nat) :
    i ∈ s.activeAt (s.slotBit i) p :=
  mem_activeAt.mpr ⟨hi, fun _ _ => rfl⟩

/-! ### The statements -/

/-- Settles O44: the counts of BuildSub, from a cleared arena with room for the nodes of every attached device. -/
theorem treeNodeCounts : Obligations.TreeNodeCounts := by
  intro s hc ho
  obtain ⟨hroot, hlen, hnext, hempty, -⟩ := build_spec hc ho
  obtain ⟨hleaves, hdivs⟩ := build_counts hc ho
  have hle := distinctIdents_length_le s
  have hroom := occupied_nodes_le_treeSize s
  exact ⟨hroot, hnext, hlen, by omega, List.countP_eq_length_filter ▸ hleaves,
    List.countP_eq_length_filter ▸ hdivs, hle, hempty⟩

/-- Settles O45: the empty table allocates nothing, and every other one what BuildSub gives its shape. -/
theorem treeShape : Obligations.TreeShape := by
  intro s n hc hn
  have ho : s.occupied ≠ [] := fun ho => by
    obtain ⟨-, hnext, -⟩ := build_of_noDevices ho
    rw [hnext] at hn
    exact Nat.not_lt_zero n hn
  obtain ⟨node, hnode, hrep, -, hkind⟩ := build_shape hc ho hn
  exact ⟨node, hnode, hrep, hkind⟩

/-- Settles O46: the identifier leads to the lowest of the devices with all of its bits, the device itself among them. -/
theorem treeLeadsToEachIdentifier : Obligations.TreeLeadsToEachIdentifier := by
  intro s i hc ht hi
  have htree : s.tree = (build s).tree := congrArg (fun t => t.2.nodes) ht
  have hroot : s.treeRoot = (build s).treeRoot := congrArg Prod.fst ht
  have hne := List.ne_nil_of_mem (mem_activeAt_self hi 64)
  exact ⟨_, htree ▸ hroot ▸ build_leadsTo hc hi, minSlot_lowest hc.2.1 hne⟩

/-- Settles O47: the build is a function of TREE_SIZE, the occupied slots and their identifier bits. -/
theorem treeIsDeterministic : Obligations.TreeIsDeterministic := by
  intro s t hN ho hb
  have h := buildTree_eq_of_same_table hN ho hb
  exact ⟨congrArg (fun t => t.2.nodes) h, congrArg Prod.fst h, congrArg (fun t => t.2.next) h⟩

/-- Settles O48: the empty table is the cleared arena, one device is a single leaf, and the build writes with `setTree`. -/
theorem smallTrees : Obligations.SmallTrees :=
  fun s => ⟨build_of_noDevices, fun _ => build_of_oneDevice, build_eq s⟩

end Sys2Proof.Machine
end

section
/-! The bus handshake inside POLL (42_bus_handshake, 45_dispatcher R251): what POLL does for each answer of reset detection,
of the presence pulse and of the command byte, and what these three answer on the line scripts of the statements. -/

namespace Sys2Proof.Machine

/-! ### What POLL does with the answer of the opened transaction (R251, R253, R305) -/

section
variable {s u : State} (hidle : s.fsm = .idle)
include hidle

theorem exec_poll : exec .poll s = .next (pollBody s) := if_pos hidle

variable (hcount : s.count ≠ 0)
include hcount

theorem exec_poll_of_openTransaction_noReset (h : openTransaction (s.setErr .noError) = .done .noReset u) :
    exec .poll s = .next (finishPoll .noReset false u) := by
  rw [exec_poll hidle, pollBody, if_neg hcount, h]

theorem exec_poll_of_openTransaction_command (h : openTransaction (s.setErr .noError) = .done .resetOk u) :
    exec .poll s = .next u := by
  rw [exec_poll hidle, pollBody, if_neg hcount, h]

/-- An opened transaction aborts with a code that is always written to ERR, and SEL stays as the transaction left it. -/
theorem exec_poll_of_openTransaction_abort {code : ErrKind} (h : openTransaction (s.setErr .noError) = .abort code u) :
    ∃ t, exec .poll s = .next t ∧ t.result = s.pollResult 0x02 ∧ t.err = code ∧ t.sel = u.sel ∧ t.fsm = .idle ∧
      t.accesses = u.accesses ++ [.release] := by
  have hexec : exec .poll s = .next (raiseAbort code false u) := by
    rw [exec_poll hidle, pollBody, if_neg hcount, h]
  rcases openTransaction_cases (s.setErr .noError) with ⟨_, h', -⟩ | ⟨_, h', -⟩ | ⟨_, _, _, h', hf, -, -, ha, hr⟩ <;>
    rw [h] at h' <;> cases h'
  exact ⟨_, hexec, raiseAbort_result (s := s.setErr .noError) hf.running hr code false,
    (raiseAbort_err code false u).trans (if_pos (ha.writesErr _)), raiseAbort_sel .., raiseAbort_fsm ..,
    raiseAbort_accesses ..⟩

end

/-! ### What the opened transaction answers, part by part (R251) -/

section
variable {s t u v : State} {code : ErrKind}

theorem openTransaction_of_noReset (h : resetDetect (goto .resetWait s) = .done .noReset t) :
    openTransaction s = .done .noReset t := by
  rw [openTransaction, h]; rfl

theorem openTransaction_of_resetAbort (h : resetDetect (goto .resetWait s) = .abort code t) :
    openTransaction s = .abort code t := by
  rw [openTransaction, h]; rfl

variable (hreset : resetDetect (goto .resetWait s) = .done .resetOk t)
include hreset

theorem openTransaction_of_presenceAbort (h : presence (goto .presence t) = .abort code u) :
    openTransaction s = .abort code u := by
  rw [openTransaction, hreset]; simp only [Proc.andThen, h]

variable (hpresence : presence (goto .presence t) = .done () u)
include hpresence

theorem openTransaction_of_command (h : receiveCommand u = .done () v) : openTransaction s = .done .resetOk v := by
  rw [openTransaction, hreset]; simp only [Proc.andThen, hpresence, h]

theorem openTransaction_of_commandAbort (h : receiveCommand u = .abort code v) : openTransaction s = .abort code v := by
  rw [openTransaction, hreset]; simp only [Proc.andThen, hpresence, h]

end

/-! ### What POLL does with the answer of reset detection (R253, R305) -/

/-- `s` as POLL hands it to reset detection: ERR cleared, in ResetWait (R251). -/
abbrev pollEntry (s : State) : State := goto .resetWait (s.setErr .noError)

section
variable {s u : State} (hidle : s.fsm = .idle) (hcount : s.count ≠ 0)
include hidle hcount

/-- No reset: POLL returns NO_RESET, and SEL is left alone. -/
theorem exec_poll_of_resetDetect_noReset (h : resetDetect (pollEntry s) = .done .noReset u) :
    ∃ t, exec .poll s = .next t ∧ t.result = s.pollResult 0x01 ∧ t.err = .noError ∧ t.sel = s.sel ∧ t.fsm = .idle ∧
      t = { u with fsm := .idle, trace := t.trace, result := t.result } ∧ t.accesses = u.accesses := by
  have hexec := exec_poll_of_openTransaction_noReset hidle hcount (openTransaction_of_noReset h)
  rcases resetDetect_cases (pollEntry s) with ⟨_, h', hf, -, hsel⟩ | ⟨_, h', -⟩ | ⟨_, _, h', -⟩ <;>
    rw [h] at h' <;> cases h'
  refine ⟨_, hexec, finishPoll_pollResult (s := s) hf.running hf.result .noReset false, ?_, ?_,
    finishPoll_fsm .., ?_, ?_⟩
  · exact (finishPoll_err ..).trans hf.err
  · exact (finishPoll_sel ..).trans hsel
  · rw [finishPoll_eq]
  · exact (accesses_append u [.goto .idle] _ (finishPoll_trace ..)).trans (List.append_nil _)

/-- A reset error: POLL returns ABORTED with its code, and SEL is left alone (R189). -/
theorem exec_poll_of_resetDetect_abort {code : ErrKind} (h : resetDetect (pollEntry s) = .abort code u) :
    ∃ t, exec .poll s = .next t ∧ t.result = s.pollResult 0x02 ∧ t.err = code ∧ t.sel = s.sel ∧ t.fsm = .idle := by
  obtain ⟨t, hexec, hres, herr, hsel, hfsm, -⟩ :=
    exec_poll_of_openTransaction_abort hidle hcount (openTransaction_of_resetAbort h)
  rcases resetDetect_cases (pollEntry s) with ⟨_, h', -⟩ | ⟨_, h', -⟩ | ⟨_, _, h', -, -, hkept, -⟩ <;>
    rw [h] at h' <;> cases h'
  exact ⟨t, hexec, hres, herr, hsel.trans hkept, hfsm⟩

end

/-! ### A line that stays high (R185) -/

/-- A wait that fails, as it stands in the core's procedures right after the clock read that started it. -/
theorem waitLine_failed {want : Bool} {b : Stamp} {s : State} (hmask : s.imask = false)
    (h : (waitLine want (now s).1 b (now s).2).1 = false) :
    ∃ u as, waitLine want (now s).1 b (now s).2 = (false, u) ∧ u.accesses = s.accesses ++ as ∧
      (∀ a ∈ as, a = .sample (!want)) ∧ u = { s with bus := u.bus, time := u.time, trace := u.trace } := by
  obtain ⟨as, hacc, has⟩ := waitLoop_failed_samples _ _ _ _ _ h
  refine ⟨(waitLine want (now s).1 b (now s).2).2, as, Prod.ext h rfl, hacc, has, ?_⟩
  have htidy := (now_tidy s).trans (waitLine_tidy want (now s).1 b (now s).2)
  obtain ⟨_, _, _, m, hu⟩ := (now_frame s).trans (waitLine_frame want (now s).1 b (now s).2)
  obtain rfl : m = s.imask := (congrArg State.imask hu).symm.trans ((htidy.imask hmask).trans hmask.symm)
  rw [hu]

/-- The release and the sample at ResetDetect's entry leave the line released and interrupts unmasked (R183, R184). -/
theorem entrySample_frame (s : State) : ∃ b τ tr, (sampleLine (releaseLine s)).2 = { s with
    line := ⟨false, s.line.out⟩, imask := false, bus := b, time := τ, trace := tr } :=
  ⟨_, _, _, by rw [sampleLine_eq, releaseLine_eq]; rfl⟩

/-- ResetDetect on a line that is high at entry and for which the wait for a falling edge fails. -/
theorem resetDetect_of_failed_wait {s e : State} (hentry : sampleLine (releaseLine s) = (true, e))
    (hwait : (waitLine false (now e).1 s.cfg.tResetWait (now e).2).1 = false) :
    ∃ u as, resetDetect s = .done .noReset u ∧ u.accesses = s.accesses ++ as ∧
      (∀ a ∈ as, a = .release ∨ a = .sample true) ∧
      u = { s with line := ⟨false, s.line.out⟩, imask := false, bus := u.bus, time := u.time, trace := u.trace } := by
  have he : (sampleLine (releaseLine s)).2 = e := congrArg Prod.snd hentry
  have hlevel : lineLevel (releaseLine s) = true := congrArg Prod.fst hentry
  obtain ⟨u, as, hfail, hacc, has, hu⟩ := waitLine_failed (s := e) (by rw [← he]; rfl) hwait
  refine ⟨u, .release :: .sample true :: as, ?_, ?_, by simpa using fun a ha => .inr (has a ha), ?_⟩
  · unfold resetDetect
    simp [hentry, hfail]
  · rw [hacc, ← he, sampleLine_accesses, hlevel, accesses_append s [.line _ true .release] (releaseLine s) rfl]
    simp [Event.access?]
  · obtain ⟨b, τ, tr, hframe⟩ := entrySample_frame s
    rw [hu, ← he, hframe]

/-- A line that is high for good, or for T_RESET_WAIT, gives no reset (R185). -/
theorem resetDetect_quietLine {s : State}
    (h : (∀ d ∈ s.bus, d.level = true) ∨
      ∃ up entry now0 ps rest, s.bus = up :: ⟨entry, true⟩ :: now0 :: (held true ps ++ rest) ∧ ps ≠ [] ∧
        s.cfg.tResetWait ≤ BitVec.ofNat 32 (heldTime ps)) :
    ∃ u as, resetDetect s = .done .noReset u ∧ u.accesses = s.accesses ++ as ∧
      (∀ a ∈ as, a = .release ∨ a = .sample true) ∧
      u = { s with line := ⟨false, s.line.out⟩, imask := false, bus := u.bus, time := u.time, trace := u.trace } := by
  rcases h with hhigh | ⟨up, entry, now0, ps, rest, hbus, hne, htime⟩
  · have hlevel : (sampleLine (releaseLine s)).1 = true := by
      cases hbus : s.bus.tail with
      | nil => simp [sampleLine_eq, lineLevel, releaseLine_eq, hbus, drawOf]
      | cons d rest =>
        have := hhigh d (List.mem_of_mem_tail (hbus ▸ List.mem_cons_self))
        simp [sampleLine_eq, lineLevel, releaseLine_eq, hbus, drawOf, this]
    refine resetDetect_of_failed_wait (Prod.ext hlevel rfl) (waitLoop_high _ _ _ _ (fun d hd => hhigh d ?_) rfl)
    exact List.mem_of_mem_tail (List.mem_of_mem_tail (List.mem_of_mem_tail hd))
  · exact resetDetect_of_failed_wait (entrySample_eq s up ⟨entry, true⟩ _ hbus)
      (waitLine_held false _ now0 ps rest _ rfl rfl hne htime)

/-- Settles O13: reset detection finds no falling edge, and POLL only returns NO_RESET. -/
theorem quietLineGivesNoReset : Obligations.QuietLineGivesNoReset := by
  intro s hidle hcount hquiet
  obtain ⟨u, as, hdetect, hacc, has, hu⟩ := resetDetect_quietLine (s := pollEntry s) hquiet
  obtain ⟨t, hexec, hres, herr, hsel, hfsm, ht, hkept⟩ := exec_poll_of_resetDetect_noReset hidle hcount hdetect
  refine ⟨t, as, hexec, hres, herr, hsel, hfsm, ?_, has, ?_⟩
  · rw [hkept, hacc, goto_accesses, setErr_accesses]
  · rw [ht, hu, ← hidle]; rfl

/-! ### Reset pulses (R186 to R189) -/

section
variable {s : State} {high : Bool} {pulse script rest : List Draw}
  (hfall : high = true ∧ FromHigh s.cfg pulse script ∨ high = false ∧ FromLow pulse script)
  (hbus : s.bus = script ++ rest)
include hfall hbus

/-- From either entry ResetDetect comes to measure the pulse. -/
theorem resetDetect_measures : ∃ u, resetDetect s = measureLow high u ∧ u.cfg = s.cfg ∧ u.bus = pulse ++ rest ∧
    u.line.dir = false := by
  rcases hfall with ⟨rfl, hfall⟩ | ⟨rfl, hfall⟩
  · obtain ⟨u, -, hdetect, hu, -⟩ := resetDetect_high rest hfall hbus
    exact ⟨u, hdetect, by rw [hu], by rw [hu], by rw [hu]⟩
  · obtain ⟨u, -, hdetect, hu, -⟩ := resetDetect_low rest hfall hbus
    exact ⟨u, hdetect, by rw [hu], by rw [hu], by rw [hu]⟩

/-- A pulse that ends before T_RESET_MIN: an error from an idle-high line, and no reset from a line that was low at entry
under the policy NoReset (R187, R188). -/
theorem resetDetect_short {width : Stamp} (hend : PulseEnd s.cfg width pulse) (hshort : width < s.cfg.tResetMin) :
    ∃ v, (high = true → resetDetect s = .abort .veryShortReset v) ∧
      (high = false → s.cfg.entryLowPolicy = .noReset → resetDetect s = .done .noReset v) := by
  obtain ⟨u, hdetect, hcfg, hb, hdir⟩ := resetDetect_measures hfall hbus
  obtain ⟨v, -, hmeasure, -⟩ := measureLow_served high rest (hcfg ▸ hend) hb hdir
  rw [hcfg, if_pos hshort] at hmeasure
  refine ⟨v, ?_, ?_⟩
  · rintro rfl
    rw [hdetect, hmeasure, if_pos rfl]
  · rintro rfl hpolicy
    rw [hdetect, hmeasure, if_neg Bool.false_ne_true, if_pos hpolicy]

/-- A pulse that is still low at T_RESET_MAX (R186). -/
theorem resetDetect_held (hheld : PulseHeld s.cfg pulse) : ∃ v, resetDetect s = .abort .veryLongReset v := by
  obtain ⟨u, hdetect, hcfg, hb, hdir⟩ := resetDetect_measures hfall hbus
  obtain ⟨low, ps, tail, rfl, hne, htime⟩ := hheld
  have hheld : PulseHeld u.cfg (low :: (held false ps ++ tail) ++ rest) :=
    ⟨low, ps, tail ++ rest, by simp, hne, hcfg ▸ htime⟩
  obtain ⟨v, hmeasure, -⟩ := measureLow_held high hheld hb hdir
  exact ⟨v, hdetect.trans hmeasure⟩

end

/-- Settles O14: reset detection classifies the pulse, and POLL ends with its verdict. -/
theorem resetPulsesAreClassified : Obligations.ResetPulsesAreClassified := by
  intro s pulse script rest width hidle hcount hbus
  refine ⟨fun hfall hend hshort => ?_, fun hfall hend hshort hpolicy => ?_, fun hfall hheld => ?_, fun haccepted => ?_⟩
  · obtain ⟨v, hdetect, -⟩ := resetDetect_short (s := pollEntry s) (.inl ⟨rfl, hfall⟩) hbus hend hshort
    exact exec_poll_of_resetDetect_abort hidle hcount (hdetect rfl)
  · obtain ⟨v, -, hdetect⟩ := resetDetect_short (s := pollEntry s) (.inr ⟨rfl, hfall⟩) hbus hend hshort
    obtain ⟨t, hexec, hres, herr, hsel, hfsm, -⟩ := exec_poll_of_resetDetect_noReset hidle hcount (hdetect rfl hpolicy)
    exact ⟨t, hexec, hres, herr, hsel, hfsm⟩
  · obtain ⟨v, hdetect⟩ : ∃ v, resetDetect (pollEntry s) = .abort .veryLongReset v := by
      rcases hfall with hfall | hfall
      · exact resetDetect_held (.inl ⟨rfl, hfall⟩) hbus hheld
      · exact resetDetect_held (.inr ⟨rfl, hfall⟩) hbus hheld
    exact exec_poll_of_resetDetect_abort hidle hcount hdetect
  · obtain ⟨t, -, hdetect, -, -, -, ht⟩ := resetDetect_accepted rest haccepted hbus
    exact ⟨t, hdetect, ht⟩

/-! ### The presence pulse (R190, R191) -/

/-- A line that stays low for T_PRESENCE_HIGH_MAX after the presence pulse (R191). -/
theorem presence_held {s : State} {gap drive pulse up now0 : Draw} {ps : List (Nat × Draw)} {rest : List Draw}
    (hbus : s.bus = gap :: drive :: pulse :: up :: now0 :: (held false ps ++ rest)) (hne : ps ≠ [])
    (htime : s.cfg.tPresenceHighMax ≤ BitVec.ofNat 32 (heldTime ps)) :
    ∃ u, presence s = .abort .veryLongReset u ∧ u.sel = s.sel := by
  have hwait := waitLine_held true s.cfg.tPresenceHighMax now0 ps rest (presencePulse s)
    (by rw [presencePulse_bus, hbus]; rfl) rfl hne htime
  rcases presence_cases s with ⟨_, h, -⟩ | ⟨u, h, -, -, hsel⟩
  · rw [presence_eq, hwait] at h; cases h
  · exact ⟨u, h, hsel⟩

/-- Settles O16: the presence pulse aborts, after reset detection has set SEL to none. -/
theorem presenceHeldLowAborts : Obligations.PresenceHeldLowAborts := by
  intro s reset gap drive pulse up now0 ps rest hidle hcount hreset hbus hne htime
  obtain ⟨t, -, hdetect, -, -, -, ht⟩ := resetDetect_accepted (s := pollEntry s) _ hreset hbus
  obtain ⟨u, hpresence, hsel⟩ := presence_held (s := goto .presence t) (by rw [ht]; rfl) hne (by rw [ht]; exact htime)
  obtain ⟨t', hexec, hres, herr, hsel', hfsm, -⟩ :=
    exec_poll_of_openTransaction_abort hidle hcount (openTransaction_of_presenceAbort hdetect hpresence)
  refine ⟨t', hexec, hres, herr, hsel'.trans (hsel.trans ?_), hfsm⟩
  exact congrArg State.sel ht

/-! ### The command byte (R255, R256) -/

section
variable {s : State} {script rest : List Draw} {as : List Access}

/-- A served command byte leaves it in TSHIFT, and POLL in CommandReceive. -/
theorem receiveCommand_served {cmd : Byte} (h : Slots (RecvSlot s.cfg) (byteBits cmd) script as)
    (hbus : s.bus = script ++ rest) (hline : s.line = ⟨false, false⟩) (hmask : s.imask = false) :
    ∃ t, receiveCommand s = .done () t ∧ t.accesses = s.accesses ++ as ∧ (∃ es, t.trace = es ++ s.trace) ∧
      t = { s with fsm := .commandReceive, tshift := cmd, tbit := 8, bus := rest, time := t.time, trace := t.trace } := by
  obtain ⟨hok, hrest, hreleased, hacc, hshift, hbit⟩ := recvByte_served (s := goto .commandReceive s) rest h hbus hline
  have hsuccess : (recvByte (goto .commandReceive s)).1.1 = true := congrArg Prod.fst hok
  have hdraws := recvByte_draws hsuccess
  have herr := recvByte_latched (goto .commandReceive s)
  rw [hsuccess] at herr
  obtain ⟨es, htrace, -⟩ := (recvByte_tidy (goto .commandReceive s)).trace
  have hopen := (recvByte_tidy (goto .commandReceive s)).imask hmask
  refine ⟨(recvByte (goto .commandReceive s)).2, ?_, by rw [hacc, goto_accesses],
    ⟨es ++ [.goto .commandReceive], ?_⟩, ?_⟩
  · simp [receiveCommand, hsuccess]
  · rw [htrace, goto_trace, List.append_assoc]; rfl
  · obtain ⟨b, τ, tr, m, l, e, d, sh, n, hframe⟩ := recvByte_frame (goto .commandReceive s)
    generalize (recvByte (goto .commandReceive s)).2 = t at *
    subst hframe
    obtain rfl : b = rest := hrest
    obtain rfl : m = s.imask := hopen.trans hmask.symm
    obtain rfl : l = s.line := hreleased.trans hline.symm
    obtain rfl : e = s.err := herr
    obtain rfl : d = s.draws := hdraws
    obtain rfl : sh = cmd := hshift
    obtain rfl : n = 8 := hbit
    rfl

/-- A command byte of which fewer than eight slots come (R256). -/
theorem receiveCommand_stuck {bits : List Bool} {e : ErrKind} (hbits : bits.length < 8)
    (h : Slots (RecvSlot s.cfg) bits script as) (hbus : s.bus = script ++ rest) (hline : s.line = ⟨false, false⟩)
    (hstuck : StuckTail s.cfg rest e) :
    ∃ t waits, receiveCommand s = .abort e t ∧ t.accesses = s.accesses ++ as ++ waits ∧ OnlySamples waits ∧
      t.sel = s.sel := by
  obtain ⟨hfail, herr, waits, hacc, hwaits⟩ :=
    recvByte_stuck (s := goto .commandReceive s) hbits h hbus hline hstuck
  refine ⟨(recvByte (goto .commandReceive s)).2, waits, ?_, by rw [hacc, goto_accesses], hwaits,
    (recvByte_frame (goto .commandReceive s)).sel⟩
  simp [receiveCommand, hfail, herr]

end

/-- The events of an accepted reset and its presence pulse, between the record of `s` and that of `t`: the rising edge, then
one low drive, with the times of R190. -/
def PresenceDriven (s t : State) : Prop :=
  ∃ before after rise b e, t.trace = after ++ .line e true .release :: .line b true .driveLow :: .goto .presence ::
      .line rise true (.sample true) :: (before ++ s.trace) ∧
    rise + s.cfg.tPresenceHighStd.toNat ≤ b ∧ b + s.cfg.tPresenceLowStd.toNat ≤ e

theorem PresenceDriven.later {s t u : State} {es : List Event} (h : PresenceDriven s t) (hu : u.trace = es ++ t.trace) :
    PresenceDriven s u := by
  obtain ⟨before, after, rise, b, e, ht, hgap, hlow⟩ := h
  exact ⟨before, es ++ after, rise, b, e, by rw [hu, ht, List.append_assoc], hgap, hlow⟩

/-- An accepted reset and a presence slot bring POLL to the command byte (R189, R190). -/
theorem pollEntry_served {s : State} {reset slot rest : List Draw} {pulse : List Access}
    (hreset : AcceptedReset s.cfg reset) (hslot : PresenceSlot s.cfg slot pulse)
    (hbus : s.bus = reset ++ (slot ++ rest)) :
    ∃ t u as, resetDetect (pollEntry s) = .done .resetOk t ∧ presence (goto .presence t) = .done () u ∧
      u.accesses = s.accesses ++ [.release] ++ as ++ pulse ∧ OnlySamples as ∧ PresenceDriven s u ∧
      u = { s with err := .noError, sel := 0xFF, fsm := .presence, line := ⟨false, false⟩, imask := false, bus := rest,
                   time := u.time, trace := u.trace } := by
  obtain ⟨t, as, hdetect, htacc, has, ⟨rise, es, hrise, hle⟩, ht⟩ :=
    resetDetect_accepted (s := pollEntry s) _ hreset hbus
  obtain ⟨u, hpresence, huacc, ⟨after, b, e, htrace, hgap, hlow⟩, hu⟩ :=
    presence_served (s := goto .presence t) rest (by rw [ht]; exact hslot) (by rw [ht]; rfl)
  have hcfg : t.cfg = s.cfg := by rw [ht]; rfl
  refine ⟨t, u, as, hdetect, hpresence, ?_, has, ⟨es ++ [.goto .resetWait], after, rise, b, e, ?_, ?_, ?_⟩, ?_⟩
  · rw [huacc, goto_accesses, htacc, goto_accesses, setErr_accesses]
  · rw [htrace, goto_trace, hrise]; simp
  · exact (Nat.add_le_add_right hle _).trans (hcfg ▸ hgap)
  · exact hcfg ▸ hlow
  · rw [hu, ht]; rfl

/-- Settles O15: reset, presence and command byte one after the other, the last whole or stopped at its failed slot. -/
theorem pollReceivesACommand : Obligations.PollReceivesACommand := by
  refine ⟨fun s cmd reset presence command rest pulse bits hidle hcount hreset hpulse hbits hbus => ?_,
    fun s vs e reset presence command tail pulse bits hidle hcount hreset hpulse hvs hbits hstuck hbus => ?_⟩
  · rw [List.append_assoc, List.append_assoc] at hbus
    obtain ⟨t, u, as, hdetect, hpresence, hacc, has, hdriven, hu⟩ := pollEntry_served hreset hpulse hbus
    obtain ⟨v, hcommand, hvacc, ⟨es, htrace⟩, hv⟩ :=
      receiveCommand_served (s := u) (rest := rest) (by rw [hu]; exact hbits) (by rw [hu]) (by rw [hu]) (by rw [hu])
    have hexec :=
      exec_poll_of_openTransaction_command hidle hcount (openTransaction_of_command hdetect hpresence hcommand)
    have hframe : v = { s with
        err := .noError, sel := 0xFF, fsm := .commandReceive, tshift := cmd, tbit := 8, line := ⟨false, false⟩
        imask := false, bus := rest, time := v.time, trace := v.trace } := by
      rw [hv, hu]
    exact ⟨v, as, hexec, congrArg State.fsm hframe, congrArg State.tshift hframe, congrArg State.tbit hframe,
      congrArg State.err hframe, congrArg State.sel hframe, congrArg State.bus hframe, by rw [hvacc, hacc], has,
      hdriven.later htrace, hframe⟩
  · rw [List.append_assoc, List.append_assoc] at hbus
    obtain ⟨t, u, as, hdetect, hpresence, hacc, has, -, hu⟩ := pollEntry_served hreset hpulse hbus
    obtain ⟨v, waits, hcommand, hvacc, hwaits, hvsel⟩ := receiveCommand_stuck (s := u) hvs (by rw [hu]; exact hbits)
      (by rw [hu]) (by rw [hu]) (by rw [hu]; exact hstuck)
    obtain ⟨t', hexec, hres, herr, hsel, hfsm, hreleased⟩ :=
      exec_poll_of_openTransaction_abort hidle hcount (openTransaction_of_commandAbort hdetect hpresence hcommand)
    refine ⟨t', as, waits, hexec, hres, herr, ?_, hfsm, ?_, has, hwaits⟩
    · rw [hsel, hvsel, hu]
    · rw [hreleased, hvacc, hacc]

/-! ### All the ways a POLL ends (R251) -/

/-- Settles O17: the three ends of POLL, an abort read off where the opened transaction stopped. -/
theorem pollOutcomes : Obligations.PollOutcomes := by
  intro s hidle hcount
  obtain ⟨hframe, -, hend⟩ := pollBody_cases s hcount
  refine ⟨_, exec_poll hidle, ?_, ?_⟩
  · rcases hend with ⟨hfsm, herr, hsel, hres, -⟩ | ⟨hfsm, herr, hsel, hbit, hres, -⟩ | ⟨hfsm, hres, sts, habort, -⟩
    · exact .inl ⟨hfsm, hres, herr, hsel⟩
    · exact .inr (.inl ⟨hfsm, hres, herr, hsel, hbit⟩)
    · refine .inr (.inr ⟨hfsm, hres, ?_⟩)
      rcases habort with ⟨-, hlong | hshort, hsel⟩ | ⟨-, hlong, hsel⟩ | ⟨-, hslot, hsel⟩
      · exact .inr (.inl ⟨hlong, .inl hsel⟩)
      · exact .inl ⟨hshort, hsel⟩
      · exact .inr (.inl ⟨hlong, .inr hsel⟩)
      · exact .inr (.inr ⟨hslot, hsel⟩)
  · obtain ⟨_, _, _, _, _, _, _, _, _, _, _, _, h⟩ := hframe
    rw [h]

/-! ### The waits (R345, R307) -/

/-- Settles O58: by the samples of the wait loop; a first sample of the wanted level ends it. -/
theorem waitsEnd : Obligations.WaitsEnd := by
  intro want t0 budget s
  refine ⟨waitLoop_ends want t0 budget _ s, fun hdir d rest hbus hlevel => ?_⟩
  rw [waitLine_first want t0 budget s (by simp [lineLevel, hdir, hbus, drawOf, hlevel])]

end Sys2Proof.Machine
end

section
/-! Single bits on the line and what the transport leaves in ERR (43_transport R200 to R209): the counts of the buffer
operations tell success from failure, and a served bit changes nothing but the clock, the line script and the record. -/

namespace Sys2Proof.Machine

/-! ### ERR after each operation (R201, R208) -/

theorem latched_iff {ok : Bool} {s t : State} : Latched ok s t ↔
    if ok then t.err = s.err else t.err = .readTimeslotTimeoutLow ∨ t.err = .readTimeslotTimeoutHigh := by
  cases ok <;> exact Iff.rfl

/-- SEND_BUF has failed exactly if it stops before its last byte (R206). -/
theorem sendBytes_latched {addr n j : Nat} {s : State} {r : Nat × State} (h : sendBytes addr n j s = .ok r) :
    Latched (decide (r.1 = j + n)) s r.2 := by
  induction n generalizing s j with
  | zero =>
    cases h
    rw [decide_eq_true (Nat.add_zero j).symm]
    exact .ok rfl
  | succ n ih =>
    cases hm : s.mem.read (addr + j) with
    | none => exact nomatch (sendBytes_of_outside n hm).symm.trans h
    | some b =>
      cases hok : (sendByte b s).1 with
      | true =>
        simp only [sendBytes, hm, hok, if_true] at h
        rw [← Nat.succ_add_eq_add_succ]
        exact (ih h).after (sendByte_err hok)
      | false =>
        cases (sendBytes_of_failed n hm hok).symm.trans h
        rw [decide_eq_false (by omega), ← hok]
        exact sendByte_latched b s

/-- RECV_BUF has failed exactly if it stops before its last byte (R207). -/
theorem recvBytes_latched {addr n j : Nat} {s : State} {r : Nat × State} (h : recvBytes addr n j s = .ok r) :
    Latched (decide (r.1 = j + n)) s r.2 := by
  induction n generalizing s j with
  | zero =>
    cases h
    rw [decide_eq_true (Nat.add_zero j).symm]
    exact .ok rfl
  | succ n ih =>
    cases hok : (recvByte s).1.1 with
    | false =>
      have hb := recvByte_latched s
      rw [hok] at hb
      cases (recvBytes_of_failed n hok).symm.trans h
      rw [decide_eq_false (by omega)]
      exact .failed (by rw [smearByte_err]; exact hb)
    | true =>
      cases hm : s.mem.read (addr + j) with
      | none => exact nomatch (recvBytes_of_outside n hm hok).symm.trans h
      | some old =>
        simp only [recvBytes, hok, if_true, (recvByte_frame s).mem, hm] at h
        rw [← Nat.succ_add_eq_add_succ]
        exact (ih h).after (recvByte_err hok)

/-- What a buffer operation returns when its loop, begun at byte 0, ends in `r`: the 16-bit count is the loop's own, so
it is `len` exactly after a success. -/
theorem ret_count_latches {len : Half} {s : State} {r : Nat × State} (hle : r.1 ≤ 0 + len.toNat)
    (h : Latched (decide (r.1 = 0 + len.toNat)) s r.2) :
    ∃ n, (r.2.ret (.count (BitVec.ofNat 16 r.1))).result = some (.count n) ∧ n ≤ len ∧
      if n = len then r.2.err = s.err
      else r.2.err = .readTimeslotTimeoutLow ∨ r.2.err = .readTimeslotTimeoutHigh := by
  rw [Nat.zero_add] at hle h
  have hn : (BitVec.ofNat 16 r.1).toNat = r.1 := by
    rw [BitVec.toNat_ofNat, Nat.mod_eq_of_lt (hle.trans_lt len.isLt)]
  have heq : BitVec.ofNat 16 r.1 = len ↔ r.1 = len.toNat := by rw [← BitVec.toNat_inj, hn]
  refine ⟨_, rfl, by rw [BitVec.le_def, hn]; exact hle, ?_⟩
  simpa only [heq, decide_eq_true_eq] using latched_iff.mp h

/-- Settles O30: each procedure latches ERR as its ok bit says, and a loop over bytes as its count says. -/
theorem transportLatchesErr : Obligations.TransportLatchesErr := by
  intro s
  refine ⟨fun v => ⟨_, _, rfl, rfl, latched_iff.mp (sendBit_latched v s)⟩,
    ⟨_, _, _, rfl, rfl, latched_iff.mp (recvBit_latched s)⟩,
    fun b => ⟨_, _, rfl, rfl, latched_iff.mp (sendByte_latched b s)⟩,
    ⟨_, _, _, rfl, rfl, latched_iff.mp (recvByte_latched s)⟩, ?_⟩
  rintro addr len t (h | h)
  · obtain ⟨r, hr, rfl⟩ := exec_sendBuf_next h
    exact ret_count_latches (sendBytes_counted hr).1 (sendBytes_latched hr)
  · obtain ⟨r, hr, rfl⟩ := exec_recvBuf_next h
    exact ret_count_latches (recvBytes_counted hr).1 (recvBytes_latched hr)

/-! ### A bit in a served slot (R202, R203) -/

theorem sendBit_ok_iff {v : Bool} {s : State} : (sendBit v s).1 = true ↔ (waitTimeSlot s).1 = .ok := by
  by_cases h : (waitTimeSlot s).1 = .ok
  · simp [sendBit_of_ok h, h]
  · simp [sendBit_of_timeout h, h]

@[simp] theorem driveZero_draws (s : State) : (driveZero s).draws = s.draws := by
  simp [driveZero, releaseLine_eq, delay_eq, pullLine_eq]

theorem EnvOnly.draws {s t : State} (h : EnvOnly s t) : t.draws = s.draws := by
  obtain ⟨_, _, _, _, rfl⟩ := h; rfl

/-- A successful send draws no free value. -/
theorem sendBit_draws {v : Bool} {s : State} (h : (sendBit v s).1 = true) : (sendBit v s).2.draws = s.draws := by
  have hw := (waitTimeSlot_frame s).draws
  rw [sendBit_of_ok (sendBit_ok_iff.mp h)]
  cases v
  · exact (driveZero_draws _).trans hw
  · exact hw

/-- A 0 that is sent is the last thing recorded: low for at least T_WRITE_ZERO, then released (R202). -/
theorem sendBit_zero_trace {s : State} (h : (sendBit false s).1 = true) : ∃ before b e, (sendBit false s).2.trace =
    .line e true .release :: .line b true .driveLow :: (before ++ s.trace) ∧ b + s.cfg.tWriteZero.toNat ≤ e := by
  rw [sendBit_of_ok (sendBit_ok_iff.mp h)]
  obtain ⟨before, hbefore, -⟩ := (waitTimeSlot_tidy s).trace
  obtain ⟨b, e, htrace, hlow⟩ := driveZero_trace (waitTimeSlot s).2
  rw [(waitTimeSlot_frame s).cfg] at hlow
  exact ⟨before, b, e, by rw [← hbefore]; exact htrace, hlow⟩

/-- The state a bit operation returns in when it left ERR, the line, the mask and the free values as they were. -/
theorem BitOnly.ret_eq_of_served {s u : State} (h : BitOnly s u) (herr : u.err = s.err) (hline : u.line = s.line)
    (himask : u.imask = s.imask) (hdraws : u.draws = s.draws) (r : Result) :
    u.ret r = { s with bus := u.bus, time := u.time, trace := u.trace, result := some r } := by
  rw [h.ret_eq, herr, hline, himask, hdraws]

/-- Settles O31: a served bit succeeds, so it leaves ERR and the free values alone; the line is released and the mask
open as before. -/
theorem bitsInAServedSlot : Obligations.BitsInAServedSlot := by
  intro s v script rest as hl hi hb
  refine ⟨fun h => ?send, fun h => ?recv⟩
  case send =>
    obtain ⟨hok, hbus, hline, hacc⟩ := sendBit_served rest h hb hl
    have herr := sendBit_latched v s
    rw [hok] at herr
    have himask := ((sendBit_tidy v s).imask hi).trans hi.symm
    refine ⟨_, rfl, by rw [hok]; rfl, hacc, fun hv => ?_, ?_⟩
    · subst hv
      exact sendBit_zero_trace hok
    · rw [← hbus]
      exact (sendBit_frame v s).ret_eq_of_served herr (hline.trans hl.symm) himask (sendBit_draws hok) _
  case recv =>
    obtain ⟨hres, hbus, hline, hacc⟩ := recvBit_served rest h hb hl
    have hok : (recvBit s).1.1 = true := congrArg Prod.fst hres
    have herr := recvBit_latched s
    rw [hok] at herr
    have himask := ((recvBit_tidy s).imask hi).trans hi.symm
    refine ⟨_, rfl, by rw [hres]; rfl, hacc, ?_⟩
    rw [← hbus]
    exact (recvBit_frame s).ret_eq_of_served herr (hline.trans hl.symm) himask (recvBit_draws hok) _

/-! ### A bit whose slot does not come (R200, R201) -/

/-- Settles O32: the slot wait fails in the half that is stuck, and a failed slot wait only samples the line. -/
theorem stuckLineFailsTheBit : Obligations.StuckLineFailsTheBit := by
  intro s e ht hl
  have hdir : s.line.dir = false := congrArg Line.dir hl
  refine ⟨fun v => ?send, ?recv⟩
  case send =>
    obtain ⟨hok, herr, as, hacc, has⟩ := sendBit_stuck (v := v) ht hdir
    exact ⟨_, as, rfl, by rw [hok]; rfl, herr, hacc, has⟩
  case recv =>
    obtain ⟨hok, herr, as, hacc, has⟩ := recvBit_stuck ht hdir
    exact ⟨_, _, as, rfl, by rw [hok]; rfl, herr, hacc, has⟩

end Sys2Proof.Machine
end

section
/-! Searches by SEARCH_ROM (44_search): the walk over a current tree stands for the devices still in the search, and what
SEARCH_ROM does follows from where that walk ends. -/

namespace Sys2Proof.Machine

/-! ### The walk and the devices (R230, R232, R237, R238) -/

theorem occupied_ne_nil_of_activeAt {s : State} {ds : Nat → Bool} {p : Nat} (ha : s.activeAt ds p ≠ []) :
    s.occupied ≠ [] := by
  obtain ⟨i, hi⟩ := List.exists_mem_of_ne_nil _ ha
  exact List.ne_nil_of_mem (mem_activeAt.mp hi).1

/-- The representative is the lowest device still in the search. -/
theorem WalkAt.wrep_lowest {s t : State} {ds : Nat → Bool} {p : Nat} (h : WalkAt s ds p t) (hc : s.cfg.Valid) :
    LowestOf (s.activeAt ds p) t.wrep.toNat := by
  rw [h.wrep]
  exact minSlot_lowest hc.2.1 h.active

/-- The walk stops at an answer exactly if no device still in the search has it (R234). -/
theorem WalkAt.take_eq_none_iff {s t : State} {ds : Nat → Bool} {p : Nat} (h : WalkAt s ds p t) (hc : s.cfg.Valid)
    (hp : p < 64) : walkTake (ds p) t = none ↔ s.activeAt ds (p + 1) = [] := by
  rcases h.take hc.2.1 hp with ⟨hnil, hnone⟩ | ⟨u, hu, hat⟩
  · exact iff_of_true hnone hnil
  · exact iff_of_false (by rw [hu]; simp) hat.active

/-- At a position that is WTRIG the devices diverge, so WNODE has two children (R237). -/
theorem WalkAt.children {s t : State} {ds : Nat → Bool} {p : Nat} (h : WalkAt s ds p t) (hp : p < 64)
    (htrig : t.wpos = t.wtrig) : (t.nodeAt t.wnode).zero ≠ noChild ∧ (t.nodeAt t.wnode).one ≠ noChild := by
  have hd : WalkAt.Diverges s ds p := by
    by_contra hd
    exact (h.agreeing hp hd).1 htrig
  obtain ⟨-, zero, one, hnode, hzero, hone, -⟩ := h.diverging hp hd
  rw [h.nodeAt, hnode]
  exact ⟨hzero, hone⟩

/-- Settles O24: the walk that follows the answers stands for the devices that have them. -/
theorem walkSendsTheWiredPair : Obligations.WalkSendsTheWiredPair := by
  intro s ds p hc ht hp ha
  have hstart := walkAt_start ds ht hc (occupied_ne_nil_of_activeAt ha)
  obtain ⟨u, hu, hat⟩ := walkAt_follow p hstart hc.2.1 (by omega) (by rwa [Nat.zero_add])
  rw [Nat.zero_add] at hat
  exact ⟨u, hu, hat.wpos, hat.wrep_lowest hc, hat.pair hc.2.1 hp, hat.take_eq_none_iff hc hp⟩

/-- Settles O25: where the walk stands at its trigger the devices diverge; the dead branch is the definition's own. -/
theorem noChildIsUnreachable : Obligations.NoChildIsUnreachable := by
  refine ⟨fun s u ds p hc ht ho hp hu htrig => ?_, fun u => if_pos rfl⟩
  have hat := walkFollow_walkAt p (walkAt_start ds ht hc ho) hc.2.1 (by omega) hu
  exact hat.children (by omega) htrig

/-! ### The walk of SEARCH_ROM (R231, R257) -/

/-- `s` as SEARCH_ROM hands it to the steps of the walk: in Search, with the walk at the root. -/
abbrev searchEntry (s : State) : State := walkStart (goto .search s)

theorem searchEntry_accesses (s : State) : (searchEntry s).accesses = s.accesses := goto_accesses .search s

theorem walkAt_searchEntry {s : State} (ds : Nat → Bool) (hc : s.cfg.Valid) (ht : s.TreeCurrent)
    (ho : s.occupied ≠ []) : WalkAt s ds 0 (searchEntry s) :=
  (walkAt_start ds ht hc ho).of_regs rfl rfl rfl rfl rfl rfl rfl rfl

/-- Where the walk stands once the triplets before position p have been served (R238). -/
theorem searchEntry_served {s : State} {ds : Nat → Bool} {p : Nat} {script rest : List Draw} {as : List Access}
    (hc : s.cfg.Valid) (ht : s.TreeCurrent) (hp : p ≤ 64) (ha : s.activeAt ds p ≠ []) (hl : s.line = ⟨false, false⟩)
    (hs : s.SearchSlots ds p 0 script as) (hb : s.bus = script ++ rest) :
    ∃ u, walkSteps p (searchEntry s) = .done () u ∧ WalkAt s ds p u ∧ u.bus = rest ∧ u.line = ⟨false, false⟩ ∧
      u.err = s.err ∧ u.accesses = s.accesses ++ as := by
  obtain ⟨u, hw, hat, hbus, hline, herr, hacc⟩ :=
    walkSteps_served p rest (walkAt_searchEntry ds hc ht (occupied_ne_nil_of_activeAt ha)) hc.2.1 (by omega)
      (by rwa [Nat.zero_add]) hs hb hl
  rw [Nat.zero_add] at hat
  exact ⟨u, hw, hat, hbus, hline, herr, searchEntry_accesses s ▸ hacc⟩

/-- The walk ends with the first of its 64 steps that aborts (R234, R235). -/
theorem walkSteps_abort_at {s u v : State} {p : Nat} {code : ErrKind} (hp : p < 64) (hw : walkSteps p s = .done () u)
    (hstep : walkStep u = .abort code v) : walkSteps 64 s = .abort code v := by
  rw [show 64 = p + ((63 - p) + 1) by omega, walkSteps_add, hw]
  simp only [Proc.andThen, walkSteps, hstep]

/-! ### What SEARCH_ROM does where the walk ends (R236, R257, R305) -/

@[simp] theorem finishPoll_accesses (oc : PollOutcome) (reinit : Bool) (s : State) :
    (finishPoll oc reinit s).accesses = s.accesses :=
  (accesses_append s [.goto .idle] _ (finishPoll_trace ..)).trans (List.append_nil _)

/-- "Search mismatch" is coded exactly with CODED_PROTOCOL_ERRORS (R302). -/
theorem writesErr_searchMismatch (c : Config) : writesErr c .searchMismatch = c.codedProtocolErrors :=
  Bool.or_false _

theorem exec_searchRom_of_done {s u : State} (h : walkSteps 64 (searchEntry s) = .done () u) :
    exec .searchRom s = .next (finishPoll .searchDone true (u.setSel u.wrep)) := by
  simp only [exec, execSearchRom, searchWalk, h, Proc.andThen]

theorem exec_searchRom_of_abort {s u : State} {code : ErrKind} (h : walkSteps 64 (searchEntry s) = .abort code u) :
    exec .searchRom s = .next (raiseAbort code true u) := by
  simp only [exec, execSearchRom, searchWalk, h, Proc.andThen]

/-- What a walk that completes returns. -/
theorem searchDone_result {s u : State} (h : walkSteps 64 (searchEntry s) = .done () u) (v : Byte) :
    (finishPoll .searchDone true (u.setSel v)).result = s.pollResult 0x83 :=
  have hf := (walkSteps_frame 64 _).1 u h
  finishPoll_pollResult (t := u.setSel v) hf.running hf.result .searchDone true

/-- What SEARCH_ROM leaves where the walk aborts. -/
theorem exec_searchRom_aborts {s u : State} {code : ErrKind} (h : walkSteps 64 (searchEntry s) = .abort code u) :
    ∃ t, exec .searchRom s = .next t ∧ t.sel = s.sel ∧ t.fsm = .idle ∧ t.result = s.pollResult 0x82 ∧
      t.err = (if writesErr s.cfg code then code else u.err) ∧ t.bus = u.bus.tail ∧
      t.accesses = u.accesses ++ [.release] := by
  have hf := (walkSteps_frame 64 _).2 code u h
  have hcfg : u.cfg = s.cfg := hf.cfg
  exact ⟨_, exec_searchRom_of_abort h, (raiseAbort_sel ..).trans hf.sel, raiseAbort_fsm ..,
    raiseAbort_result hf.running hf.result code true, hcfg ▸ raiseAbort_err .., raiseAbort_bus ..,
    raiseAbort_accesses ..⟩

/-- Everything SEARCH_ROM leaves alone: the byte registers too, since a search moves single bits only. -/
theorem exec_searchRom_frame {s t : State} (h : exec .searchRom s = .next t) :
    t = { s with err := t.err, sel := t.sel, fsm := t.fsm, wpos := t.wpos, wnode := t.wnode, wrep := t.wrep,
                 wtrig := t.wtrig, line := t.line, imask := t.imask, bus := t.bus, time := t.time,
                 trace := t.trace, draws := t.draws, result := t.result } := by
  obtain ⟨hdone, habort⟩ := walkSteps_frame 64 (searchEntry s)
  cases hw : walkSteps 64 (searchEntry s) with
  | done a u =>
    cases (exec_searchRom_of_done hw).symm.trans h
    obtain ⟨_, _, _, _, _, ⟨_, _, _, _, _, _, _, rfl⟩, rfl⟩ := hdone u hw
    rw [finishPoll_eq]; rfl
  | abort code u =>
    cases (exec_searchRom_of_abort hw).symm.trans h
    obtain ⟨_, _, _, _, _, ⟨_, _, _, _, _, _, _, rfl⟩, rfl⟩ := habort code u hw
    rw [raiseAbort_eq, finishPoll_eq, releaseLine_eq]; rfl

/-! ### Identifier bits (R10, R12, R84 (c)) -/

/-- Bit p of n bytes is bit p mod 8 of byte p / 8: the bits in order are the bytes' own, each LSB first. -/
theorem bytesBits_eq_map_bitOf (byte : Nat → Byte) (n : Nat) :
    (List.range (8 * n)).map (bitOf byte) = bytesBits ((List.range n).map byte) := by
  induction n with
  | zero => rfl
  | succ n ih =>
    have hlast : (List.range 8).map (fun j => bitOf byte (8 * n + j)) = byteBits (byte n) := by
      refine List.map_congr_left fun j hj => ?_
      have hj := List.mem_range.mp hj
      rw [bitOf, show (8 * n + j) / 8 = n by omega, show (8 * n + j) % 8 = j by omega]
    calc (List.range (8 * (n + 1))).map (bitOf byte)
        = (List.range (8 * n)).map (bitOf byte) ++ (List.range 8).map (fun j => bitOf byte (8 * n + j)) := by
          rw [Nat.mul_succ, List.range_add, List.map_append, List.map_map]; rfl
      _ = bytesBits ((List.range n).map byte) ++ byteBits (byte n) := by rw [ih, hlast]
      _ = bytesBits ((List.range (n + 1)).map byte) := by rw [List.range_succ]; simp [bytesBits]

/-! ### The statements -/

/-- Settles O21: the device itself answers all of its bits, so the walk is served to its end and holds the lowest of the
devices that do. -/
theorem searchFindsEveryDevice : Obligations.SearchFindsEveryDevice := by
  intro s i script rest as hc ht hi ho hl hs hb
  refine ⟨bytesBits_eq_map_bitOf _ 8, ?_⟩
  have ha : s.activeAt (s.slotBit i) 64 ≠ [] := List.ne_nil_of_mem (mem_activeAt_self (mem_occupied.mpr ⟨hi, ho⟩) 64)
  obtain ⟨u, hw, hat, hbus, hline, herr, hacc⟩ := searchEntry_served hc ht (Nat.le_refl 64) ha hl hs hb
  refine ⟨_, exec_searchRom_of_done hw, ?_, ?_, finishPoll_fsm .., searchDone_result hw _, ?_, ?_, ?_⟩
  · simpa using hat.wrep_lowest hc
  · simpa using herr
  · simpa using hbus
  · simpa using hacc
  · simpa using hline

/-- Settles O22: the walk is served up to p, and its step there takes the answer for a mismatch. -/
theorem searchMismatchAborts : Obligations.SearchMismatchAborts := by
  intro s ds p script rest as hc ht hp ha hnone hl hs hb
  obtain ⟨before, asBefore, _, _, hbefore, ⟨triplet, asTriplet, _, _, htriplet, ⟨rfl, rfl⟩, rfl, rfl⟩, rfl, rfl⟩ :=
    SearchSlots_add p 1 0 hs
  rw [Nat.zero_add] at htriplet
  obtain ⟨u, hw, hat, hbus, hline, herr, hacc⟩ := searchEntry_served (rest := triplet ++ rest) hc ht hp.le ha hl hbefore
    (by rw [hb]; simp)
  rw [← hat.pair hc.2.1 hp, ← hat.cfg] at htriplet
  obtain ⟨v, hstep, -, hvbus, -, hverr, hvacc⟩ := walkStep_mismatch rest htriplet hbus hline
    fun w hw => ((hat.bitOnly hw).take_eq_none_iff hc hp).mpr hnone
  obtain ⟨t, hexec, hsel, hfsm, hres, hterr, htbus, htacc⟩ := exec_searchRom_aborts (walkSteps_abort_at hp hw hstep)
  refine ⟨t, hexec, hsel, hfsm, hres, ?_, htbus.trans (congrArg _ hvbus), ?_⟩
  · rw [hterr, writesErr_searchMismatch, hverr, herr]
  · rw [htacc, hvacc, hacc]; simp

/-- Settles O23: the walk over a current tree holds the lowest device with the received bits when it completes, and an
abort leaves the code of its cause. -/
theorem searchOutcomes : Obligations.SearchOutcomes := by
  intro s hc ht ho
  have hat := walkAt_searchEntry (fun _ => false) hc ht ho
  obtain ⟨ds, u, hw, hu, -, -, herr⟩ | ⟨code, u, hw, -, -, hcode⟩ := walkSteps_cases 64 hat hc.2.1 (Nat.le_refl 64)
  · have hexec := exec_searchRom_of_done hw
    refine ⟨_, hexec, finishPoll_fsm .., .inl ⟨searchDone_result hw _, ?_, ds, ?_⟩, exec_searchRom_frame hexec⟩
    · exact (finishPoll_err ..).trans herr
    · simpa using hu.wrep_lowest hc
  · obtain ⟨t, hexec, hsel, hfsm, hres, hterr, -⟩ := exec_searchRom_aborts hw
    refine ⟨t, hexec, hfsm, .inr ⟨hres, hsel, ?_⟩, exec_searchRom_frame hexec⟩
    obtain ⟨rfl, herr⟩ | ⟨rfl, htimeout⟩ := hcode
    · exact .inr (.inr (by rw [hterr, writesErr_searchMismatch, herr]; rfl))
    · rw [ite_self] at hterr
      rw [hterr]
      exact htimeout.imp_right .inl

/-- Settles O60: the walk is served up to p, and its step there stops at the slot that does not come. -/
theorem searchAbortsAtAFailedSlot : Obligations.SearchAbortsAtAFailedSlot := by
  intro s ds p m e script triplet tail as sent hc ht hp hm ha hl hs hsent hstuck hb
  obtain ⟨u, hw, hat, hbus, hline, -, hacc⟩ := searchEntry_served (rest := triplet ++ tail) hc ht hp.le ha hl hs
    (by rw [hb, List.append_assoc])
  rw [← hat.pair hc.2.1 hp, ← hat.cfg] at hsent
  obtain ⟨v, waits, hstep, -, hverr, hvacc, hwaits⟩ := walkStep_stuck hm hsent hbus hline (hat.cfg ▸ hstuck)
  obtain ⟨t, hexec, hsel, hfsm, hres, hterr, -, htacc⟩ := exec_searchRom_aborts (walkSteps_abort_at hp hw hstep)
  refine ⟨t, waits, hexec, hsel, hfsm, hres, ?_, ?_, hwaits⟩
  · rw [hterr, hverr, ite_self]
  · rw [htacc, hvacc, hacc]

end Sys2Proof.Machine
end

section
/-! The dispatcher as a whole (45_dispatcher R250 to R264): the ends of POLL, RUN and the ROM commands in one equation or
one case list each, what no step of RUN gives up, and the path every step takes through R250's table. -/

namespace Sys2Proof.Machine

/-! ### POLL's return (R252, R254, R264) -/

/-- POLL's return in one equation: inside RUN the result is kept as it was. -/
theorem returnPoll_eq (oc : PollOutcome) (reinit : Bool) (s : State) :
    returnPoll oc reinit s = { s with result := s.pollResult (pollByte oc reinit) } := by
  unfold returnPoll State.pollResult
  split <;> rfl

/-- Settles O12: with no device POLL clears ERR and returns. -/
theorem pollWithoutDevices : Obligations.PollWithoutDevices := by
  intro s hidle hcount
  rw [exec_poll hidle, pollBody_noDevices s hcount, returnPoll_eq]
  rfl

/-- Settles O20: each command passes through its own state to the end of the transaction. -/
theorem commandsWithoutOperands : Obligations.CommandsWithoutOperands := by
  intro s cmd
  refine ⟨congrArg Host.Outcome.next ?skipRom, congrArg Host.Outcome.next ?readRom, rfl,
    congrArg Host.Outcome.next ?unrecognized⟩
  case skipRom => exact finishPoll_eq .skipped false ((goto .skipRom s).setSel noneByte)
  case readRom => exact finishPoll_eq .unrecognized false (goto .readRom s)
  case unrecognized => exact finishPoll_eq .unrecognized false (goto .unrecognized s)

/-- The return of a duty in one equation (R262 (d)). -/
theorem dutyReturn_eq (s : State) : dutyReturn s = { s with
    fsm := .idle, trace := .goto .idle :: s.trace
    result := s.pollResult (if s.err = .noError then 0x04 else 0x02) } := by
  rw [dutyReturn, finishPoll_eq]
  split <;> rfl

/-- Settles O28: the return is the end of a transaction; taking it off the running duty writes the list of acts only. -/
theorem dutyReturnEndsTheTransaction : Obligations.DutyReturnEndsTheTransaction := by
  intro s rest hduty hacts
  refine ⟨_, step_of_fetch_dutyReturns (fetch_duty_ret hduty hacts), ?_⟩
  rw [dutyReturn_eq]
  exact ⟨rfl, rfl, rfl⟩

/-! ### MATCH_ROM (R256, R258) -/

theorem MatchOnly.eq {s t : State} (h : MatchOnly s t) :
    t = { s with err := t.err, sel := t.sel, fsm := t.fsm, tshift := t.tshift, tbit := t.tbit, maddr := t.maddr,
                 line := t.line, imask := t.imask, bus := t.bus, time := t.time, trace := t.trace,
                 draws := t.draws, result := t.result } := by
  obtain ⟨_, _, ⟨_, _, _, _, _, _, _, _, _, _, _, _, rfl⟩, rfl⟩ := h
  rfl

/-- Settles O27: the matched slot is one whose identifier is the received address, and an abort leaves SEL alone and the
code of its cause in ERR. -/
theorem matchRomOutcomes : Obligations.MatchRomOutcomes := by
  intro s
  obtain ⟨t, hexec, hframe, -, hend⟩ := execMatchRom_cases s
  refine ⟨t, hexec, ?_, hframe.eq⟩
  obtain ⟨u, i, -, hmatched, rfl, herr, haddr, -⟩ | ⟨code, u, rfl, hsel, hres, hrun, hcfg, -, hcode⟩ := hend
  · obtain ⟨hi, hmatch⟩ := matchedSlot_eq_some hmatched
    obtain ⟨hocc, hid⟩ := (matchesAddress_iff (s := s) haddr.slots haddr.devices i).mp hmatch
    exact .inl ⟨goto_fsm .., herr, haddr.result, i, lt_of_lt_of_eq hi (congrArg Config.nMax haddr.cfg), rfl, hocc, hid⟩
  · refine .inr ⟨raiseAbort_fsm .., (raiseAbort_sel ..).trans hsel, raiseAbort_result hrun hres code false, ?_⟩
    rw [raiseAbort_err]
    obtain ⟨rfl, herr, -⟩ | ⟨rfl, htimeout⟩ := hcode
    · exact .inr (.inr (by rw [writesErr_noAddressMatch, hcfg, herr]))
    · rw [ite_self]
      exact htimeout.imp_right .inl

/-! ### Inside RUN (R264) -/

/-- `t` is inside RUN exactly if `s` is, with the same requests of the host still to come. -/
structure KeepsHost (s t : State) : Prop where
  running : t.running = s.running
  host : t.host = s.host

theorem TransportOnly.keepsHost {s t : State} (h : TransportOnly s t) : KeepsHost s t := ⟨h.running, h.host⟩

theorem BufferOnly.keepsHost {s t : State} (h : BufferOnly s t) : KeepsHost s t := ⟨h.running, h.host⟩

theorem PollOnly.keepsHost {s t : State} (h : PollOnly s t) : KeepsHost s t := by
  obtain ⟨_, _, _, _, _, _, _, _, _, _, _, _, rfl⟩ := h
  exact ⟨rfl, rfl⟩

theorem SearchOnly.keepsHost {s t : State} (h : SearchOnly s t) : KeepsHost s t := by
  obtain ⟨u, _, _, _, _, hu, rfl⟩ := h
  exact { hu.keepsHost with }

theorem MatchOnly.keepsHost {s t : State} (h : MatchOnly s t) : KeepsHost s t := by
  obtain ⟨u, _, hu, rfl⟩ := h
  exact { hu.keepsHost with }

theorem KeepsHost.ret {s t : State} (h : KeepsHost s t) (r : Result) : KeepsHost s (t.ret r) := { h with }

/-- No instruction takes a request of the host, and inside RUN none leaves it. -/
theorem exec_keepsHost {i : Instr} {s t : State} (hr : s.running = true) (h : exec i s = .next t) : KeepsHost s t := by
  cases exec_cases h with
  | operated r _ hu => exact hu.keepsHost.ret r
  | received hb => exact (recvBytes_frame hb).keepsHost.ret _
  | attached => exact ⟨rfl, rfl⟩
  | detached => exact ⟨rfl, rfl⟩
  | polled => exact (pollBody_poll s).keepsHost
  | ran =>
    obtain ⟨hrun, hhost⟩ := (pollBody_poll (s.setRunning true)).keepsHost
    exact ⟨hrun.trans hr.symm, hhost⟩
  | searched h =>
    obtain ⟨_, e, hs, -⟩ := execSearchRom_cases s
    cases h.symm.trans e
    exact hs.keepsHost
  | matched h =>
    obtain ⟨_, e, hs, -⟩ := execMatchRom_cases s
    cases h.symm.trans e
    exact hs.keepsHost
  | skipped => exact ⟨finishPoll_running .., finishPoll_host ..⟩
  | ignored => exact ⟨finishPoll_running .., finishPoll_host ..⟩

/-- Inside RUN a step takes no request of the host, and RUN goes on. -/
theorem step_keepsHost {s t : State} (hr : s.running = true) (h : step s = .next t) : KeepsHost s t := by
  cases step_cases h with
  | waited _ hn => exact absurd hr (by simp [hn])
  | polled _ _ ht => exact exec_keepsHost hr ht
  | request _ _ _ _ hn => exact absurd hr (by simp [hn])
  | command _ ht => exact exec_keepsHost hr ht
  | called _ _ _ _ _ _ ht =>
    obtain ⟨hrun, hhost⟩ := exec_keepsHost (s := popDuty s) hr ht
    exact ⟨hrun, hhost⟩
  | returned _ _ _ ht => exact ht ▸ ⟨finishPoll_running .., finishPoll_host ..⟩

theorem pollResult_of_running {s : State} (hr : s.running = true) (b : Byte) : s.pollResult b = s.result := if_pos hr

/-- Inside RUN the result of every poll is discarded. -/
theorem pollBody_result_of_running {s : State} (hr : s.running = true) : (pollBody s).result = s.result := by
  by_cases hc : s.count = 0
  · rw [pollBody_noDevices s hc, returnPoll_eq]
    exact pollResult_of_running hr _
  · obtain ⟨-, -, ⟨-, -, -, hres, -⟩ | ⟨-, -, -, -, hres, -⟩ | ⟨-, hres, -⟩⟩ := pollBody_cases s hc
    · exact hres.trans (pollResult_of_running hr _)
    · exact hres
    · exact hres.trans (pollResult_of_running hr _)

theorem pollBody_accesses_noDevices {s : State} (hc : s.count = 0) : (pollBody s).accesses = s.accesses := by
  rw [pollBody_noDevices s hc, returnPoll_eq]
  rfl

/-- Settles O18: RUN is a poll with the flag set, and inside RUN every step keeps the flag and the host's requests. -/
theorem runPollsForever : Obligations.RunPollsForever := by
  refine ⟨fun s hidle => ?_, fun s hr hidle => step_of_fetch_instr (fetch_idle_running hidle hr), fun s t hr h => ?_,
    fun s hbusy => if_neg hbusy⟩
  · refine ⟨pollBody (s.setRunning true), if_pos hidle, exec_poll (s := s.setRunning true) hidle, ?_, ?_, fun hc => ?_⟩
    · exact (pollBody_poll (s.setRunning true)).running
    · exact pollBody_result_of_running (s := s.setRunning true) rfl
    · exact pollBody_accesses_noDevices (s := s.setRunning true) hc
  · obtain ⟨hrun, hhost⟩ := step_keepsHost hr h
    exact ⟨hrun.trans hr, hhost⟩

/-! ### The table of transitions (R250) -/

theorem Fsm.Path.nil (a : Fsm) : a.Path [] a := ⟨.singleton a, rfl⟩

theorem Fsm.Path.cons {a b c : Fsm} {sts : List Fsm} (hab : a.mayGoTo b = true) (h : b.Path sts c) :
    a.Path (b :: sts) c :=
  ⟨.cons_cons hab h.1, h.2⟩

/-- The transitions recorded from `s` to `t` are a path of R250's table. -/
def FollowsTable (s t : State) : Prop := ∃ sts, t.gotos = s.gotos ++ sts ∧ s.fsm.Path sts t.fsm

/-- No transition, and the same state. -/
theorem FollowsTable.of_still {s t : State} (hg : t.gotos = s.gotos) (hf : t.fsm = s.fsm) : FollowsTable s t :=
  ⟨[], by rw [hg, List.append_nil], by rw [hf]; exact .nil _⟩

/-! #### The host's operations make no transition, but for POLL and RUN -/

theorem Tidy.ret {s t : State} (h : Tidy s t) (r : Result) : Tidy s (t.ret r) := h.trans (.of_eq rfl rfl rfl)

theorem attachBody_tidy (h : Handle) (s : State) : Tidy s (attachBody h s) := by
  obtain ⟨_, e⟩ | ⟨_, -, -, e⟩ := attachBody_cases h s <;> rw [e] <;> exact .of_eq rfl rfl rfl

theorem detachDevBody_tidy (h : Handle) (s : State) : Tidy s (detachDevBody h s) := by
  obtain ⟨_, e⟩ | ⟨_, -, -, e⟩ := detachDevBody_cases h s <;> rw [e] <;> exact .of_eq rfl rfl rfl

theorem detachSlotBody_tidy (i : Byte) (s : State) : Tidy s (detachSlotBody i s) := by
  obtain ⟨_, e⟩ | ⟨_, -, -, e⟩ := detachSlotBody_cases i s <;> rw [e] <;> exact .of_eq rfl rfl rfl

theorem exec_getSlot_next {j : Byte} {s t : State} (h : exec (.getSlot j) s = .next t) : ∃ r, t = s.ret r := by
  simp only [exec, execGetSlot] at h
  split at h
  · cases h; exact ⟨_, rfl⟩
  · cases h

/-- A CRC that is not refused only answers (R141, R143). -/
theorem exec_crc_next {i : Instr} {addr : Nat} {len : Half} {s t : State}
    (hi : i = .crc8 addr len ∨ i = .crc16 addr len) (h : exec i s = .next t) : ∃ r, t = s.ret r := by
  cases hr : s.mem.readRange addr len.toNat with
  | error a => obtain rfl | rfl := hi <;> simp [exec, execCrc8, execCrc16, hr] at h
  | ok bytes =>
    obtain rfl | rfl := hi
    · exact ⟨_, Host.Outcome.next.inj (h.symm.trans (exec_crc8_of_readRange hr))⟩
    · exact ⟨_, Host.Outcome.next.inj (h.symm.trans (exec_crc16_of_readRange hr))⟩

theorem exec_host_tidy {i : Instr} {s t : State} (h : exec i s = .next t) (hi : i.stream = .host) (hpoll : i ≠ .poll)
    (hrun : i ≠ .run) : Tidy s t := by
  cases i with
  | searchRom | matchRom | skipRom | readRom | readRomLegacy | unrecognized => cases hi
  | poll => exact absurd rfl hpoll
  | run => exact absurd rfl hrun
  | attach d => obtain ⟨-, rfl⟩ := whenIdle_eq_next h; exact attachBody_tidy d s
  | detachDev d => obtain ⟨-, rfl⟩ := whenIdle_eq_next h; exact detachDevBody_tidy d s
  | detachSlot j => obtain ⟨-, rfl⟩ := whenIdle_eq_next h; exact detachSlotBody_tidy j s
  | getError | getSelected | getCount | makeId => cases h; exact (Tidy.refl s).ret _
  | getSlot => obtain ⟨r, rfl⟩ := exec_getSlot_next h; exact (Tidy.refl s).ret r
  | crc8 => obtain ⟨r, rfl⟩ := exec_crc_next (.inl rfl) h; exact (Tidy.refl s).ret r
  | crc16 => obtain ⟨r, rfl⟩ := exec_crc_next (.inr rfl) h; exact (Tidy.refl s).ret r
  | sendBit v => cases h; exact (sendBit_tidy v s).ret _
  | recvBit => cases h; exact (recvBit_tidy s).ret _
  | sendByte b => cases h; exact (sendByte_tidy b s).ret _
  | recvByte => cases h; exact (recvByte_tidy s).ret _
  | sendBuf => obtain ⟨_, hr, rfl⟩ := exec_sendBuf_next h; exact (sendBytes_tidy hr).ret _
  | recvBuf => obtain ⟨_, hr, rfl⟩ := exec_recvBuf_next h; exact (recvBytes_tidy hr).ret _

theorem exec_host_followsTable {i : Instr} {s t : State} (h : exec i s = .next t) (hi : i.stream = .host)
    (hpoll : i ≠ .poll) (hrun : i ≠ .run) : FollowsTable s t := by
  refine .of_still (exec_host_tidy h hi hpoll hrun).gotos ?_
  cases exec_cases h with
  | operated _ _ hu => exact hu.fsm
  | received hr => exact (recvBytes_frame hr).fsm
  | attached => rfl
  | detached => rfl
  | polled => exact absurd rfl hpoll
  | ran => exact absurd rfl hrun
  | searched | matched | skipped => cases hi
  | ignored _ hbus => exact nomatch hi.symm.trans hbus

/-! #### POLL and the ROM commands -/

/-- A transaction that aborts while it is opened goes back to Idle from where it was (R186, R191, R256). -/
theorem AbortedIn.path {sts : List Fsm} {code : ErrKind} {sel sel' : Byte} (h : AbortedIn sts code sel sel') :
    Fsm.idle.Path (sts ++ [.idle]) .idle := by
  obtain ⟨rfl, -⟩ | ⟨rfl, -⟩ | ⟨rfl, -⟩ := h
  · exact .cons rfl (.cons rfl (.nil _))
  · exact .cons rfl (.cons rfl (.cons rfl (.nil _)))
  · exact .cons rfl (.cons rfl (.cons rfl (.cons rfl (.nil _))))

theorem pollBody_followsTable {s : State} (hidle : s.fsm = .idle) : FollowsTable s (pollBody s) := by
  by_cases hc : s.count = 0
  · rw [pollBody_noDevices s hc, returnPoll_eq]
    exact .of_still rfl rfl
  · rw [FollowsTable, hidle]
    obtain ⟨-, -, ⟨hf, -, -, -, hg⟩ | ⟨hf, -, -, -, -, hg⟩ | ⟨hf, -, sts, habort, hg⟩⟩ := pollBody_cases s hc
      <;> rw [hf, hg]
    · exact ⟨_, rfl, .cons rfl (.cons rfl (.nil _))⟩
    · exact ⟨_, rfl, .cons rfl (.cons rfl (.cons rfl (.nil _)))⟩
    · exact ⟨_, List.append_assoc .., habort.path⟩

theorem searchRom_followsTable {s t : State} (hf : s.fsm = .commandReceive) (h : exec .searchRom s = .next t) :
    FollowsTable s t := by
  obtain ⟨_, e, -, -, hidle, hg, -⟩ := execSearchRom_cases s
  cases h.symm.trans e
  exact ⟨_, hg, by rw [hf, hidle]; exact .cons rfl (.cons rfl (.nil _))⟩

theorem matchRom_followsTable {s t : State} (hf : s.fsm = .commandReceive) (h : exec .matchRom s = .next t) :
    FollowsTable s t := by
  obtain ⟨_, e, -, -, ⟨u, i, -, -, rfl, -, -, hg⟩ | ⟨code, u, rfl, -, -, -, -, hg, -⟩⟩ := execMatchRom_cases s
    <;> cases h.symm.trans e <;> rw [FollowsTable, hf]
  · refine ⟨[.matchRom, .duty], ?_, .cons rfl (.cons rfl (.nil _))⟩
    have hsel : (u.setSel (BitVec.ofNat 8 i)).gotos = u.gotos := rfl
    rw [goto_gotos, hsel, hg, List.append_assoc]; rfl
  · refine ⟨[.matchRom, .idle], ?_, ?_⟩
    · rw [raiseAbort_gotos, hg, List.append_assoc]; rfl
    · rw [raiseAbort_fsm]; exact .cons rfl (.cons rfl (.nil _))

/-- A command that only passes through its state `st`. -/
theorem finishPoll_followsTable {s u : State} {st : Fsm} (hf : s.fsm = .commandReceive)
    (hto : Fsm.commandReceive.mayGoTo st = true) (hback : st.mayGoTo .idle = true)
    (hg : u.gotos = s.gotos ++ [st]) (oc : PollOutcome) : FollowsTable s (finishPoll oc false u) := by
  refine ⟨[st, .idle], ?_, ?_⟩
  · rw [finishPoll_gotos, hg, List.append_assoc]; rfl
  · rw [hf, finishPoll_fsm]; exact .cons hto (.cons hback (.nil _))

/-- A ROM command leads from CommandReceive through its state, a host operation from where the host or the duty calls it. -/
theorem exec_followsTable {i : Instr} {s t : State} (hbus : i.stream = .bus → s.fsm = .commandReceive)
    (h : exec i s = .next t) : FollowsTable s t := by
  cases i with
  | searchRom => exact searchRom_followsTable (hbus rfl) h
  | matchRom => exact matchRom_followsTable (hbus rfl) h
  | skipRom =>
    cases h
    exact finishPoll_followsTable (u := (goto .skipRom s).setSel noneByte) (hbus rfl) rfl rfl (goto_gotos ..) _
  | readRom | readRomLegacy | unrecognized =>
    cases h
    exact finishPoll_followsTable (hbus rfl) rfl rfl (goto_gotos ..) _
  | poll => obtain ⟨hidle, rfl⟩ := whenIdle_eq_next h; exact pollBody_followsTable hidle
  | run => obtain ⟨hidle, rfl⟩ := whenIdle_eq_next h; exact pollBody_followsTable (s := s.setRunning true) hidle
  | _ => exact exec_host_followsTable h rfl nofun nofun

theorem exec_followsTable_of_host {i : Instr} {s t : State} (hi : i.stream = .host) (h : exec i s = .next t) :
    FollowsTable s t :=
  exec_followsTable (fun hbus => nomatch hi.symm.trans hbus) h

theorem dutyReturn_followsTable {s : State} (hduty : s.fsm = .duty) : FollowsTable s (dutyReturn s) := by
  refine ⟨[.idle], finishPoll_gotos .., ?_⟩
  rw [hduty, dutyReturn, finishPoll_fsm]
  exact .cons rfl (.nil _)

/-- Settles O56: a step runs an instruction of the stream whose turn it is, waits where it is, or leaves Duty. -/
theorem fsmFollowsItsTable : Obligations.FsmFollowsItsTable := by
  intro s t _ h
  cases step_cases h with
  | waited _ _ _ ht => exact ht ▸ FollowsTable.of_still rfl rfl
  | polled _ _ ht => exact exec_followsTable_of_host rfl ht
  | request _ _ rest _ _ _ hd ht => exact exec_followsTable_of_host (s := s.setHost rest) (decode_host_stream hd) ht
  | command hf ht => exact exec_followsTable (fun _ => hf) ht
  | called _ _ _ _ _ hd ht => exact exec_followsTable_of_host (s := popDuty s) (decode_host_stream hd) ht
  | returned _ hf _ ht => exact ht ▸ dutyReturn_followsTable (s := popDuty s) hf

end Sys2Proof.Machine
end

section
/-! The slot table and host inspection (46_slot_table): one equation for each outcome of the host's operations on the
table, and the inversion of a refusal, which says for what reasons an instruction is refused. -/

namespace Sys2Proof.Machine

/-! ### Refusals (R287, R288, 60_exceptions R313) -/

/-- The operations that a transaction in progress refuses (R288). -/
inductive NeedsIdle : Instr → Prop where
  | poll : NeedsIdle .poll
  | run : NeedsIdle .run
  | attach (h : Handle) : NeedsIdle (.attach h)
  | detachDev (h : Handle) : NeedsIdle (.detachDev h)
  | detachSlot (j : Byte) : NeedsIdle (.detachSlot j)

theorem NeedsIdle.exec_eq {i : Instr} (hi : NeedsIdle i) (s : State) : ∃ u, exec i s = whenIdle s u := by
  cases hi <;> exact ⟨_, rfl⟩

theorem NeedsIdle.exec_of_busy {i : Instr} (hi : NeedsIdle i) {s : State} (hbusy : s.fsm ≠ .idle) :
    exec i s = .refused .duringTransaction := by
  obtain ⟨u, hu⟩ := hi.exec_eq s
  exact hu.trans (if_neg hbusy)

theorem whenIdle_eq_refused {s u : State} {r : Refusal} (h : whenIdle s u = .refused r) :
    s.fsm ≠ .idle ∧ r = .duringTransaction := by
  unfold whenIdle at h
  split at h
  · cases h
  · next hbusy => cases h; exact ⟨hbusy, rfl⟩

theorem exec_getSlot_of_lt {s : State} {j : Byte} (hj : j.toNat < s.cfg.nMax) :
    exec (.getSlot j) s = .next (s.ret (.slot (s.slotAt j.toNat))) := if_pos hj

theorem exec_getSlot_of_le {s : State} {j : Byte} (hj : s.cfg.nMax ≤ j.toNat) :
    exec (.getSlot j) s = .refused (.noSuchSlot j) := if_neg (Nat.not_lt.mpr hj)

/-- Why an instruction is refused. -/
inductive ExecRefused (s : State) : Instr → Refusal → Prop where
  | busy {i : Instr} (hi : NeedsIdle i) (hbusy : s.fsm ≠ .idle) : ExecRefused s i .duringTransaction
  | noSuchSlot {j : Byte} (hj : s.cfg.nMax ≤ j.toNat) : ExecRefused s (.getSlot j) (.noSuchSlot j)
  | outside {i : Instr} {addr a : Nat} {len : Half} (hi : IsBufferOp addr len i) (hn : s.mem.read a = none) :
      ExecRefused s i (.outsideBuffer a)

theorem NeedsIdle.refused {i : Instr} (hi : NeedsIdle i) {s : State} {r : Refusal} (h : exec i s = .refused r) :
    ExecRefused s i r := by
  obtain ⟨u, hu⟩ := hi.exec_eq s
  obtain ⟨hbusy, rfl⟩ := whenIdle_eq_refused (hu.symm.trans h)
  exact .busy hi hbusy

theorem IsBufferOp.refused {i : Instr} {addr : Nat} {len : Half} (hi : IsBufferOp addr len i) {s : State} {r : Refusal}
    (h : exec i s = .refused r) : ExecRefused s i r := by
  obtain ⟨t, ht⟩ | ⟨j, -, hr, hn⟩ := hi.cases s
  · exact nomatch h.symm.trans ht
  · cases h.symm.trans hr
    exact .outside hi hn

/-- A search and an address end in a next state on every line; the rest of what is not named here only answers. -/
theorem exec_refused_cases {i : Instr} {s : State} {r : Refusal} (h : exec i s = .refused r) : ExecRefused s i r := by
  cases i with
  | poll => exact NeedsIdle.refused .poll h
  | run => exact NeedsIdle.refused .run h
  | attach d => exact NeedsIdle.refused (.attach d) h
  | detachDev d => exact NeedsIdle.refused (.detachDev d) h
  | detachSlot j => exact NeedsIdle.refused (.detachSlot j) h
  | getSlot j =>
    obtain hj | hj := Nat.lt_or_ge j.toNat s.cfg.nMax
    · exact nomatch h.symm.trans (exec_getSlot_of_lt hj)
    · cases h.symm.trans (exec_getSlot_of_le hj)
      exact .noSuchSlot hj
  | sendBuf => exact IsBufferOp.refused (.inl rfl) h
  | recvBuf => exact IsBufferOp.refused (.inr (.inl rfl)) h
  | crc8 => exact IsBufferOp.refused (.inr (.inr (.inl rfl))) h
  | crc16 => exact IsBufferOp.refused (.inr (.inr (.inr rfl))) h
  | searchRom =>
    obtain ⟨_, ht, -⟩ := execSearchRom_cases s
    exact nomatch h.symm.trans ht
  | matchRom =>
    obtain ⟨_, ht, -⟩ := execMatchRom_cases s
    exact nomatch h.symm.trans ht
  | skipRom | readRom | readRomLegacy | unrecognized | getError | getSelected | getCount | sendBit | recvBit | sendByte
  | recvByte | makeId => cases h

/-! ### ATTACH (R281) -/

theorem slotOf_absent {s : State} {h : Handle} (habsent : ∀ i < s.cfg.nMax, s.slotAt i ≠ some h) :
    s.slotOf h = none :=
  List.find?_eq_none.mpr fun i hi => by simpa using habsent i (List.mem_range.mp hi)

theorem freeSlot_full {s : State} (hfull : ∀ i < s.cfg.nMax, s.slotAt i ≠ none) : s.freeSlot = none :=
  List.find?_eq_none.mpr fun i hi => by simpa using hfull i (List.mem_range.mp hi)

section
variable {s : State} {h : Handle} {i : Nat} (hidle : s.fsm = .idle)
include hidle

theorem exec_attach : exec (.attach h) s = .next (attachBody h s) := if_pos hidle

theorem exec_attach_of_attached (hi : s.slotOf h = some i) :
    exec (.attach h) s = .next (s.ret (.byte (BitVec.ofNat 8 i))) := by
  rw [exec_attach hidle, attachBody, hi]

theorem exec_attach_of_full (hn : s.slotOf h = none) (hfull : s.freeSlot = none) :
    exec (.attach h) s = .next (s.ret (.byte noneByte)) := by
  rw [exec_attach hidle, attachBody, hn, hfull]

theorem exec_attach_of_free (hn : s.slotOf h = none) (hi : s.freeSlot = some i) :
    exec (.attach h) s = .next
      ((build ((s.setSlot i (some h)).setCount (s.count + 1))).ret (.byte (BitVec.ofNat 8 i))) := by
  rw [exec_attach hidle, attachBody, hn, hi]

/-! ### DETACH_DEV and DETACH_SLOT (R282, R283) -/

theorem exec_detachDev : exec (.detachDev h) s = .next (detachDevBody h s) := if_pos hidle

theorem exec_detachDev_of_attached (hi : s.slotOf h = some i) :
    exec (.detachDev h) s = .next ((emptySlot i s).ret (.byte detachOk)) := by
  rw [exec_detachDev hidle, detachDevBody, hi]

theorem exec_detachDev_of_absent (hn : s.slotOf h = none) :
    exec (.detachDev h) s = .next (s.ret (.byte detachNotFound)) := by
  rw [exec_detachDev hidle, detachDevBody, hn]

theorem exec_detachSlot (j : Byte) : exec (.detachSlot j) s = .next (detachSlotBody j s) := if_pos hidle

theorem exec_detachSlot_of_occupied {j : Byte} (hj : j.toNat < s.cfg.nMax) (hocc : s.slotAt j.toNat ≠ none) :
    exec (.detachSlot j) s = .next ((emptySlot j.toNat s).ret (.byte detachOk)) := by
  rw [exec_detachSlot hidle, detachSlotBody, if_neg (not_or.mpr ⟨Nat.not_le.mpr hj, hocc⟩)]

theorem exec_detachSlot_of_notFound {j : Byte} (hj : s.cfg.nMax ≤ j.toNat ∨ s.slotAt j.toNat = none) :
    exec (.detachSlot j) s = .next (s.ret (.byte detachNotFound)) := by
  rw [exec_detachSlot hidle, detachSlotBody, if_pos hj]

end

/-! ### The statements -/

/-- Settles O49: the lowest slot that holds the handle and the lowest free slot decide between the three outcomes. -/
theorem attachTakesTheLowestFreeSlot : Obligations.AttachTakesTheLowestFreeSlot := by
  intro s h hidle
  refine ⟨fun i hi hat hlow => ?attached, fun hfull => ?full, fun i hi habsent hfree hlow => ?free⟩
  case attached => exact exec_attach_of_attached hidle (slotOf_first hi hat hlow)
  case full =>
    exact exec_attach_of_full hidle (slotOf_absent fun i hi => (hfull i hi).1)
      (freeSlot_full fun i hi => (hfull i hi).2)
  case free =>
    exact ⟨_, exec_attach_of_free hidle (slotOf_absent habsent) (freeSlot_first hi hfree hlow),
      build_treeCurrent _, rfl⟩

/-- Settles O50: by handle or by index, the slot the two detaches find is the same, and so is what they do to it. -/
theorem detachEmptiesTheSlot : Obligations.DetachEmptiesTheSlot := by
  intro s hidle
  refine ⟨fun h i hi hmax hat hlow => ?occupied, fun h habsent => ?absent, fun j hj => ?notFound⟩
  case occupied =>
    have hindex : (BitVec.ofNat 8 i).toNat = i := by
      rw [BitVec.toNat_ofNat, Nat.mod_eq_of_lt (by omega)]
    have hslot := exec_detachSlot_of_occupied (j := BitVec.ofNat 8 i) hidle (by rwa [hindex]) (by simp [hindex, hat])
    rw [hindex] at hslot
    exact ⟨_, exec_detachDev_of_attached hidle (slotOf_first hi hat hlow), hslot, build_treeCurrent _, rfl⟩
  case absent => exact exec_detachDev_of_absent hidle (slotOf_absent habsent)
  case notFound => exact exec_detachSlot_of_notFound hidle hj

/-- Settles O19: a refusal for this reason is one of an operation that needs Idle. -/
theorem refusedDuringATransaction : Obligations.RefusedDuringATransaction := by
  intro s h j hbusy
  refine ⟨NeedsIdle.poll.exec_of_busy hbusy, NeedsIdle.run.exec_of_busy hbusy, (NeedsIdle.attach h).exec_of_busy hbusy,
    (NeedsIdle.detachDev h).exec_of_busy hbusy, (NeedsIdle.detachSlot j).exec_of_busy hbusy,
    fun i hpoll hrun hattach hdev hslot hrefused => ?_⟩
  cases exec_refused_cases hrefused with
  | busy hi =>
    cases hi with
    | poll => exact hpoll rfl
    | run => exact hrun rfl
    | attach g => exact hattach g rfl
    | detachDev g => exact hdev g rfl
    | detachSlot k => exact hslot k rfl

/-- Settles O51: the reads only answer, and of the four only GET_SLOT has an operand to refuse. -/
theorem inspectionReadsTheState : Obligations.InspectionReadsTheState :=
  ⟨fun _ _ => ⟨rfl, rfl, rfl, exec_getSlot_of_lt, exec_getSlot_of_le⟩, rfl, rfl, rfl, rfl, rfl, rfl, rfl⟩

end Sys2Proof.Machine
end

section
/-! Construction, the power cycle and the device objects (70_reset_and_hazards R330 to R340): the constructed state, and
what the host's doings beside the instructions leave as it was. -/

namespace Sys2Proof.Machine

/-! ### Construction (R330, R331) -/

theorem construct_of_valid {c : Config} (hc : c.Valid) : construct c = .next (State.init c) := if_pos hc

theorem construct_of_invalid {c : Config} (hc : ¬c.Valid) : construct c = .refused .badParameters := if_neg hc

theorem construct_eq_next {c : Config} {t : State} (h : construct c = .next t) : t = State.init c := by
  unfold construct at h
  split at h
  · cases h; rfl
  · cases h

@[simp] theorem init_slotAt (c : Config) (i : Nat) : (State.init c).slotAt i = none :=
  Option.join_eq_none_iff.mpr <| by
    simp only [State.init, List.getElem?_replicate]
    split <;> simp

@[simp] theorem init_occupied (c : Config) : (State.init c).occupied = [] := by
  simp [State.occupied]

/-- The tree of a constructed core is the build of the empty table: the cleared arena (R170). -/
theorem init_treeCurrent (c : Config) : (State.init c).TreeCurrent := by
  unfold State.TreeCurrent
  rw [init_occupied]
  rfl

theorem init_inv {c : Config} (hc : c.Valid) : (State.init c).Inv where
  cfgValid := hc
  slotsLength := List.length_replicate
  slotsDistinct := fun i _ _ hi => nomatch (init_slotAt c i).symm.trans hi
  countOccupied := by rw [init_occupied]; rfl
  treeCurrent := init_treeCurrent c
  selOccupied := .inl rfl
  released := rfl
  unmasked := rfl
  boundary := .inl rfl
  busyHasDevice := fun hbusy => absurd rfl hbusy
  commandUnselected := nofun
  dutySelected := nofun
  memWf := .nil
  accessesMasked := fun _ _ _ hm => nomatch hm

/-- Settles O7: the constructed state is `State.init`, whose lists repeat one value each. -/
theorem constructionGivesTheResetState : Obligations.ConstructionGivesTheResetState := by
  intro c
  refine ⟨construct_of_invalid, fun hc => ⟨State.init c, construct_of_valid hc, ?_⟩⟩
  refine ⟨rfl, rfl, rfl, rfl, rfl, rfl, rfl, List.length_replicate, fun n hn => ?entry, List.length_replicate,
    fun h hh => List.eq_of_mem_replicate hh, rfl, rfl, nofun, init_treeCurrent c⟩
  case entry =>
    rw [List.eq_of_mem_replicate hn]
    rfl

/-- Settles O10: the test parameters of `State.reset` are valid. -/
theorem constructionSatisfiesInv : Obligations.ConstructionSatisfiesInv :=
  ⟨fun _ hc => init_inv hc, init_inv (by decide)⟩

/-! ### The power cycle (R333) -/

/-- Settles O8: the registers are those of `State.init`, and so is the table. -/
theorem powerCycleEmptiesTheTable : Obligations.PowerCycleEmptiesTheTable := by
  intro s t ht
  rw [construct_eq_next ht]
  exact ⟨init_slotAt s.cfg, rfl, rfl, rfl, rfl, rfl, rfl, rfl, rfl, rfl, rfl, rfl⟩

/-! ### Device objects (R335, R340) -/

theorem slotOf_isSome_of_attached {s : State} {h : Handle} {i : Nat} (hi : i < s.cfg.nMax)
    (hat : s.slotAt i = some h) : (s.slotOf h).isSome := by
  cases hs : s.slotOf h with
  | some j => rfl
  | none => exact absurd hat (slotOf_eq_none hs i hi)

theorem putDevice_of_attached {s : State} {h : Handle} (hs : (s.slotOf h).isSome) (id : Ident) :
    putDevice h id s = .refused (.deviceAttached h) := if_pos hs

theorem destroyDevice_of_attached {s : State} {h : Handle} (hs : (s.slotOf h).isSome) :
    destroyDevice h s = .refused (.deviceAttached h) := if_pos hs

theorem putDevice_eq_next {s t : State} {h : Handle} {id : Ident} (ht : putDevice h id s = .next t) :
    s.slotOf h = none ∧ t = { s with devices := (h, id) :: s.devices.filter fun d => d.1 != h } := by
  unfold putDevice at ht
  split at ht
  · cases ht
  · next hs => cases ht; exact ⟨Option.not_isSome_iff_eq_none.mp hs, rfl⟩

theorem destroyDevice_eq_next {s t : State} {h : Handle} (ht : destroyDevice h s = .next t) :
    s.slotOf h = none ∧ t = { s with devices := s.devices.filter fun d => d.1 != h
                                     duties := s.duties.filter fun d => d.1 != h } := by
  unfold destroyDevice at ht
  split at ht
  · cases ht
  · next hs => cases ht; exact ⟨Option.not_isSome_iff_eq_none.mp hs, rfl⟩

theorem lookup_cons_ne {α : Type} {g h : Handle} (hg : g ≠ h) (a : α) (l : List (Handle × α)) :
    ((h, a) :: l).lookup g = l.lookup g := by
  rw [List.lookup_cons, beq_eq_false_iff_ne.mpr hg]

/-- Taking the entries of `h` off a list leaves what the other handles find in it. -/
theorem lookup_filter_ne {α : Type} {g h : Handle} (hg : g ≠ h) (l : List (Handle × α)) :
    (l.filter fun d => d.1 != h).lookup g = l.lookup g := by
  induction l with
  | nil => rfl
  | cons d l ih =>
    obtain ⟨k, a⟩ := d
    by_cases hk : k = h
    · subst hk
      rw [List.filter_cons_of_neg (by simp), ih, lookup_cons_ne hg]
    · rw [List.filter_cons_of_pos (by simpa using hk), List.lookup_cons, List.lookup_cons, ih]

/-- `t` is `s` but for the lists of device objects and of duties, in which every attached handle finds the same. -/
structure KeepsAttached (s t : State) : Prop where
  eq : t = { s with devices := t.devices, duties := t.duties }
  devices : ∀ i g, s.slotAt i = some g → t.devices.lookup g = s.devices.lookup g
  duties : ∀ i g, s.slotAt i = some g → t.duties.lookup g = s.duties.lookup g

theorem ne_of_slotOf_none {s : State} {g h : Handle} {i : Nat} (hlen : s.slots.length = s.cfg.nMax)
    (hn : s.slotOf h = none) (hat : s.slotAt i = some g) : g ≠ h := by
  rintro rfl
  have hocc : s.Occupied i := Option.isSome_of_eq_some hat
  exact slotOf_eq_none hn i (hlen ▸ occupied_lt_length hocc) hat

theorem putDevice_keepsAttached {s t : State} {h : Handle} {id : Ident} (hlen : s.slots.length = s.cfg.nMax)
    (ht : putDevice h id s = .next t) : KeepsAttached s t := by
  obtain ⟨hn, rfl⟩ := putDevice_eq_next ht
  refine ⟨rfl, fun i g hat => ?_, fun _ _ _ => rfl⟩
  have hg := ne_of_slotOf_none hlen hn hat
  exact (lookup_cons_ne hg id _).trans (lookup_filter_ne hg _)

theorem destroyDevice_keepsAttached {s t : State} {h : Handle} (hlen : s.slots.length = s.cfg.nMax)
    (ht : destroyDevice h s = .next t) : KeepsAttached s t := by
  obtain ⟨hn, rfl⟩ := destroyDevice_eq_next ht
  exact ⟨rfl, fun i g hat => lookup_filter_ne (ne_of_slotOf_none hlen hn hat) _,
    fun i g hat => lookup_filter_ne (ne_of_slotOf_none hlen hn hat) _⟩

/-- An empty slot has a free identifier whatever the list of device objects holds (log 4), so the whole table keeps its
identifier bytes. -/
theorem KeepsAttached.idByte {s t : State} (h : KeepsAttached s t) (i k : Nat) :
    idByte t.devices (s.slotAt i) k = idByte s.devices (s.slotAt i) k := by
  cases hat : s.slotAt i with
  | none => rfl
  | some g => simp only [Machine.idByte, Option.bind_some, h.devices i g hat]

theorem KeepsAttached.slots {s t : State} (h : KeepsAttached s t) : t.slots = s.slots := by rw [h.eq]

theorem KeepsAttached.cfg {s t : State} (h : KeepsAttached s t) : t.cfg = s.cfg := by rw [h.eq]

theorem KeepsAttached.slotBit {s t : State} (h : KeepsAttached s t) : t.slotBit = s.slotBit := by
  funext i p
  unfold State.slotBit
  rw [slotAt_congr h.slots, funext (h.idByte i)]

/-- The tree depends on the device objects through the identifier bits of the table only (R169). -/
theorem KeepsAttached.treeCurrent {s t : State} (h : KeepsAttached s t) (hs : s.TreeCurrent) : t.TreeCurrent := by
  unfold State.TreeCurrent
  rw [h.slotBit, occupied_congr h.slots h.cfg, h.eq]
  exact hs

theorem KeepsAttached.inv {s t : State} (h : KeepsAttached s t) (hs : s.Inv) : t.Inv := by
  have htree := h.treeCurrent hs.treeCurrent
  rw [h.eq] at htree ⊢
  exact { hs with treeCurrent := htree }

/-- Settles O9: only the entries of the handle itself leave the lists, and it is in no slot. -/
theorem attachedDevicesAreFixed : Obligations.AttachedDevicesAreFixed := by
  refine ⟨fun s h i id hi hat => ?attached, fun s t h id hs ht => ?other⟩
  case attached =>
    have hsome := slotOf_isSome_of_attached hi hat
    exact ⟨putDevice_of_attached hsome id, destroyDevice_of_attached hsome⟩
  case other =>
    have hkeep : KeepsAttached s t :=
      ht.elim (putDevice_keepsAttached hs.slotsLength) (destroyDevice_keepsAttached hs.slotsLength)
    exact ⟨hkeep.inv hs, hkeep.eq, fun i g hat => ⟨hkeep.duties i g hat, fun k => hat ▸ hkeep.idByte i k⟩⟩

end Sys2Proof.Machine
end

section
/-! Stops and the abort (60_exceptions R305, R311, R313): why a step at an instruction boundary stops, and the
abort in one equation. -/

namespace Sys2Proof.Machine

/-! ### The abort (R305) -/

/-- Only the two conditions the document leaves uncoded can go unwritten (R302). -/
theorem writesErr_eq_false_iff {c : Config} {code : ErrKind} : writesErr c code = false ↔
    (code = .searchMismatch ∨ code = .noAddressMatch) ∧ c.codedProtocolErrors = false := by
  simp [writesErr, and_comm, or_iff_not_imp_left]

theorem pollByte_aborted (reinit : Bool) : pollByte .aborted reinit = if reinit then 0x82 else 0x02 := by
  cases reinit <;> rfl

/-- The abort in one equation: the release takes one draw, and its time passes. -/
theorem raiseAbort_eq_update (code : ErrKind) (reinit : Bool) (s : State) : raiseAbort code reinit s = { s with
    err := if writesErr s.cfg code then code else s.err
    line := ⟨false, s.line.out⟩, imask := false, fsm := .idle, bus := s.bus.tail
    time := s.time + (drawOf s.bus).dt, result := s.pollResult (pollByte .aborted reinit)
    trace := .goto .idle :: .line (s.time + (drawOf s.bus).dt) true .release :: s.trace } := by
  rw [raiseAbort_eq, finishPoll_eq, releaseLine_eq]
  rfl

/-- Settles O29: the code is written but where `writesErr` is false. -/
theorem abortEffect : Obligations.AbortEffect := by
  intro s code reinit
  refine ⟨s.time + (drawOf s.bus).dt, s.bus.tail, Nat.le_add_right .., ?_⟩
  simp only [raiseAbort_eq_update, pollByte_aborted, ← writesErr_eq_false_iff]
  cases writesErr s.cfg code <;> rfl

/-! ### What stops a step (R311, R313, R346) -/

theorem NeedsIdle.stream {i : Instr} (hi : NeedsIdle i) : i.stream = .host := by
  cases hi <;> rfl

theorem NeedsIdle.exec_ne_fault {i : Instr} (hi : NeedsIdle i) (s : State) (f : Fault) : exec i s ≠ .fault f := by
  obtain ⟨u, hu⟩ := hi.exec_eq s
  rw [hu, whenIdle]
  split <;> nofun

theorem IsBufferOp.exec_ne_fault {i : Instr} {addr : Nat} {len : Half} (hi : IsBufferOp addr len i) (s : State)
    (f : Fault) : exec i s ≠ .fault f := by
  obtain ⟨t, ht⟩ | ⟨j, -, hr, -⟩ := hi.cases s
  · rw [ht]; nofun
  · rw [hr]; nofun

/-- No instruction faults. -/
theorem exec_ne_fault (i : Instr) (s : State) (f : Fault) : exec i s ≠ .fault f := by
  cases i with
  | poll => exact NeedsIdle.poll.exec_ne_fault s f
  | run => exact NeedsIdle.run.exec_ne_fault s f
  | attach d => exact (NeedsIdle.attach d).exec_ne_fault s f
  | detachDev d => exact (NeedsIdle.detachDev d).exec_ne_fault s f
  | detachSlot j => exact (NeedsIdle.detachSlot j).exec_ne_fault s f
  | getSlot j =>
    obtain hj | hj := Nat.lt_or_ge j.toNat s.cfg.nMax
    · rw [exec_getSlot_of_lt hj]; nofun
    · rw [exec_getSlot_of_le hj]; nofun
  | sendBuf => exact IsBufferOp.exec_ne_fault (.inl rfl) s f
  | recvBuf => exact IsBufferOp.exec_ne_fault (.inr (.inl rfl)) s f
  | crc8 => exact IsBufferOp.exec_ne_fault (.inr (.inr (.inl rfl))) s f
  | crc16 => exact IsBufferOp.exec_ne_fault (.inr (.inr (.inr rfl))) s f
  | searchRom =>
    obtain ⟨_, ht, -⟩ := execSearchRom_cases s
    exact fun h => nomatch h.symm.trans ht
  | matchRom =>
    obtain ⟨_, ht, -⟩ := execMatchRom_cases s
    exact fun h => nomatch h.symm.trans ht
  | skipRom | readRom | readRomLegacy | unrecognized | getError | getSelected | getCount | sendBit | recvBit | sendByte
  | recvByte | makeId => exact nofun

/-- What a fetch at an instruction boundary finds. An instruction is taken off its stream only, and in CommandReceive
that is the bus stream. -/
inductive FetchedAtBoundary (s : State) : Fetched → Prop where
  | waiting : FetchedAtBoundary s .waiting
  | instr {i : Instr} {t : State} (hcfg : t.cfg = s.cfg) (hfsm : t.fsm = s.fsm) (hmem : t.mem = s.mem)
      (hbus : s.fsm = .commandReceive → i.stream = .bus) : FetchedAtBoundary s (.instr i t)
  | dutyReturns {t : State} : FetchedAtBoundary s (.dutyReturns t)
  | undecodable {e : DecodeError} : FetchedAtBoundary s (.undecodable e)
  | dutyStuck (hduty : s.fsm = .duty) (hacts : s.dutyActs = []) : FetchedAtBoundary s .dutyStuck

/-- A request of the host or of a duty, taken off its list. -/
theorem fetchRequest_atBoundary {s t : State} (request : List Nat) (hcfg : t.cfg = s.cfg) (hfsm : t.fsm = s.fsm)
    (hmem : t.mem = s.mem) (hcommand : s.fsm ≠ .commandReceive) : FetchedAtBoundary s (fetchRequest request t) := by
  unfold fetchRequest
  split
  · exact .instr hcfg hfsm hmem fun hc => absurd hc hcommand
  · exact .undecodable

theorem fetch_atBoundary {s : State} (h : s.fsm = .idle ∨ s.fsm = .commandReceive ∨ s.fsm = .duty) :
    FetchedAtBoundary s (fetch s) := by
  obtain hidle | hcommand | hduty := h
  · cases hr : s.running with
    | true =>
      rw [fetch_idle_running hidle hr]
      exact .instr rfl rfl rfl (by simp [hidle])
    | false =>
      cases hh : s.host with
      | nil => rw [fetch_idle_noRequest hidle hr hh]; exact .waiting
      | cons request rest =>
        rw [fetch_idle_request hidle hr hh]
        exact fetchRequest_atBoundary request rfl rfl rfl (by simp [hidle])
  · rw [fetch_commandReceive hcommand]
    exact .instr rfl rfl rfl fun _ => decodeRom_stream s.tshift
  · cases ha : s.dutyActs with
    | nil => rw [fetch_duty_stuck hduty ha]; exact .dutyStuck hduty ha
    | cons act rest =>
      cases act with
      | ret => rw [fetch_duty_ret hduty ha]; exact .dutyReturns
      | call request =>
        rw [fetch_duty_call hduty ha]
        exact fetchRequest_atBoundary request rfl rfl rfl (by simp [hduty])

/-- An operation that needs Idle is no ROM command, so at a boundary only a duty can call it while FSM is not Idle. -/
theorem duty_of_busy {s : State} {i : Instr} (h : s.fsm = .idle ∨ s.fsm = .commandReceive ∨ s.fsm = .duty)
    (hi : NeedsIdle i) (hbus : s.fsm = .commandReceive → i.stream = .bus) (hbusy : s.fsm ≠ .idle) : s.fsm = .duty := by
  obtain hidle | hcommand | hduty := h
  · exact absurd hidle hbusy
  · exact nomatch hi.stream.symm.trans (hbus hcommand)
  · exact hduty

/-- Settles O57: a step stops in its fetch or in the instruction fetched, and an instruction only refuses. -/
theorem stopsAreNamed : Obligations.StopsAreNamed := by
  intro s hs
  have hboundary : s.fsm = .idle ∨ s.fsm = .commandReceive ∨ s.fsm = .duty :=
    hs.boundary.imp_right (Or.imp_left And.left)
  have hfetched := fetch_atBoundary hboundary
  refine ⟨fun f h => ?fault, fun r h => ?refusal⟩ <;> unfold step at h <;> generalize fetch s = x at hfetched h
  case fault =>
    cases hfetched with
    | waiting | dutyReturns | undecodable => cases h
    | instr => exact absurd h (exec_ne_fault _ _ f)
    | dutyStuck hduty hacts => cases h; exact ⟨rfl, hduty, hacts⟩
  case refusal =>
    cases hfetched with
    | waiting | dutyReturns | dutyStuck => cases h
    | undecodable => cases h; exact .inl ⟨_, rfl⟩
    | instr hcfg hfsm hmem hbus =>
      cases exec_refused_cases h with
      | busy hi hbusy => exact .inr (.inl ⟨rfl, duty_of_busy hboundary hi hbus (hfsm ▸ hbusy)⟩)
      | noSuchSlot hj => exact .inr (.inr (.inl ⟨_, rfl, hcfg ▸ hj⟩))
      | outside _ hn => exact .inr (.inr (.inr ⟨_, rfl, hmem ▸ hn⟩))

end Sys2Proof.Machine
end
